-- ==== Sys2Proof/Word.lean ====
section
/-! DEFINITION. The word types of the engine: a byte (spec/00_scope.md R10), a 32-bit command or bus word
(spec/30_encoding.md R100, spec/20_memory.md R72) and a 64-bit Keccak lane (spec/00_scope.md R7, R11). -/

namespace Sys2Proof

/-- A byte (octet) is 8 bits (R10). -/
abbrev Byte := BitVec 8

/-- A command word, and the value of a 32-bit bus access (R100, R72). -/
abbrev Word := BitVec 32

/-- One 64-bit lane A[x][y] of the Keccak state (R15, R35). -/
abbrev Lane := BitVec 64

end Sys2Proof
end

