-- ==== Sys2Proof/Syntax.lean ====
section
/-! DEFINITION. The commands as syntax: one constructor per row of spec/opcode_table.json (spec/30_encoding.md R103). -/

namespace Sys2Proof

/-- The point registers PR0..PR3 (spec/10_state.md R39), written P0..P3 (spec/30_encoding.md R107). -/
inductive PReg where
  | p0 | p1 | p2 | p3
  deriving DecidableEq, Repr

/-- The 17 commands with their operands (R102, R103). A count or rate `n` is the integer zext_8(N), a suffix `s` is the
byte SX, `lsb` is PDEC's parity bit, and `d`, `a`, `b` name point registers. -/
inductive Instr where
  | sperm
  | sld
  | sst
  | sinit (n : Nat)
  | sabs
  | sfin (n : Nat) (s : Byte)
  | ssqz
  | pldo (d : PReg)
  | pldg (d : PReg)
  | pld (d : PReg) (n : Nat)
  | pst (a : PReg)
  | padd (d a b : PReg)
  | pdbl (d a : PReg)
  | pneg (d a : PReg)
  | pmul (d a : PReg)
  | kld (n : Nat)
  | pdec (d : PReg) (n : Nat) (lsb : Bool)
  deriving DecidableEq, Repr

end Sys2Proof
end

