-- ==== Sys2Proof/Machine/State.lean ====
section
/-! DEFINITION. The state of the engine (spec/10_state.md R33), the turns of the outside world that are still to come, and
the reasons a run can stop. Plain data throughout. -/

namespace Sys2Proof.Machine

/-- An affine point (x, y) of E-521 (spec/43_e521.md R250). The coordinates are the integers of R39; that they lie in
[0, p−1] and on the curve is the invariant `Inv` of Sys2Proof/Safety.lean (log 9). -/
structure Point where
  x : Nat
  y : Nat
  deriving DecidableEq, Repr

/-- The identity O = (0, 1) (spec/43_e521.md R252). -/
def Point.identity : Point := ⟨0, 1⟩

/-- The four point registers PR0..PR3 (spec/10_state.md R39). -/
structure PointRegs where
  pr0 : Point
  pr1 : Point
  pr2 : Point
  pr3 : Point
  deriving DecidableEq, Repr

/-- The sponge state: an array of 200 bytes (spec/10_state.md R34). -/
abbrev SpongeBytes := Vector Byte 200

/-- The host-visible storage, keyed by window offset, in one canonical form: offsets strictly rising and no cell equal to
what an unlisted offset reads as (log 11). Its cells are the bytes of DBUF (spec/10_state.md R38). -/
abbrev Memory := List Host.Cell

/-- The error kinds of spec/60_exceptions.md R321, less "none". -/
inductive ErrCode where
  | invalidSuffix
  | lengthMismatch
  | notOnCurve
  | noSuchPoint
  | badLength
  | authFail
  | illegalCommand
  | badRate
  | noRate
  deriving DecidableEq, Repr

/-- What a bus access does: a read, or a write of a value whose low bits are the access's data (spec/20_memory.md R73). -/
inductive BusOp where
  | read
  | write (v : Word)
  deriving DecidableEq, Repr

/-- One access of the host to the window: the offset, the width in bits and what it does (spec/20_memory.md R70, R72).
A width may be any number: R72 says which ones the engine accepts (log 15). -/
structure Access where
  off : Fin 0x200
  bits : Nat
  op : BusOp
  deriving DecidableEq, Repr

/-- One turn of an agent: a step offered to the engine (spec/60_exceptions.md R331), a bus access of the host
(spec/20_memory.md R72), or power-on reset (spec/70_reset_and_hazards.md R360). -/
inductive Turn where
  | engine
  | host (a : Access)
  | powerOn
  deriving DecidableEq, Repr

/-- The state. The first eight fields are the engine's (spec/10_state.md R33); the last three are the model's own. -/
structure State where
  /-- S, the sponge state (R34). -/
  sponge : SpongeBytes
  /-- RATE, the sponge rate in bytes, 0 when no sponge is configured (R37). -/
  rate : Byte
  /-- DBUF, the data buffer, at window offsets 0x100..0x1FF (R38). -/
  dbuf : Memory
  /-- PR0..PR3 (R39). -/
  pr : PointRegs
  /-- K, the unsigned scalar register (R40). -/
  k : BitVec 528
  /-- STATUS.ERR (R41). -/
  err : BitVec 4
  /-- STATUS.OVR (R41). -/
  ovr : Bool
  /-- CMDL, the latched command word. It is valid exactly when STATUS.BUSY = 1 (R46), so BUSY is its validity (log 3). -/
  cmdl : Option Word
  /-- Model's own: the turns still to come, the next one first (log 1). -/
  turns : List Turn
  /-- Model's own: the values the host's reads returned, oldest first (log 7). -/
  replies : List Word
  /-- Model's own: how many free values have been drawn (log 5). -/
  freeIdx : Nat
  deriving DecidableEq, Repr

/-- STATUS.BUSY: 1 exactly while a command is latched (spec/10_state.md R41, R46). -/
def State.busy (s : State) : Bool := s.cmdl.isSome

/-- The state after power-on reset (spec/10_state.md R49, spec/70_reset_and_hazards.md R360). The spec states a value for
every piece of engine state; the model's own three fields are empty or zero (DESIGN CHOICE, log 20). -/
def State.reset : State where
  sponge := Vector.replicate 200 0
  rate := 0
  dbuf := []
  pr := ⟨.identity, .identity, .identity, .identity⟩
  k := 0
  err := 0
  ovr := false
  cmdl := none
  turns := []
  replies := []
  freeIdx := 0

/-- Why a run faults: the model faults of spec/60_exceptions.md R335. Each marks a run to which the spec gives no
behaviour, and stopping is safe: no claim about a continuation can be proved. -/
inductive Fault where
  /-- Raised by a bus access of the host that spec/20_memory.md R72 does not accept. Safe. -/
  | busError
  /-- Raised by a DBUF access of the host while BUSY = 1 (spec/70_reset_and_hazards.md R370). Safe. -/
  | hostHazard
  /-- Raised by PADD, PDBL, PMUL and PDEC where finv(0) is reached (spec/43_e521.md R265). No state with on-curve point
  registers raises it (log 10). Safe. -/
  | internalFault
  deriving DecidableEq, Repr

/-- Why the model has no meaning to give. -/
inductive Refusal where
  /-- Raised by the dispatcher for a command whose meaning is not written. No command of this model raises it. Safe. -/
  | notModelled (mnemonic : String)
  /-- Raised by the host-side encodings for an integer of 2^2040 or more (spec/42_host_hash_procedures.md R224). Safe. -/
  | encodingTooLarge
  /-- Raised by the host-side `bytepad` for w = 0 (spec/42_host_hash_procedures.md R223). Safe. -/
  | bytepadZeroWidth
  deriving DecidableEq, Repr

end Sys2Proof.Machine
end

