-- ==== Sys2Proof/Machine/Flags.lean ====
section
/-! DEFINITION. The flags of the engine: the error codes of STATUS.ERR and the STATUS word (spec/60_exceptions.md R321,
spec/10_state.md R41). The engine has no condition codes (spec/10_state.md R48). -/

namespace Sys2Proof.Machine

/-- The 4-bit code of an error kind (spec/60_exceptions.md R321). -/
def ErrCode.code : ErrCode → BitVec 4
  | .invalidSuffix => 1
  | .lengthMismatch => 2
  | .notOnCurve => 3
  | .noSuchPoint => 4
  | .badLength => 5
  | .authFail => 6
  | .illegalCommand => 7
  | .badRate => 8
  | .noRate => 9

/-- The values STATUS.ERR can hold: no error, or a code some command raises. Codes 2, 6 and 10..15 are never written
(spec/60_exceptions.md R324). -/
def legalErr (e : BitVec 4) : Bool :=
  e == 0 || [ErrCode.invalidSuffix, .notOnCurve, .noSuchPoint, .badLength, .illegalCommand, .badRate, .noRate].any
    fun c => c.code == e

/-- The STATUS register: BUSY in bit 0, OVR in bit 1, ERR in bits 7:4, every other bit 0 (spec/10_state.md R41). -/
def State.statusWord (s : State) : Word :=
  (0 : BitVec 24) ++ s.err ++ (0 : BitVec 2) ++ BitVec.ofBool s.ovr ++ BitVec.ofBool s.busy

end Sys2Proof.Machine
end

