-- ==== Sys2Proof/Machine/Ops.lean ====
section
/-! DEFINITION. The named operations over DBUF, the point registers and the engine's registers; the end of a command, with
error entry as one shared operation (spec/60_exceptions.md R328, R331), and the return from an error beside it (R333). -/

namespace Sys2Proof.Machine

/-! ### DBUF as canonical memory -/

/-- The window offset of DBUF[0] (spec/20_memory.md R71). -/
def dbufBase : Nat := 0x100

/-- The window offset one past DBUF[255] (spec/20_memory.md R71). -/
def dbufEnd : Nat := 0x200

/-- What an offset that no cell lists reads as: the reset contents of DBUF (spec/10_state.md R49; log 11). -/
def Memory.unlisted : Byte := 0

/-- The byte at an offset. -/
def Memory.read (m : Memory) (a : Nat) : Byte := (m.lookup a).getD Memory.unlisted

/-- The cells of a run of bytes that starts at offset `a`, without those equal to what an unlisted offset reads as. -/
def Memory.cells (a : Nat) : List Byte → Memory
  | [] => []
  | b :: bs => if b = Memory.unlisted then Memory.cells (a + 1) bs else (a, b) :: Memory.cells (a + 1) bs

/-- Store a run of bytes at offsets `a`, `a + 1`, …: the cells below it, its own, and the cells above it. -/
def Memory.write (m : Memory) (a : Nat) (bs : List Byte) : Memory :=
  m.filter (fun c => c.1 < a) ++ Memory.cells a bs ++ m.filter (fun c => a + bs.length ≤ c.1)

/-- The canonical form: offsets strictly rising, every one of them in DBUF, and no cell equal to what an unlisted offset
reads as. -/
abbrev Memory.wf (m : Memory) : Prop :=
  m.Pairwise (fun c c' => c.1 < c'.1) ∧
    ∀ c ∈ m, c.2 ≠ Memory.unlisted ∧ dbufBase ≤ c.1 ∧ c.1 < dbufEnd

/-! ### The point registers -/

/-- PR[d], read (spec/00_scope.md R13). -/
def PointRegs.get (r : PointRegs) : PReg → Point
  | .p0 => r.pr0
  | .p1 => r.pr1
  | .p2 => r.pr2
  | .p3 => r.pr3

/-- PR[d] <- P (spec/00_scope.md R13). No register is hardwired (spec/10_state.md R39). -/
def PointRegs.set (r : PointRegs) (d : PReg) (P : Point) : PointRegs :=
  match d with
  | .p0 => { r with pr0 := P }
  | .p1 => { r with pr1 := P }
  | .p2 => { r with pr2 := P }
  | .p3 => { r with pr3 := P }

/-! ### Reads and writes of the state -/

/-- DBUF[i] (spec/10_state.md R38). -/
def State.dbufByte (s : State) (i : Nat) : Byte := s.dbuf.read (dbufBase + i)

/-- S <- v. -/
def State.setSponge (s : State) (v : SpongeBytes) : State := { s with sponge := v }

/-- RATE <- n. -/
def State.setRate (s : State) (n : Byte) : State := { s with rate := n }

/-- DBUF[i..] <- bs. -/
def State.setDbuf (s : State) (i : Nat) (bs : List Byte) : State := { s with dbuf := s.dbuf.write (dbufBase + i) bs }

/-- PR[d] <- P. -/
def State.setPr (s : State) (d : PReg) (P : Point) : State := { s with pr := s.pr.set d P }

/-- K <- v. -/
def State.setK (s : State) (v : BitVec 528) : State := { s with k := v }

/-! ### The end of a command -/

/-- A command ends and succeeds: STATUS.BUSY <- 0 (spec/60_exceptions.md R331). ERR and OVR keep their values
(spec/10_state.md R48). -/
def State.finish (s : State) : State := { s with cmdl := none }

/-- Error entry: STATUS.ERR <- code and STATUS.BUSY <- 0, nothing else (spec/60_exceptions.md R326, R328). -/
def State.raise (s : State) (e : ErrCode) : State := { s with err := e.code, cmdl := none }

/-- Return from an error, CTRL.CLR: STATUS.ERR <- 0 and STATUS.OVR <- 0, nothing else (spec/60_exceptions.md R333). -/
def State.clearErrors (s : State) : State := { s with err := 0, ovr := false }

/-- Every piece of engine state takes its reset value, and a command in flight is discarded
(spec/70_reset_and_hazards.md R360, R361). The model's own fields are no engine state and stay (log 18). -/
def State.resetEngine (s : State) : State :=
  { State.reset with turns := s.turns, replies := s.replies, freeIdx := s.freeIdx }

/-- A CMD write of `w` (spec/60_exceptions.md R330): accepted when BUSY = 0 and ERR = 0, else dropped with OVR <- 1. -/
def State.submit (s : State) (w : Word) : State :=
  if s.busy = false ∧ s.err = 0 then { s with cmdl := some w } else { s with ovr := true }

end Sys2Proof.Machine
end

