-- ==== Sys2Proof/Machine/Operands.lean ====
section
/-! DEFINITION. Integers and byte strings (spec/00_scope.md R12), and the operands a command takes from DBUF
(spec/30_encoding.md R102, spec/10_state.md R38). -/

namespace Sys2Proof.Machine

/-- ule(s), unsigned little-endian (R12). -/
def ule : List Byte → Nat
  | [] => 0
  | b :: bs => b.toNat + 256 * ule bs

/-- ube(s), unsigned big-endian (R12). -/
def ube (bs : List Byte) : Nat := bs.foldl (fun acc b => 256 * acc + b.toNat) 0

/-- sbe(s), signed big-endian two's complement (R12). -/
def sbe (bs : List Byte) : Int :=
  if 0x80 ≤ (bs.headD 0).toNat then (ube bs : Int) - (2 ^ (8 * bs.length) : Nat) else (ube bs : Int)

/-- ube_n(v): the n-byte string whose ube is v, for v < 2^(8n) (R12). -/
def ubeBytes (n v : Nat) : List Byte :=
  (List.range n).map fun i => BitVec.ofNat 8 (v / 2 ^ (8 * (n - 1 - i)))

/-- sbe_n(v): the two's-complement bytes of v, padded to n bytes with 0x00 or 0xFF (R12). -/
def sbeBytes (n : Nat) (v : Int) : List Byte := ubeBytes n (v % (2 ^ (8 * n) : Nat)).toNat

/-- minbe(v) for v > 0: the shortest big-endian encoding, without a leading 0x00 (R12). -/
def minbe (v : Nat) : List Byte := ubeBytes (v.log2 / 8 + 1) v

/-- DBUF[0..n−1] (R38). -/
def State.dbufBytes (s : State) (n : Nat) : List Byte := (List.range n).map s.dbufByte

/-- DBUF[i..i+n−1] (R38). -/
def State.dbufSlice (s : State) (i n : Nat) : List Byte := (List.range n).map fun j => s.dbufByte (i + j)

end Sys2Proof.Machine
end

