-- ==== Sys2Proof/Machine/Field.lean ====
section
/-! DEFINITION. Arithmetic in GF(p), p = 2^521 − 1 (spec/00_scope.md R7, R14; spec/43_e521.md R257). A field element is an
integer in [0, p−1]. -/

namespace Sys2Proof.Machine

/-- p = 2^521 − 1 (spec/43_e521.md R251), written out: 0x1 and 130 hex digits F. That the numeral is 2^521 − 1 is the
theorem `fieldP_eq` of Sys2Proof/Laws/Field.lean. -/
def fieldP : Nat :=
  0x1FFFFFFFFFFFFFFFFFFFFFFFFFFFFFFFFFFFFFFFFFFFFFFFFFFFFFFFFFFFFFFFFFFFFFFFFFFFFFFFFFFFFFFFFFFFFFFFFFFFFFFFFFFFFFFFFFFFFFFFFFFFFFFFFFF

/-- fadd(a, b) = (a+b) mod p (spec/00_scope.md R14). -/
def fadd (a b : Nat) : Nat := (a + b) % fieldP

/-- fsub(a, b) = (a−b) mod p, in [0, p−1] also when a < b (spec/00_scope.md R11, R14). -/
def fsub (a b : Nat) : Nat := (a + (fieldP - b % fieldP)) % fieldP

/-- fmul(a, b) = (a·b) mod p (spec/00_scope.md R14). -/
def fmul (a b : Nat) : Nat := a * b % fieldP

/-- fneg(a) = (−a) mod p (spec/00_scope.md R14). -/
def fneg (a : Nat) : Nat := (fieldP - a % fieldP) % fieldP

/-- acc · b^e mod p by squaring, on the low `fuel` bits of e. -/
def fpowLoop : (fuel b e acc : Nat) → Nat
  | 0, _, _, acc => acc
  | fuel + 1, b, e, acc => fpowLoop fuel (fmul b b) (e / 2) (if e % 2 = 1 then fmul acc b else acc)

/-- a^e mod p for e < 2^521. -/
def fpow (a e : Nat) : Nat := fpowLoop 521 (a % fieldP) e 1

/-- finv(a) = a^(p−2) mod p for a mod p ≠ 0 (spec/00_scope.md R14). There is no finv(0) (spec/43_e521.md R265). -/
def finv (a : Nat) : Option Nat := if a % fieldP = 0 then none else some (fpow a (fieldP - 2))

/-- fdiv(a, b) = fmul(a, finv(b)) (spec/00_scope.md R14). -/
def fdiv (a b : Nat) : Option Nat := (finv b).map (fmul a)

/-- sqrt_mod_p(v, lsb): v^((p+1)/4), flipped mod p when its low bit is not lsb, then verified by squaring
(spec/43_e521.md R257). -/
def sqrtModP (v : Nat) (lsb : Bool) : Option Nat :=
  let t := fpow v ((fieldP + 1) / 4)
  let t := if t % 2 = lsb.toNat then t else fneg t
  if fmul t t = v then some t else none

end Sys2Proof.Machine
end

