-- ==== Sys2Proof/Machine/Curve.lean ====
section
/-! DEFINITION. The curve E-521, its constants and the point operations (spec/43_e521.md R250 to R264). An operation that
reaches finv(0) has no result (R265). -/

namespace Sys2Proof.Machine

/-- d = −376014 as the field element p − 376014 (R251). -/
def curveD : Nat := fieldP - 376014

/-- R' (R251). -/
def orderOffset : Nat := 337554763258501705789107630418782636071904961214051226618635150085779108655765

/-- r = 2^519 − R', the order of the prime-order subgroup (R251). No command uses it. -/
def subgroupOrder : Nat := 2 ^ 519 - orderOffset

/-- The cofactor (spec/00_scope.md R7, R250). No command uses it. -/
def cofactor : Nat := 4

/-- "number of points is 4r" (spec/00_scope.md R7, R251): the order of the whole group. No command uses it. -/
def pointCount : Nat := cofactor * subgroupOrder

/-- The generator G: x = 4 and y the even root (R253). -/
def Point.generator : Point where
  x := 4
  y := 0x11dd4b4952f9b741bdb15c806d24013b3ebf3be43295904d1e4050b3c80f5920a145616ebb481557d7bfa955cbfb1cfd4e064b0de40f93e22f8bcdfb41d0093b10c

/-- on_curve(x, y) (R254). -/
def onCurve (x y : Nat) : Bool :=
  (x * x + y * y) % fieldP == (1 + curveD * (x * x) * (y * y)) % fieldP

/-- A point as the registers hold it: coordinates in [0, p−1] on the curve (spec/10_state.md R39). -/
def Point.valid (P : Point) : Bool :=
  decide (P.x < fieldP) && decide (P.y < fieldP) && onCurve P.x P.y

/-- The point constructor: the range check (R256), then the curve check (R254, R255). -/
def pointOf (x y : Int) : Option Point :=
  if 0 ≤ x ∧ x < fieldP ∧ 0 ≤ y ∧ y < fieldP then
    if onCurve x.toNat y.toNat then some ⟨x.toNat, y.toNat⟩ else none
  else none

/-- byte_length(p) (spec/00_scope.md R7). -/
def coordBytes : Nat := 66

/-- EC_PT_BYTELEN (spec/00_scope.md R7). -/
def pointBytes : Nat := 2 * coordBytes

/-- to_bytes(x, y) = sbe_66(x) ‖ sbe_66(y) (R258). -/
def toBytes (P : Point) : List Byte := sbeBytes coordBytes P.x ++ sbeBytes coordBytes P.y

/-- from_bytes(B): BadLength for a length other than 132, then the point constructor on the two signed halves (R259). -/
def fromBytes (B : List Byte) : Except ErrCode Point :=
  if B.length = pointBytes then
    match pointOf (sbe (B.take coordBytes)) (sbe (B.drop coordBytes)) with
    | some P => .ok P
    | none => .error .notOnCurve
  else .error .badLength

/-- y² = (1 − x²) / (1 − d·x²), the first step of decompress (R260). -/
def ySquared (x : Nat) : Option Nat :=
  fdiv (fsub 1 (fmul x x)) (fsub 1 (fmul curveD (fmul x x)))

/-- t = d·x₁x₂y₁y₂, the term of both denominators of the addition law (R261). -/
def addTerm (P Q : Point) : Nat := fmul curveD (fmul (fmul P.x Q.x) (fmul P.y Q.y))

/-- add(P, Q), complete Edwards addition (R261). -/
def pointAdd (P Q : Point) : Option Point :=
  match fdiv (fadd (fmul P.x Q.y) (fmul P.y Q.x)) (fadd 1 (addTerm P Q)),
        fdiv (fsub (fmul P.y Q.y) (fmul P.x Q.x)) (fsub 1 (addTerm P Q)) with
  | some x3, some y3 => some ⟨x3, y3⟩
  | _, _ => none

/-- double(P) = add(P, P) (R262). -/
def pointDouble (P : Point) : Option Point := pointAdd P P

/-- negate((x, y)) = ((−x) mod p, y) (R263). -/
def pointNeg (P : Point) : Point := ⟨fneg P.x, P.y⟩

/-- bitlen(k): the smallest n with k < 2^n (spec/00_scope.md R11). -/
def bitlen (k : Nat) : Nat := if k = 0 then 0 else k.log2 + 1

/-- One pass of the loop of scalar_mul for a bit of the scalar: double, then add P when the bit is 1 (R264). -/
def mulStep (P V : Point) (bit : Bool) : Option Point :=
  match pointDouble V with
  | none => none
  | some W => if bit then pointAdd W P else some W

/-- The loop of scalar_mul from bit i − 1 down to bit 0 (R264). -/
def mulLoop (P : Point) (k : Nat) : (i : Nat) → (V : Point) → Option Point
  | 0, V => some V
  | i + 1, V =>
    match mulStep P V (k.testBit i) with
    | none => none
    | some W => mulLoop P k i W

/-- scalar_mul(P, k): double-and-add, most-significant bit first, from O (R264). -/
def scalarMul (P : Point) (k : Nat) : Option Point := mulLoop P k (bitlen k) .identity

end Sys2Proof.Machine
end

