-- ==== Sys2Proof/Machine/Points.lean ====
section
/-! DEFINITION. The commands of the E-521 unit (spec/43_e521.md R270 to R279). Every command reads its source registers
before it writes PR[d]. -/

namespace Sys2Proof.Machine

/-- End a command with a point result: PR[d] <- P, or the model fault InternalFault where finv(0) was reached
(R265; spec/60_exceptions.md R335). -/
def State.finishPoint (s : State) (d : PReg) (r : Option Point) : Host.Outcome State Fault Refusal :=
  match r with
  | some P => .next (s.setPr d P).finish
  | none => .fault .internalFault

/-- PLDO Pd: PR[d] <- O (R270). -/
def execPldo (d : PReg) (s : State) : Host.Outcome State Fault Refusal :=
  .next (s.setPr d .identity).finish

/-- PLDG Pd: PR[d] <- G (R271). -/
def execPldg (d : PReg) (s : State) : Host.Outcome State Fault Refusal :=
  .next (s.setPr d .generator).finish

/-- PLD Pd, n: PR[d] <- from_bytes(DBUF[0..131]), or BadLength, NotOnCurve (R272). -/
def execPld (d : PReg) (n : Nat) (s : State) : Host.Outcome State Fault Refusal :=
  if n = pointBytes then
    match fromBytes (s.dbufBytes pointBytes) with
    | .ok P => .next (s.setPr d P).finish
    | .error e => .next (s.raise e)
  else .next (s.raise .badLength)

/-- PST Pa: DBUF[0..131] <- to_bytes(PR[a]) (R273). -/
def execPst (a : PReg) (s : State) : Host.Outcome State Fault Refusal :=
  .next (s.setDbuf 0 (toBytes (s.pr.get a))).finish

/-- PADD Pd, Pa, Pb: PR[d] <- add(PR[a], PR[b]) (R274). -/
def execPadd (d a b : PReg) (s : State) : Host.Outcome State Fault Refusal :=
  s.finishPoint d (pointAdd (s.pr.get a) (s.pr.get b))

/-- PDBL Pd, Pa: PR[d] <- double(PR[a]) (R275). -/
def execPdbl (d a : PReg) (s : State) : Host.Outcome State Fault Refusal :=
  s.finishPoint d (pointDouble (s.pr.get a))

/-- PNEG Pd, Pa: PR[d] <- negate(PR[a]) (R276). -/
def execPneg (d a : PReg) (s : State) : Host.Outcome State Fault Refusal :=
  .next (s.setPr d (pointNeg (s.pr.get a))).finish

/-- PMUL Pd, Pa: PR[d] <- scalar_mul(PR[a], K), K unchanged (R277). -/
def execPmul (d a : PReg) (s : State) : Host.Outcome State Fault Refusal :=
  s.finishPoint d (scalarMul (s.pr.get a) s.k.toNat)

/-- KLD n: K <- ube(DBUF[0..n−1]), or BadLength when n = 0 or n > 66 (R278). -/
def execKld (n : Nat) (s : State) : Host.Outcome State Fault Refusal :=
  if n < 1 ∨ 66 < n then .next (s.raise .badLength)
  else .next (s.setK (BitVec.ofNat 528 (ube (s.dbufBytes n)))).finish

/-- PDEC Pd, n, lsb: PR[d] <- decompress(sbe(DBUF[0..65]), lsb), or BadLength, NotOnCurve, NoSuchPoint (R279, R260). -/
def execPdec (d : PReg) (n : Nat) (lsb : Bool) (s : State) : Host.Outcome State Fault Refusal :=
  if n = coordBytes then
    let x := sbe (s.dbufBytes coordBytes)
    if 0 ≤ x ∧ x < fieldP then
      match ySquared x.toNat with
      | none => .fault .internalFault
      | some v =>
        match sqrtModP v lsb with
        | none => .next (s.raise .noSuchPoint)
        | some y => .next (s.setPr d ⟨x.toNat, y⟩).finish
    else .next (s.raise .notOnCurve)
  else .next (s.raise .badLength)

end Sys2Proof.Machine
end

