-- ==== Sys2Proof/Machine/Keccak.lean ====
section
/-! DEFINITION. The permutation F = Keccak-f[1600] on the lane view of S (spec/40_keccak_permutation.md R130 to R141). -/

namespace Sys2Proof.Machine

/-- Five like things, indexed by 0..4: one axis of the 5×5 grid (spec/40_keccak_permutation.md R130). -/
structure Five (α : Type) where
  v0 : α
  v1 : α
  v2 : α
  v3 : α
  v4 : α
  deriving DecidableEq, Repr

/-- Entry i. -/
def Five.get {α : Type} (r : Five α) : Fin 5 → α
  | 0 => r.v0
  | 1 => r.v1
  | 2 => r.v2
  | 3 => r.v3
  | 4 => r.v4

/-- The five entries f 0, …, f 4. -/
def Five.build {α : Type} (f : Fin 5 → α) : Five α := ⟨f 0, f 1, f 2, f 3, f 4⟩

/-- The 5×5 grid of lanes A[x][y], x first (spec/10_state.md R35). -/
abbrev Lanes := Five (Five Lane)

/-- A[x][y]. The indexes are in Fin 5, whose arithmetic is modulo 5 (R130). -/
def lane (A : Lanes) (x y : Fin 5) : Lane := (A.get x).get y

/-- The grid whose lane at x, y is f x y. -/
def lanesOf (f : Fin 5 → Fin 5 → Lane) : Lanes := Five.build fun x => Five.build fun y => f x y

/-! ### Constant tables -/

/-- The rotation offsets RHO[x][y] (R141, from general knowledge as the spec says; log 12). Each line is one x. -/
def rhoTable : Five (Five Nat) :=
  ⟨⟨0, 36, 3, 41, 18⟩,
   ⟨1, 44, 10, 45, 2⟩,
   ⟨62, 6, 43, 15, 61⟩,
   ⟨28, 55, 25, 21, 56⟩,
   ⟨27, 20, 39, 8, 14⟩⟩

/-- The round constants RC[0..23] (R140, from general knowledge as the spec says; log 12). -/
def roundConstants : List Lane :=
  [0x0000000000000001, 0x0000000000008082, 0x800000000000808A, 0x8000000080008000,
   0x000000000000808B, 0x0000000080000001, 0x8000000080008081, 0x8000000000008009,
   0x000000000000008A, 0x0000000000000088, 0x0000000080008009, 0x000000008000000A] ++
  [0x000000008000808B, 0x800000000000008B, 0x8000000000008089, 0x8000000000008003,
   0x8000000000008002, 0x8000000000000080, 0x000000000000800A, 0x800000008000000A,
   0x8000000080008081, 0x8000000000008080, 0x0000000080000001, 0x8000000080008008]

/-! ### The step mappings -/

/-- C[x], the parity of a column (R131). -/
def thetaC (A : Lanes) : Five Lane :=
  Five.build fun x => lane A x 0 ^^^ lane A x 1 ^^^ lane A x 2 ^^^ lane A x 3 ^^^ lane A x 4

/-- D[x] = C[x−1] ⊕ ROTL_64(C[x+1], 1) (R131). -/
def thetaD (C : Five Lane) : Five Lane :=
  Five.build fun x => C.get (x - 1) ^^^ (C.get (x + 1)).rotateLeft 1

/-- θ (R131). -/
def theta (A : Lanes) : Lanes :=
  let D := thetaD (thetaC A)
  lanesOf fun x y => lane A x y ^^^ D.get x

/-- ρ (R132). -/
def rho (A : Lanes) : Lanes :=
  lanesOf fun x y => (lane A x y).rotateLeft ((rhoTable.get x).get y)

/-- π (R133). -/
def piStep (A : Lanes) : Lanes :=
  lanesOf fun x y => lane A (x + 3 * y) x

/-- χ (R134). -/
def chi (A : Lanes) : Lanes :=
  lanesOf fun x y => lane A x y ^^^ (~~~(lane A (x + 1) y) &&& lane A (x + 2) y)

/-- ι with a round constant (R135). -/
def iota (rc : Lane) (A : Lanes) : Lanes :=
  lanesOf fun x y => if x = 0 ∧ y = 0 then lane A x y ^^^ rc else lane A x y

/-- One round: θ, ρ, π, χ, ι in that order (R136). -/
def keccakRound (A : Lanes) (rc : Lane) : Lanes := iota rc (chi (piStep (rho (theta A))))

/-- The 24 rounds, with the round constants in increasing order of the round index (R137). -/
def keccakRounds (A : Lanes) : Lanes := roundConstants.foldl keccakRound A

/-! ### The byte view -/

/-- The 8 bytes of lane (x, y) in S: S[8·(x+5y) .. 8·(x+5y)+7] (spec/10_state.md R35). -/
def laneBytes (S : SpongeBytes) (x y : Fin 5) : List Byte :=
  (List.range 8).map fun j => S.toList.getD (8 * (x.val + 5 * y.val) + j) 0

/-- lanes(S): A[x][y] = ule of its 8 bytes (spec/10_state.md R35). -/
def lanesOfBytes (S : SpongeBytes) : Lanes :=
  lanesOf fun x y => BitVec.ofNat 64 (ule (laneBytes S x y))

/-- Byte i of S belongs to lane (x = (i/8) mod 5, y = (i/8)/5) at byte position i mod 8 (spec/10_state.md R35). -/
def byteOfLanes (A : Lanes) (i : Fin 200) : Byte :=
  (lane A ⟨i.val / 8 % 5, by omega⟩ ⟨i.val / 8 / 5, by omega⟩).extractLsb' (8 * (i.val % 8)) 8

/-- bytes(A), the inverse of the lane map (R137). -/
def bytesOfLanes (A : Lanes) : SpongeBytes := Vector.ofFn (byteOfLanes A)

/-- F(S) = bytes of the 24 rounds on lanes(S) (R137). -/
def keccakF (S : SpongeBytes) : SpongeBytes := bytesOfLanes (keccakRounds (lanesOfBytes S))

end Sys2Proof.Machine
end

