-- ==== Sys2Proof/Machine/Permutation.lean ====
section
/-! DEFINITION. The commands of the permutation unit: SPERM, SLD and SST (spec/40_keccak_permutation.md R142 to R144). -/

namespace Sys2Proof.Machine

/-- S with its bytes taken from a function of the index. -/
def spongeOf (f : Nat → Byte) : SpongeBytes := Vector.ofFn fun i => f i.val

/-- SPERM: S <- F(S). RATE is not read (R142). -/
def execSperm (s : State) : Host.Outcome State Fault Refusal :=
  .next (s.setSponge (keccakF s.sponge)).finish

/-- SLD: S[i] <- DBUF[i] for i in 0..199 (R143). -/
def execSld (s : State) : Host.Outcome State Fault Refusal :=
  .next (s.setSponge (spongeOf s.dbufByte)).finish

/-- SST: DBUF[i] <- S[i] for i in 0..199 (R144). -/
def execSst (s : State) : Host.Outcome State Fault Refusal :=
  .next (s.setDbuf 0 s.sponge.toList).finish

end Sys2Proof.Machine
end

