-- ==== Sys2Proof/Machine/Sponge.lean ====
section
/-! DEFINITION. The padding rule and the commands of the sponge unit: SINIT, SABS, SFIN and SSQZ (spec/41_sponge.md R170,
R180 to R184). -/

namespace Sys2Proof.Machine

/-- s ‖ 0^(q−1) with its last byte XORed with 0x80: the q padding bytes of R170, for q ≥ 1. When q = 1 the two land on
one byte (R173). -/
def padding (q : Nat) (s : Byte) : List Byte :=
  let P := s :: List.replicate (q - 1) 0
  P.set (q - 1) (P.getD (q - 1) 0 ^^^ 0x80)

/-- pad10x1(m, 8·R, s) for a nonzero suffix s (R170). -/
def pad10x1 (m : List Byte) (R : Nat) (s : Byte) : List Byte :=
  m ++ padding (R - m.length % R) s

/-- padblock: the tail bytes, then the padding that fills the block (R182). -/
def padblock (tail : List Byte) (R : Nat) (s : Byte) : List Byte :=
  tail ++ padding (R - tail.length) s

/-- S[i] <- S[i] ⊕ B[i] for the bytes of a block; the bytes past it stay (R181, R183). -/
def xorBlock (S : SpongeBytes) (B : List Byte) : SpongeBytes :=
  Vector.ofFn fun i => S[i.val] ^^^ B.getD i.val 0

/-- XOR a block into S, then apply F (R175, R181, R183). -/
def absorbBlock (S : SpongeBytes) (B : List Byte) : SpongeBytes := keccakF (xorBlock S B)

/-- SINIT n: a fresh instance with rate n, or BadRate when n = 0 or n ≥ 200 (R180). -/
def execSinit (n : Nat) (s : State) : Host.Outcome State Fault Refusal :=
  if n < 1 ∨ 199 < n then .next (s.raise .badRate)
  else .next ((s.setSponge (spongeOf fun _ => 0)).setRate (BitVec.ofNat 8 n)).finish

/-- SABS: absorb DBUF[0..RATE−1] without padding, or NoRate (R181). -/
def execSabs (s : State) : Host.Outcome State Fault Refusal :=
  if s.rate = 0 then .next (s.raise .noRate)
  else .next (s.setSponge (absorbBlock s.sponge (s.dbufBytes s.rate.toNat))).finish

/-- SFIN n, s: absorb the padded last block, or NoRate, BadLength, InvalidSuffix in that order (R183). -/
def execSfin (n : Nat) (sx : Byte) (s : State) : Host.Outcome State Fault Refusal :=
  if s.rate = 0 then .next (s.raise .noRate)
  else if s.rate.toNat ≤ n then .next (s.raise .badLength)
  else if sx = 0 then .next (s.raise .invalidSuffix)
  else .next (s.setSponge (absorbBlock s.sponge (padblock (s.dbufBytes n) s.rate.toNat sx))).finish

/-- SSQZ: DBUF[0..RATE−1] <- S[0..RATE−1], then S <- F(S), or NoRate (R184). -/
def execSsqz (s : State) : Host.Outcome State Fault Refusal :=
  if s.rate = 0 then .next (s.raise .noRate)
  else .next ((s.setDbuf 0 (s.sponge.toList.take s.rate.toNat)).setSponge (keccakF s.sponge)).finish

end Sys2Proof.Machine
end

