-- ==== Sys2Proof/Machine/Dispatch.lean ====
section
/-! DEFINITION. The meaning of every command: one arm per constructor of Instr. -/

namespace Sys2Proof.Machine

def exec (i : Instr) (s : State) : Host.Outcome State Fault Refusal :=
  match i with
  | .sperm => Sys2Proof.Machine.execSperm s
  | .sld => Sys2Proof.Machine.execSld s
  | .sst => Sys2Proof.Machine.execSst s
  | .sinit n => Sys2Proof.Machine.execSinit n s
  | .sabs => Sys2Proof.Machine.execSabs s
  | .sfin n sx => Sys2Proof.Machine.execSfin n sx s
  | .ssqz => Sys2Proof.Machine.execSsqz s
  | .pldo d => Sys2Proof.Machine.execPldo d s
  | .pldg d => Sys2Proof.Machine.execPldg d s
  | .pld d n => Sys2Proof.Machine.execPld d n s
  | .pst a => Sys2Proof.Machine.execPst a s
  | .padd d a b => Sys2Proof.Machine.execPadd d a b s
  | .pdbl d a => Sys2Proof.Machine.execPdbl d a s
  | .pneg d a => Sys2Proof.Machine.execPneg d a s
  | .pmul d a => Sys2Proof.Machine.execPmul d a s
  | .kld n => Sys2Proof.Machine.execKld n s
  | .pdec d n lsb => Sys2Proof.Machine.execPdec d n lsb s

end Sys2Proof.Machine
end

