-- ==== Sys2Proof/Config.lean ====
section
/-! DEFINITION. What the platform fixes and what the spec leaves free: constants with no body, so that a claim holds
for every value of them. -/

namespace Sys2Proof

/-- Which 0x200-byte slot of the host's address space holds the window. A parameter of the platform
(spec/00_scope.md R9; log 8). -/
opaque Config.engineSlot : Nat

/-- ENGINE_BASE, the host byte address of MMIO offset 0, a multiple of 0x200 (spec/00_scope.md R9;
spec/92_eei_decisions.md, named parameters). -/
def Config.engineBase : Nat := 0x200 * Config.engineSlot

/-- FREE VALUE: whether the i-th read of RATE that meets an SINIT in flight returns the new RATE (true) or the old one
(spec/70_reset_and_hazards.md R372 leaves this to the implementation; spec/93_implementation_defined.md says a proof
holds for each; log 5). -/
opaque Config.rateReadSeesNew : Nat → Bool

end Sys2Proof
end

