-- ==== Sys2Proof/WellFormed.lean ====
section
/-! DEFINITION. Which commands can be written as a word: an operand fits its field. The other operands fit by their
types. -/

namespace Sys2Proof

/-- "An assembler rejects an operand that does not fit its field (n > 255, …)" (spec/30_encoding.md R107): N is 8 bits
(R101). A suffix byte, a register P0..P3 and a parity bit fit by their types.
A command with n above 255 is no word's (log 16). -/
def Instr.wellFormed : Instr → Bool
  | .sperm => true
  | .sld => true
  | .sst => true
  | .sinit n => decide (n ≤ 255)
  | .sabs => true
  | .sfin n _ => decide (n ≤ 255)
  | .ssqz => true
  | .pldo _ => true
  | .pldg _ => true
  | .pld _ n => decide (n ≤ 255)
  | .pst _ => true
  | .padd _ _ _ => true
  | .pdbl _ _ => true
  | .pneg _ _ => true
  | .pmul _ _ => true
  | .kld n => decide (n ≤ 255)
  | .pdec _ n _ => decide (n ≤ 255)

end Sys2Proof
end

