-- ==== Sys2Proof/Decode.lean ====
section
/-! DEFINITION. The command format, the decoder and the encoder (spec/30_encoding.md). Decoding is total: every 32-bit word
is a legal command or is rejected by the name of the check it fails (R104). -/

namespace Sys2Proof

/-! ### Fields -/

/-- The fields of a command word (R101). -/
structure Fields where
  opc : Byte
  n : Byte
  sx : Byte
  rd : BitVec 2
  ra : BitVec 2
  rb : BitVec 2
  z : BitVec 2
  deriving DecidableEq, Repr

/-- OPC = w[31:24], N = w[23:16], SX = w[15:8], RD = w[7:6], RA = w[5:4], RB = w[3:2], Z = w[1:0] (R101). -/
def fieldsOf (w : Word) : Fields where
  opc := w.extractLsb' 24 8
  n := w.extractLsb' 16 8
  sx := w.extractLsb' 8 8
  rd := w.extractLsb' 6 2
  ra := w.extractLsb' 4 2
  rb := w.extractLsb' 2 2
  z := w.extractLsb' 0 2

/-- The word with the given fields, `OOOOOOOO NNNNNNNN SSSSSSSS DDAABBZZ` (R101). -/
def wordOf (f : Fields) : Word :=
  f.opc ++ f.n ++ f.sx ++ f.rd ++ f.ra ++ f.rb ++ f.z

/-- The register a 2-bit field names (R102: 0..3 name PR0..PR3). -/
def PReg.ofBits (v : BitVec 2) : PReg :=
  match v.toNat with
  | 0 => .p0
  | 1 => .p1
  | 2 => .p2
  | _ => .p3

/-- The 2-bit field that names a register. -/
def PReg.bits : PReg → BitVec 2
  | .p0 => 0
  | .p1 => 1
  | .p2 => 2
  | .p3 => 3

/-! ### The opcode map -/

/-- The assigned opcodes (R103). -/
inductive Opcode where
  | sperm | sld | sst | sinit | sabs | sfin | ssqz
  | pldo | pldg | pld | pst | padd | pdbl | pneg | pmul | kld | pdec
  deriving DecidableEq, Repr

/-- The OPC column of R103. Every other value is reserved (R105). -/
def Opcode.ofByte (b : Byte) : Option Opcode :=
  match b.toNat with
  | 0x01 => some .sperm
  | 0x02 => some .sld
  | 0x03 => some .sst
  | 0x10 => some .sinit
  | 0x11 => some .sabs
  | 0x12 => some .sfin
  | 0x13 => some .ssqz
  | 0x20 => some .pldo
  | 0x21 => some .pldg
  | 0x22 => some .pld
  | 0x23 => some .pst
  | 0x24 => some .padd
  | 0x25 => some .pdbl
  | 0x26 => some .pneg
  | 0x27 => some .pmul
  | 0x28 => some .kld
  | 0x29 => some .pdec
  | _ => none

/-- The OPC column of R103, read the other way. -/
def Opcode.byte : Opcode → Byte
  | .sperm => 0x01
  | .sld => 0x02
  | .sst => 0x03
  | .sinit => 0x10
  | .sabs => 0x11
  | .sfin => 0x12
  | .ssqz => 0x13
  | .pldo => 0x20
  | .pldg => 0x21
  | .pld => 0x22
  | .pst => 0x23
  | .padd => 0x24
  | .pdbl => 0x25
  | .pneg => 0x26
  | .pmul => 0x27
  | .kld => 0x28
  | .pdec => 0x29

/-- Which fields are operands of an opcode: the `U` entries of R103. The others must be zero. -/
structure FieldUse where
  n : Bool := false
  sx : Bool := false
  rd : Bool := false
  ra : Bool := false
  rb : Bool := false
  deriving DecidableEq, Repr

/-- The `U` and `0` entries of R103. -/
def Opcode.uses : Opcode → FieldUse
  | .sperm => {}
  | .sld => {}
  | .sst => {}
  | .sinit => { n := true }
  | .sabs => {}
  | .sfin => { n := true, sx := true }
  | .ssqz => {}
  | .pldo => { rd := true }
  | .pldg => { rd := true }
  | .pld => { n := true, rd := true }
  | .pst => { ra := true }
  | .padd => { rd := true, ra := true, rb := true }
  | .pdbl => { rd := true, ra := true }
  | .pneg => { rd := true, ra := true }
  | .pmul => { rd := true, ra := true }
  | .kld => { n := true }
  | .pdec => { n := true, sx := true, rd := true }

/-! ### The decoder -/

/-- A field that some opcodes require to be zero (R103). -/
inductive FieldName where
  | n | sx | rd | ra | rb
  deriving DecidableEq, Repr

/-- Why a word is illegal (R104, R105). Every one of these ends the command with IllegalCommand. -/
inductive DecodeReject where
  /-- OPC is not one of the 17 assigned values (R104 (1), R105). -/
  | reservedOpcode
  /-- A field marked `0` for the opcode is nonzero (R104 (2)). -/
  | nonzeroField (f : FieldName)
  /-- The reserved bits 1:0 are nonzero (R104 (2)). -/
  | nonzeroReserved
  /-- PDEC with SX > 1 (R104 (3)). -/
  | parityOutOfRange
  deriving DecidableEq, Repr

/-- The command of an opcode with the operands of R102. -/
def Opcode.instr (o : Opcode) (f : Fields) : Instr :=
  match o with
  | .sperm => .sperm
  | .sld => .sld
  | .sst => .sst
  | .sinit => .sinit f.n.toNat
  | .sabs => .sabs
  | .sfin => .sfin f.n.toNat f.sx
  | .ssqz => .ssqz
  | .pldo => .pldo (.ofBits f.rd)
  | .pldg => .pldg (.ofBits f.rd)
  | .pld => .pld (.ofBits f.rd) f.n.toNat
  | .pst => .pst (.ofBits f.ra)
  | .padd => .padd (.ofBits f.rd) (.ofBits f.ra) (.ofBits f.rb)
  | .pdbl => .pdbl (.ofBits f.rd) (.ofBits f.ra)
  | .pneg => .pneg (.ofBits f.rd) (.ofBits f.ra)
  | .pmul => .pmul (.ofBits f.rd) (.ofBits f.ra)
  | .kld => .kld f.n.toNat
  | .pdec => .pdec (.ofBits f.rd) f.n.toNat (f.sx.getLsbD 0)

/-- The checks of R104 on the fields of a word, in the order of its pseudocode. -/
def decodeFields (f : Fields) : Except DecodeReject Instr :=
  match Opcode.ofByte f.opc with
  | none => .error .reservedOpcode
  | some o =>
    if !o.uses.n && f.n != 0 then .error (.nonzeroField .n)
    else if !o.uses.sx && f.sx != 0 then .error (.nonzeroField .sx)
    else if !o.uses.rd && f.rd != 0 then .error (.nonzeroField .rd)
    else if !o.uses.ra && f.ra != 0 then .error (.nonzeroField .ra)
    else if !o.uses.rb && f.rb != 0 then .error (.nonzeroField .rb)
    else if f.z != 0 then .error .nonzeroReserved
    else if o == .pdec && decide (1 < f.sx.toNat) then .error .parityOutOfRange
    else .ok (o.instr f)

/-- `decode(w)` of R104: a legal command, or the name of the first check the word fails. -/
def decode (w : Word) : Except DecodeReject Instr := decodeFields (fieldsOf w)

/-! ### The encoder -/

/-- The opcode of a command (R103). -/
def Instr.opcode : Instr → Opcode
  | .sperm => .sperm
  | .sld => .sld
  | .sst => .sst
  | .sinit _ => .sinit
  | .sabs => .sabs
  | .sfin _ _ => .sfin
  | .ssqz => .ssqz
  | .pldo _ => .pldo
  | .pldg _ => .pldg
  | .pld _ _ => .pld
  | .pst _ => .pst
  | .padd _ _ _ => .padd
  | .pdbl _ _ => .pdbl
  | .pneg _ _ => .pneg
  | .pmul _ _ => .pmul
  | .kld _ => .kld
  | .pdec _ _ _ => .pdec

/-- A word of the given opcode with every other field zero. -/
def bareFields (o : Opcode) : Fields := ⟨o.byte, 0, 0, 0, 0, 0, 0⟩

/-- The fields of a command's word, the `word` column of R107. -/
def encodeFields : Instr → Fields
  | .sperm => bareFields .sperm
  | .sld => bareFields .sld
  | .sst => bareFields .sst
  | .sinit n => { bareFields .sinit with n := BitVec.ofNat 8 n }
  | .sabs => bareFields .sabs
  | .sfin n s => { bareFields .sfin with n := BitVec.ofNat 8 n, sx := s }
  | .ssqz => bareFields .ssqz
  | .pldo d => { bareFields .pldo with rd := d.bits }
  | .pldg d => { bareFields .pldg with rd := d.bits }
  | .pld d n => { bareFields .pld with n := BitVec.ofNat 8 n, rd := d.bits }
  | .pst a => { bareFields .pst with ra := a.bits }
  | .padd d a b => { bareFields .padd with rd := d.bits, ra := a.bits, rb := b.bits }
  | .pdbl d a => { bareFields .pdbl with rd := d.bits, ra := a.bits }
  | .pneg d a => { bareFields .pneg with rd := d.bits, ra := a.bits }
  | .pmul d a => { bareFields .pmul with rd := d.bits, ra := a.bits }
  | .kld n => { bareFields .kld with n := BitVec.ofNat 8 n }
  | .pdec d n lsb => { bareFields .pdec with n := BitVec.ofNat 8 n, sx := if lsb then 1 else 0, rd := d.bits }

/-- The word of a command (R107). -/
def encode (i : Instr) : Word := wordOf (encodeFields i)

/-! ### The opcode table as masks, and the host's entry point -/

/-- One row of spec/opcode_table.json: a word is an instance of the row when `w &&& mask = pattern`. -/
structure OpcodeRow where
  op : Opcode
  pattern : Word
  mask : Word
  deriving DecidableEq, Repr

/-- The `match` and `mask` columns of spec/opcode_table.json. -/
def opcodeRows : List OpcodeRow :=
  [⟨.sperm, 0x01000000, 0xFFFFFFFF⟩, ⟨.sld, 0x02000000, 0xFFFFFFFF⟩, ⟨.sst, 0x03000000, 0xFFFFFFFF⟩,
   ⟨.sinit, 0x10000000, 0xFF00FFFF⟩, ⟨.sabs, 0x11000000, 0xFFFFFFFF⟩, ⟨.sfin, 0x12000000, 0xFF0000FF⟩,
   ⟨.ssqz, 0x13000000, 0xFFFFFFFF⟩] ++
  [⟨.pldo, 0x20000000, 0xFFFFFF3F⟩, ⟨.pldg, 0x21000000, 0xFFFFFF3F⟩, ⟨.pld, 0x22000000, 0xFF00FF3F⟩,
   ⟨.pst, 0x23000000, 0xFFFFFFCF⟩, ⟨.padd, 0x24000000, 0xFFFFFF03⟩, ⟨.pdbl, 0x25000000, 0xFFFFFF0F⟩,
   ⟨.pneg, 0x26000000, 0xFFFFFF0F⟩, ⟨.pmul, 0x27000000, 0xFFFFFF0F⟩, ⟨.kld, 0x28000000, 0xFF00FFFF⟩,
   ⟨.pdec, 0x29000000, 0xFF00FE3F⟩]

/-- The command the decoder reads from a table row's word of `nbits` bits (the host's entry point). A command is one
32-bit word (R100, R106), so the bits above `nbits` are zero. -/
def decodeTableWord (nbits w : Nat) : Option Instr :=
  (decode (BitVec.ofNat 32 (w % 2 ^ nbits))).toOption

end Sys2Proof
end

