-- ==== Sys2Proof/Machine/HostBus.lean ====
section
/-! DEFINITION. The MMIO window: which accesses of the host the engine accepts and what each does (spec/20_memory.md,
spec/10_state.md R37, R38, R41 to R45, spec/60_exceptions.md R330, spec/70_reset_and_hazards.md R370, R372). -/

namespace Sys2Proof.Machine

/-! ### The map -/

/-- Offsets of the registers (spec/20_memory.md R71). -/
def offCmd : Nat := 0x000
def offStatus : Nat := 0x004
def offCtrl : Nat := 0x008
def offRate : Nat := 0x00C
def offId : Nat := 0x010

/-- The ID register, "K521" (spec/10_state.md R44). -/
def idWord : Word := 0x4B353231

/-- Which accesses the engine accepts (spec/20_memory.md R72). Every other one is a bus error. -/
def Access.accepted (a : Access) : Bool :=
  if a.off.val < dbufBase then
    decide (a.bits = 32 ∧ a.off.val % 4 = 0)
  else
    decide (a.bits = 8 ∨ (a.bits = 16 ∧ a.off.val % 2 = 0) ∨ (a.bits = 32 ∧ a.off.val % 4 = 0))

/-- The access to the window that a host access at a byte address is, if the address is in the window
(spec/20_memory.md R70: offset o is host address ENGINE_BASE + o). Other addresses are not the engine's (R71; log 8). -/
def accessAt (addr bits : Nat) (op : BusOp) : Option Access :=
  if h : Config.engineBase ≤ addr ∧ addr < Config.engineBase + 0x200 then
    some ⟨⟨addr - Config.engineBase, by omega⟩, bits, op⟩
  else none

/-! ### Register reads -/

/-- The RATE an SINIT in flight is about to write, if one is in flight and will not end with BadRate
(spec/70_reset_and_hazards.md R372). -/
def State.pendingRate (s : State) : Option Byte :=
  match s.cmdl with
  | none => none
  | some w =>
    match decode w with
    | .ok (.sinit n) => if n < 1 ∨ 199 < n then none else some (BitVec.ofNat 8 n)
    | _ => none

/-- What a read of RATE returns: the rate, or, while an SINIT is in flight, the old or the new rate as a free value says
(spec/70_reset_and_hazards.md R372; log 5). -/
def State.readRate (s : State) : Byte :=
  match s.pendingRate with
  | none => s.rate
  | some n => if Config.rateReadSeesNew s.freeIdx then n else s.rate

/-- What a 32-bit read of a register offset returns (spec/10_state.md R37, R41 to R45). -/
def State.registerWord (s : State) (off : Nat) : Word :=
  if off = offStatus then s.statusWord
  else if off = offRate then s.readRate.setWidth 32
  else if off = offId then idWord
  else 0

/-- The bus returns a value to the host (log 7). -/
def State.reply (s : State) (v : Word) : State := { s with replies := s.replies ++ [v] }

/-- A RATE read that drew a free value moves the model's counter, so that the next one draws a fresh value (log 5). -/
def State.drawn (s : State) (off : Nat) : State :=
  if off = offRate ∧ s.pendingRate.isSome then { s with freeIdx := s.freeIdx + 1 } else s

/-- A 32-bit read of a register offset. It has no side effect on the engine (spec/20_memory.md R76). -/
def State.readRegister (s : State) (off : Nat) : State := (s.drawn off).reply (s.registerWord off)

/-! ### Register writes -/

/-- A CTRL write: SRST is bit 1 and wins over CLR, bit 0; the other bits are ignored (spec/10_state.md R43). -/
def State.control (s : State) (v : Word) : State :=
  if v.getLsbD 1 then s.resetEngine else if v.getLsbD 0 then s.clearErrors else s

/-- A 32-bit write of a register offset. Writes to STATUS, RATE, ID and reserved offsets are ignored
(spec/10_state.md R41 to R45, spec/20_memory.md R76). -/
def State.writeRegister (s : State) (off : Nat) (v : Word) : State :=
  if off = offCmd then s.submit v
  else if off = offCtrl then s.control v
  else s

/-! ### DBUF accesses -/

/-- The bus value of a read of `n` bytes at DBUF[i]: little-endian, DBUF[i] in bits 7:0 (spec/20_memory.md R73). -/
def State.dbufWord (s : State) (i n : Nat) : Word := BitVec.ofNat 32 (ule (s.dbufSlice i n))

/-- The `n` bytes that a write of v stores, the lowest offset first: v[8j+7:8j] for j < n (spec/20_memory.md R73). -/
def busBytes (v : Word) (n : Nat) : List Byte := (List.range n).map fun j => v.extractLsb' (8 * j) 8

/-! ### One access -/

/-- What an accepted access to a register offset does. -/
def registerAccess (off : Nat) (op : BusOp) (s : State) : State :=
  match op with
  | .read => s.readRegister off
  | .write v => s.writeRegister off v

/-- What an accepted access to `n` bytes at DBUF[i] does while BUSY = 0 (spec/10_state.md R38). -/
def dbufAccess (i n : Nat) (op : BusOp) (s : State) : State :=
  match op with
  | .read => s.reply (s.dbufWord i n)
  | .write v => s.setDbuf i (busBytes v n)

/-- One access of the host: a bus error when the engine does not accept it (spec/20_memory.md R72), a hazard when it
touches DBUF while BUSY = 1 (spec/70_reset_and_hazards.md R370), else its effect. An access that is both is reported as
the bus error (log 6). -/
def hostAccess (a : Access) (s : State) : Host.Outcome State Fault Refusal :=
  if a.accepted = false then .fault .busError
  else if a.off.val < dbufBase then .next (registerAccess a.off.val a.op s)
  else if s.busy then .fault .hostHazard
  else .next (dbufAccess (a.off.val - dbufBase) (a.bits / 8) a.op s)

end Sys2Proof.Machine
end

