-- ==== Sys2Proof/Machine/Engine.lean ====
section
/-! DEFINITION. The engine's own step (spec/60_exceptions.md R331) and one turn of an agent (spec/10_state.md R30). -/

namespace Sys2Proof.Machine

/-- Execute the word in CMDL: the command it decodes to, or IllegalCommand (spec/60_exceptions.md R331,
spec/30_encoding.md R104). -/
def runWord (w : Word) (s : State) : Host.Outcome State Fault Refusal :=
  match decode w with
  | .ok i => exec i s
  | .error _ => .next (s.raise .illegalCommand)

/-- The engine's step, enabled exactly when BUSY = 1 (spec/60_exceptions.md R331). With BUSY = 0 the engine is idle and
holds its state (spec/60_exceptions.md R342; log 4). -/
def engineStep (s : State) : Host.Outcome State Fault Refusal :=
  match s.cmdl with
  | some w => runWord w s
  | none => .next s

/-- One turn: the engine's step, an access of the host, or power-on reset (spec/70_reset_and_hazards.md R360). -/
def runTurn (t : Turn) (s : State) : Host.Outcome State Fault Refusal :=
  match t with
  | .engine => engineStep s
  | .host a => hostAccess a s
  | .powerOn => .next s.resetEngine

/-- The turns of a list, in order, up to the first fault or refusal. -/
def runTurns : List Turn → State → Host.Outcome State Fault Refusal
  | [], s => .next s
  | t :: ts, s =>
    match runTurn t s with
    | .next s' => runTurns ts s'
    | .fault r => .fault r
    | .refused r => .refused r

end Sys2Proof.Machine
end

