-- ==== Sys2Proof/Machine/Step.lean ====
section
/-! DEFINITION. One step of the whole machine, and the host's entry point for running one command. -/

namespace Sys2Proof.Machine

/-- One step: the next turn of the list; when none is left, the engine's step (a command in flight always ends,
spec/70_reset_and_hazards.md R375; log 1). -/
def step (s : State) : Host.Outcome State Fault Refusal :=
  match s.turns with
  | [] => engineStep s
  | t :: ts => runTurn t { s with turns := ts }

/-- `s` with the command word `w` of `nbits` bits latched in CMDL, where the engine's step takes its next command
(spec/10_state.md R46), and with the next turn the engine's. It stands for a CMD write the engine accepted (log 2). -/
def State.withFetchWord (s : State) (nbits w : Nat) : State :=
  { s with cmdl := some (BitVec.ofNat 32 (w % 2 ^ nbits)), turns := .engine :: s.turns }

end Sys2Proof.Machine
end

