-- ==== Sys2Proof/Machine/HashFunctions.lean ====
section
/-! DEFINITION. The source's sponge operations and hash functions as functions of byte strings: what the host sequences of
Machine/HostProcedures.lean compute (spec/41_sponge.md R170 to R190, spec/42_host_hash_procedures.md R220 to R228). -/

namespace Sys2Proof.Machine

/-! ### Padding and the sponge (spec/41_sponge.md) -/

/-- pad10x1 "Fails with `InvalidSuffix` if `s == 0`" (R172); otherwise R170. -/
def pad10x1Checked (m : List Byte) (R : Nat) (s : Byte) : Except ErrCode (List Byte) :=
  if s = 0 then .error .invalidSuffix else .ok (pad10x1 m R s)

/-- The first k blocks of R bytes of a byte string. -/
def blocksOf (R k : Nat) (m : List Byte) : List (List Byte) :=
  (List.range k).map fun j => (m.drop (j * R)).take R

/-- XOR each block into the state and apply F after each one (R175). -/
def absorbBlocks (S : SpongeBytes) (Bs : List (List Byte)) : SpongeBytes := Bs.foldl absorbBlock S

/-- absorb_all(m): pad, then absorb every block (R175). -/
def absorbAll (S : SpongeBytes) (R : Nat) (m : List Byte) (s : Byte) : Except ErrCode SpongeBytes :=
  (pad10x1Checked m R s).map fun P => absorbBlocks S (blocksOf R (P.length / R) P)

/-- The output of squeeze(): the first R bytes of the state, before F (R176). -/
def ratePart (S : SpongeBytes) (R : Nat) : List Byte := S.toList.take R

/-- k squeezes: the outputs joined, and the state after them (R176). -/
def squeezeBlocks (R : Nat) : (k : Nat) → SpongeBytes → List Byte × SpongeBytes
  | 0, S => ([], S)
  | k + 1, S =>
    let (out, S') := squeezeBlocks R k (keccakF S)
    (ratePart S R ++ out, S')

/-- The number of blocks of R bytes that cover L bytes: ceil(L / R) (R186). -/
def blockCount (L R : Nat) : Nat := (L + R - 1) / R

/-- L bytes of output: squeeze until at least L bytes have been collected, then truncate (R186). -/
def squeezeBytes (S : SpongeBytes) (R L : Nat) : List Byte := (squeezeBlocks R (blockCount L R) S).1.take L

/-- duplex_absorb(block) (R177): the bytes it returns and the state it leaves. -/
def duplexAbsorb (S : SpongeBytes) (R : Nat) (s : Byte) (block : Option (List Byte)) :
    Except ErrCode (List Byte × SpongeBytes) :=
  match block with
  | none => .ok (ratePart S R, keccakF S)
  | some m =>
    if m.length ≠ 0 ∧ m.length % R = 0 then
      let S' := absorbBlocks S (blocksOf R (m.length / R) m)
      .ok (ratePart S' R, S')
    else (absorbAll S R m s).map fun S' => (ratePart S' R, S')

/-- The zeroed state of a fresh instance (R174, R180). -/
def freshSponge : SpongeBytes := spongeOf fun _ => 0

/-- The rate in bytes for a capacity of c bits: (1600 − c)/8 (R190). -/
def rateOfCapacity (c : Nat) : Nat := (1600 - c) / 8

/-- The first L bytes of a fresh sponge of capacity c after absorbing m with suffix s. -/
def spongeHash (c : Nat) (s : Byte) (m : List Byte) (L : Nat) : Except ErrCode (List Byte) :=
  (absorbAll freshSponge (rateOfCapacity c) m s).map fun S => squeezeBytes S (rateOfCapacity c) L

/-- SHA3-d(m): capacity 2d, suffix 0x06, d/8 bytes (R188). -/
def sha3 (d : Nat) (m : List Byte) : Except ErrCode (List Byte) := spongeHash (2 * d) 0x06 m (d / 8)

/-- SHAKE-k(m, L): capacity 2k, suffix 0x1F, L bytes (R189). -/
def shake (k : Nat) (m : List Byte) (L : Nat) : Except ErrCode (List Byte) := spongeHash (2 * k) 0x1F m L

/-! ### The NIST encodings (spec/42_host_hash_procedures.md) -/

/-- left_encode(n), refused for n ≥ 2^2040 (R220, R224). -/
def leftEncode (n : Nat) : Except Refusal (List Byte) :=
  if 2 ^ 2040 ≤ n then .error .encodingTooLarge
  else if n = 0 then .ok [0x01, 0x00]
  else .ok (BitVec.ofNat 8 (minbe n).length :: minbe n)

/-- right_encode(n), refused for n ≥ 2^2040 (R221, R224). -/
def rightEncode (n : Nat) : Except Refusal (List Byte) :=
  if 2 ^ 2040 ≤ n then .error .encodingTooLarge
  else if n = 0 then .ok [0x00, 0x01]
  else .ok (minbe n ++ [BitVec.ofNat 8 (minbe n).length])

/-- encode_string(s) = left_encode(8·len(s)) ‖ s (R222). -/
def encodeString (s : List Byte) : Except Refusal (List Byte) :=
  (leftEncode (8 * s.length)).map fun l => l ++ s

/-- The zeros that fill a byte string up to a multiple of w bytes. -/
def zeroFill (w : Nat) (z : List Byte) : List Byte := z ++ List.replicate ((w - z.length % w) % w) 0

/-- bytepad(x, w) for w ≥ 1; w = 0 is refused (R223). -/
def bytepad (x : List Byte) (w : Nat) : Except Refusal (List Byte) :=
  if w = 0 then .error .bytepadZeroWidth
  else (leftEncode w).map fun l => zeroFill w (l ++ x)

/-- The bytes cSHAKE absorbs when N or S is not empty: bytepad(encode_string(N) ‖ encode_string(S), R) ‖ m (R225). -/
def cshakeInput (R : Nat) (m N S : List Byte) : Except Refusal (List Byte) :=
  match encodeString N, encodeString S with
  | .ok en, .ok es => (bytepad (en ++ es) R).map fun b => b ++ m
  | .error e, _ => .error e
  | _, .error e => .error e

/-- The suffix and the input of cSHAKE-k: SHAKE's when N and S are both empty, else 0x04 and the prefixed input (R225). -/
def cshakePlan (R : Nat) (m N S : List Byte) : Except Refusal (Byte × List Byte) :=
  if N = [] ∧ S = [] then .ok (0x1F, m) else (cshakeInput R m N S).map fun x => (0x04, x)

/-- "KMAC" as bytes (R226). -/
def kmacName : List Byte := [0x4B, 0x4D, 0x41, 0x43]

/-- KMACXOF's newX = bytepad(encode_string(K), R) ‖ m ‖ right_encode(0) (R226, R227). -/
def kmacInput (R : Nat) (K m : List Byte) : Except Refusal (List Byte) :=
  match encodeString K, rightEncode 0 with
  | .ok ek, .ok r => (bytepad ek R).map fun b => b ++ m ++ r
  | .error e, _ => .error e
  | _, .error e => .error e

/-- The suffix and the input of KMACXOF-k(K, m, L, S) = cSHAKE-k(newX, L, "KMAC", S) (R226). -/
def kmacxofPlan (R : Nat) (K m S : List Byte) : Except Refusal (Byte × List Byte) :=
  match kmacInput R K m with
  | .ok x => cshakePlan R x kmacName S
  | .error e => .error e

/-- cSHAKE-k(m, L, N, S) (R225). -/
def cshake (k : Nat) (m : List Byte) (L : Nat) (N S : List Byte) : Except Refusal (Except ErrCode (List Byte)) :=
  (cshakePlan (rateOfCapacity (2 * k)) m N S).map fun p => spongeHash (2 * k) p.1 p.2 L

/-- KMACXOF-k(K, m, L, S) (R226). -/
def kmacxof (k : Nat) (K m : List Byte) (L : Nat) (S : List Byte) : Except Refusal (Except ErrCode (List Byte)) :=
  (kmacxofPlan (rateOfCapacity (2 * k)) K m S).map fun p => spongeHash (2 * k) p.1 p.2 L

end Sys2Proof.Machine
end

