-- ==== Sys2Proof/Machine/HostProcedures.lean ====
section
/-! DEFINITION. The spec's host sequences as turn lists: the notation of spec/30_encoding.md R109, the pseudo-commands of
R108, and the sequences of spec/41_sponge.md R185 to R189 and spec/42_host_hash_procedures.md R225, R226. A sequence is what
the host issues, with the engine's step where the host's polling loop waits for it. The number of polls is free for each `cmd`; the longer sequences use one number
for all their commands (log 19). -/

namespace Sys2Proof.Machine

/-! ### Host accesses (R109) -/

/-- `wr32 off, v`. -/
def wr32 (off : Fin 0x200) (v : Word) : Turn := .host ⟨off, 32, .write v⟩

/-- `rd32 off`. -/
def rd32 (off : Fin 0x200) : Turn := .host ⟨off, 32, .read⟩

/-- The window offset of DBUF[i], for i < 256 (spec/10_state.md R38). -/
def dbufOff (i : Nat) : Fin 0x200 := ⟨(0x100 + i) % 0x200, by omega⟩

/-- `wbuf i, bytes`: host byte writes DBUF[i..] <- bytes. -/
def wbuf : Nat → List Byte → List Turn
  | _, [] => []
  | i, b :: bs => .host ⟨dbufOff i, 8, .write (b.setWidth 32)⟩ :: wbuf (i + 1) bs

/-- `rbuf i, n`: the host reads DBUF[i..i+n−1], byte by byte. -/
def rbuf (i n : Nat) : List Turn := (List.range n).map fun j => .host ⟨dbufOff (i + j), 8, .read⟩

/-- `ctrl v`: the host writes v to CTRL. -/
def ctrl (v : Word) : Turn := wr32 0x008 v

/-- `cmd <command>`: a CMD write, `polls` STATUS reads that return BUSY = 1, the engine's step, and the STATUS read that
ends the polling loop (spec/70_reset_and_hazards.md R373). -/
def cmd (polls : Nat) (i : Instr) : List Turn :=
  wr32 0x000 (encode i) :: (List.replicate polls (rd32 0x004) ++ [.engine, rd32 0x004])

/-! ### Pseudo-commands (R108) -/

/-- `PLD Pd` is `PLD Pd, 132`. -/
def pseudoPld (d : PReg) : List Instr := [.pld d 132]

/-- `PDEC Pd, lsb` is `PDEC Pd, 66, lsb`. -/
def pseudoPdec (d : PReg) (lsb : Bool) : List Instr := [.pdec d 66 lsb]

/-- `PMOV Pd, Pa` is `PNEG Pd, Pa ; PNEG Pd, Pd`. -/
def pseudoPmov (d a : PReg) : List Instr := [.pneg d a, .pneg d d]

/-- `PSUB Pd, Pa, Pb` is `PNEG Pd, Pb ; PADD Pd, Pa, Pd`, for d ≠ a. -/
def pseudoPsub (d a b : PReg) : List Instr := [.pneg d b, .padd d a d]

/-- `SHASH n, s` is `SFIN n, s ; SSQZ`. -/
def pseudoShash (n : Nat) (s : Byte) : List Instr := [.sfin n s, .ssqz]

/-- Commands executed one after the other, up to the first fault or refusal. -/
def execAll : List Instr → State → Host.Outcome State Fault Refusal
  | [], s => .next s
  | i :: is, s =>
    match exec i s with
    | .next s' => execAll is s'
    | .fault r => .fault r
    | .refused r => .refused r

/-! ### Sponge sequences (spec/41_sponge.md) -/

/-- Each block is written to DBUF and absorbed by SABS. -/
def absorbBlockTurns (polls : Nat) : List (List Byte) → List Turn
  | [] => []
  | B :: Bs => wbuf 0 B ++ cmd polls .sabs ++ absorbBlockTurns polls Bs

/-- ABSORB(m, s) on a sponge of rate R: the full blocks by SABS, then the tail by SFIN (R185). One number of polls for all
its commands: the model's choice (log 19). -/
def absorbTurns (polls R : Nat) (m : List Byte) (s : Byte) : List Turn :=
  absorbBlockTurns polls (blocksOf R (m.length / R) m) ++
    wbuf 0 (m.drop (m.length / R * R)) ++ cmd polls (.sfin (m.length % R) s)

/-- k times SSQZ and a read of the squeezed block. -/
def squeezeBlockTurns (polls R : Nat) : Nat → List Turn
  | 0 => []
  | k + 1 => cmd polls .ssqz ++ rbuf 0 R ++ squeezeBlockTurns polls R k

/-- SQUEEZE(L): ceil(L / R) squeezes; the host keeps the first L bytes (R186). One number of polls for all its commands:
the model's choice (log 19). -/
def squeezeTurns (polls R L : Nat) : List Turn := squeezeBlockTurns polls R (blockCount L R)

/-- duplex_absorb with suffix s (R187). One number of polls for all its commands: the model's choice (log 19). -/
def duplexTurns (polls R : Nat) (s : Byte) (block : Option (List Byte)) : List Turn :=
  match block with
  | none => cmd polls .ssqz ++ rbuf 0 R
  | some m =>
    if m.length ≠ 0 ∧ m.length % R = 0 then
      absorbBlockTurns polls (blocksOf R (m.length / R) m) ++ cmd polls .sst ++ rbuf 0 R
    else absorbTurns polls R m s ++ cmd polls .sst ++ rbuf 0 R

/-- SINIT, ABSORB and SQUEEZE: the shape of every hash function of the spec. One number of polls for all its commands: the
model's choice (log 19). -/
def hashTurns (polls R : Nat) (s : Byte) (m : List Byte) (L : Nat) : List Turn :=
  cmd polls (.sinit R) ++ absorbTurns polls R m s ++ squeezeTurns polls R L

/-- SHA3-d(m) (R188): one squeeze, and a read of d/8 bytes. One number of polls for all its commands: the model's
choice (log 19). -/
def sha3Turns (polls d : Nat) (m : List Byte) : List Turn :=
  let R := rateOfCapacity (2 * d)
  cmd polls (.sinit R) ++ absorbTurns polls R m 0x06 ++ cmd polls .ssqz ++ rbuf 0 (d / 8)

/-- SHAKE-k(m, L) (R189). -/
def shakeTurns (polls k : Nat) (m : List Byte) (L : Nat) : List Turn :=
  hashTurns polls (rateOfCapacity (2 * k)) 0x1F m L

/-- cSHAKE-k(m, L, N, S) (spec/42_host_hash_procedures.md R225). -/
def cshakeTurns (polls k : Nat) (m : List Byte) (L : Nat) (N S : List Byte) : Except Refusal (List Turn) :=
  (cshakePlan (rateOfCapacity (2 * k)) m N S).map fun p => hashTurns polls (rateOfCapacity (2 * k)) p.1 p.2 L

/-- KMACXOF-k(K, m, L, S) (spec/42_host_hash_procedures.md R226). -/
def kmacxofTurns (polls k : Nat) (K m : List Byte) (L : Nat) (S : List Byte) : Except Refusal (List Turn) :=
  (kmacxofPlan (rateOfCapacity (2 * k)) K m S).map fun p => hashTurns polls (rateOfCapacity (2 * k)) p.1 p.2 L

end Sys2Proof.Machine
end

