-- ==== Sys2Proof/Safety.lean ====
section
/-! DEFINITION. What a good state and a good run are, in the terms the claims use. -/

namespace Sys2Proof.Machine

/-- Every point register holds an on-curve point with coordinates in [0, p−1] (spec/10_state.md R39). -/
def PointRegs.valid (r : PointRegs) : Prop := ∀ d : PReg, (r.get d).valid = true

/-- The invariant of the machine. -/
structure Inv (s : State) : Prop where
  /-- DBUF is in canonical form. -/
  dbuf_wf : s.dbuf.wf
  /-- RATE never holds 200..255 (spec/10_state.md R37). -/
  rate_legal : s.rate.toNat ≤ 199
  /-- The point registers hold points of the curve (spec/10_state.md R39). -/
  points_valid : s.pr.valid
  /-- ERR never holds a reserved code (spec/60_exceptions.md R324). -/
  err_legal : legalErr s.err = true
  /-- A command is in flight only while ERR = 0 (spec/60_exceptions.md R334). -/
  busy_no_err : s.busy = true → s.err = 0

/-- A run is finished when BUSY = 0 and the host issues no further access (spec/70_reset_and_hazards.md R374). -/
def State.finished (s : State) : Bool := !s.busy && s.turns.isEmpty

/-- Every command of the sequence ran and succeeded, as the host sees it (spec/70_reset_and_hazards.md R380). -/
def State.clean (s : State) : Bool := s.err == 0 && !s.ovr

/-- A run of `n` steps is safe when it meets no model fault (spec/60_exceptions.md R335: a faulted run is never a good
final state). -/
def SafeRun (n : Nat) (s : State) : Prop := ∃ t, Sys2Proof.core.run n s = .next t

end Sys2Proof.Machine
end

