-- ==== Sys2Proof/Certificates/Slice0/Obligations.lean ====
section
/-! DEFINITION. The statements for the provers. The terms they share stand first, written from the spec and not from the
model's own functions where that is possible. -/

open Sys2Proof Sys2Proof.Machine

namespace Sys2Proof.Claims

/-! ### Terms of the encoding -/

/-- w[hi:lo] as a number (spec/00_scope.md R10). -/
def bits (w : Word) (hi lo : Nat) : Nat := w.toNat / 2 ^ lo % 2 ^ (hi + 1 - lo)

/-- One row of the opcode map: OPC, and whether N, SX, RD, RA, RB are operands. -/
structure MapRow where
  opc : Nat
  n : Bool
  sx : Bool
  rd : Bool
  ra : Bool
  rb : Bool

/-- The opcode map of spec/30_encoding.md R103, `U` as true and `0` as false. -/
def commandMap : List MapRow :=
  [⟨0x01, false, false, false, false, false⟩, ⟨0x02, false, false, false, false, false⟩,
   ⟨0x03, false, false, false, false, false⟩, ⟨0x10, true, false, false, false, false⟩,
   ⟨0x11, false, false, false, false, false⟩, ⟨0x12, true, true, false, false, false⟩,
   ⟨0x13, false, false, false, false, false⟩, ⟨0x20, false, false, true, false, false⟩,
   ⟨0x21, false, false, true, false, false⟩] ++
  [⟨0x22, true, false, true, false, false⟩, ⟨0x23, false, false, false, true, false⟩,
   ⟨0x24, false, false, true, true, true⟩, ⟨0x25, false, false, true, true, false⟩,
   ⟨0x26, false, false, true, true, false⟩, ⟨0x27, false, false, true, true, false⟩,
   ⟨0x28, true, false, false, false, false⟩, ⟨0x29, true, true, true, false, false⟩]

/-- The conditions (1) to (3) of spec/30_encoding.md R104. -/
def legalWord (w : Word) : Prop :=
  (∃ r ∈ commandMap, bits w 31 24 = r.opc ∧ (r.n = false → bits w 23 16 = 0) ∧ (r.sx = false → bits w 15 8 = 0) ∧
    (r.rd = false → bits w 7 6 = 0) ∧ (r.ra = false → bits w 5 4 = 0) ∧ (r.rb = false → bits w 3 2 = 0)) ∧
  bits w 1 0 = 0 ∧ (bits w 31 24 = 0x29 → bits w 15 8 ≤ 1)

/-- The number of a point register (spec/30_encoding.md R102). -/
def regNum : PReg → Nat
  | .p0 => 0
  | .p1 => 1
  | .p2 => 2
  | .p3 => 3

/-! ### Terms of the state -/

/-- DBUF[i] (spec/10_state.md R38), through the model's read of one byte. -/
def buf (s : State) (i : Nat) : Byte := s.dbuf.read (0x100 + i)

/-- The unsigned big-endian value of DBUF[i..i+n−1] (spec/00_scope.md R12). -/
def bufValue (s : State) (i n : Nat) : Nat := ∑ j ∈ Finset.range n, (buf s (i + j)).toNat * 256 ^ (n - 1 - j)

/-- Every byte of memory outside offsets 0x100 .. 0x100 + n − 1 is unchanged. -/
def bufSameFrom (n : Nat) (s t : State) : Prop :=
  ∀ a, a < 0x100 ∨ 0x100 + n ≤ a → t.dbuf.read a = s.dbuf.read a

/-- Nothing but DBUF[0..n−1] and the command latch (BUSY <- 0) changed. -/
def onlyBuf (n : Nat) (s t : State) : Prop := t = { s with dbuf := t.dbuf, cmdl := none } ∧ bufSameFrom n s t

/-- Nothing but PR[d] and the command latch (BUSY <- 0) changed. -/
def onlyPr (d : PReg) (s t : State) : Prop :=
  t = { s with pr := t.pr, cmdl := none } ∧ ∀ e, e ≠ d → t.pr.get e = s.pr.get e

/-- The state in which a command ended with an error code: ERR and BUSY, nothing else (spec/60_exceptions.md R326). -/
def failedWith (code : BitVec 4) (s : State) : State := { s with err := code, cmdl := none }

/-- The next step of the machine is the engine's: no turn is left, or the next one is the engine's (the turn list is log 1).
`ts` is what is left of the list after the step. -/
def engineNext (s : State) (ts : List Turn) : Prop := (s.turns = [] ∧ ts = []) ∨ s.turns = .engine :: ts

/-- A host read of the 32-bit register at an offset is the next turn. -/
def reads (s : State) (off : Fin 0x200) (ts : List Turn) : Prop := s.turns = .host ⟨off, 32, .read⟩ :: ts

/-- A host write of the 32-bit register at an offset is the next turn. -/
def writes (s : State) (off : Fin 0x200) (v : Word) (ts : List Turn) : Prop :=
  s.turns = .host ⟨off, 32, .write v⟩ :: ts

/-- Two states agree in every piece of engine state; the model's own fields may differ. -/
def sameEngine (s t : State) : Prop :=
  t.sponge = s.sponge ∧ t.rate = s.rate ∧ t.dbuf = s.dbuf ∧ t.pr = s.pr ∧ t.k = s.k ∧ t.err = s.err ∧ t.ovr = s.ovr ∧
    t.cmdl = s.cmdl

/-- The values of 10_state.md R49. -/
def engineAtReset (t : State) : Prop :=
  (∀ i (h : i < 200), t.sponge[i] = 0) ∧ t.rate = 0 ∧ (∀ i < 256, buf t i = 0) ∧ (∀ d, t.pr.get d = ⟨0, 1⟩) ∧ t.k = 0 ∧
    t.busy = false ∧ t.ovr = false ∧ t.err = 0 ∧ t.cmdl = none

/-- The accesses of 20_memory.md R72. -/
def acceptable (off bits : Nat) : Prop :=
  (off < 0x100 ∧ bits = 32 ∧ off % 4 = 0) ∨
    (0x100 ≤ off ∧ off < 0x200 ∧ (bits = 8 ∨ (bits = 16 ∧ off % 2 = 0) ∨ (bits = 32 ∧ off % 4 = 0)))

/-! ### Terms of the permutation -/

/-- The table of spec/40_keccak_permutation.md R140: RC[0] to RC[23]. -/
def roundTable : List Nat :=
  [0x0000000000000001, 0x0000000000008082, 0x800000000000808A, 0x8000000080008000, 0x000000000000808B,
   0x0000000080000001, 0x8000000080008081, 0x8000000000008009, 0x000000000000008A, 0x0000000000000088,
   0x0000000080008009, 0x000000008000000A] ++
  [0x000000008000808B, 0x800000000000008B, 0x8000000000008089, 0x8000000000008003, 0x8000000000008002,
   0x8000000000000080, 0x000000000000800A, 0x800000008000000A, 0x8000000080008081, 0x8000000000008080,
   0x0000000080000001, 0x8000000080008008]

/-- The table of spec/40_keccak_permutation.md R141, row y = 0 first, as it stands there. -/
def offsetTable : List (List Nat) :=
  [[0, 1, 62, 28, 27], [36, 44, 6, 55, 20], [3, 10, 43, 25, 39], [41, 45, 15, 21, 8], [18, 2, 61, 56, 14]]

/-! ### Terms of the sponge -/

/-- Byte i of padblock(tail, s) for a rate of R bytes (spec/41_sponge.md R182). -/
def padByte (tail : Nat → Byte) (n R : Nat) (s : Byte) (i : Nat) : Byte :=
  (if i < n then tail i else if i = n then s else 0) ^^^ (if i = R - 1 then 0x80 else 0)

/-- F applied k times. -/
def iterF : Nat → SpongeBytes → SpongeBytes
  | 0, S => S
  | k + 1, S => iterF k (keccakF S)

/-! ### Terms of the curve -/

/-- The curve equation with d = −376014 as an integer (spec/43_e521.md R254). -/
def onE521 (x y : Nat) : Prop :=
  ((x : Int) ^ 2 + (y : Int) ^ 2) % (2 ^ 521 - 1) = (1 + (-376014) * (x : Int) ^ 2 * (y : Int) ^ 2) % (2 ^ 521 - 1)

/-- A point as a register holds it (spec/10_state.md R39). -/
def isPoint (P : Point) : Prop := P.x < 2 ^ 521 - 1 ∧ P.y < 2 ^ 521 - 1 ∧ onE521 P.x P.y

/-- The addition law with its denominators multiplied out, and neither of them zero (spec/43_e521.md R261, R265). -/
def isSum (P Q R : Point) : Prop :=
  let t : Int := (-376014) * (P.x * Q.x) * (P.y * Q.y)
  (1 + t) % (2 ^ 521 - 1) ≠ 0 ∧ (1 - t) % (2 ^ 521 - 1) ≠ 0 ∧
    (R.x * (1 + t)) % (2 ^ 521 - 1) = ((P.x : Int) * Q.y + P.y * Q.x) % (2 ^ 521 - 1) ∧
    (R.y * (1 - t)) % (2 ^ 521 - 1) = ((P.y : Int) * Q.y - P.x * Q.x) % (2 ^ 521 - 1)

/-- k·P as repeated addition: 0·P = O and (k+1)·P = k·P + P. -/
def times (P : Point) : Nat → Option Point
  | 0 => some ⟨0, 1⟩
  | k + 1 => (times P k).bind fun Q => pointAdd Q P

/-! ### Terms of the commands -/

/-- The codes a command can end with, less IllegalCommand (spec/60_exceptions.md R322 with the numbers of R321). -/
def errorCodes : Instr → List (BitVec 4)
  | .sperm => []
  | .sld => []
  | .sst => []
  | .sinit _ => [8]
  | .sabs => [9]
  | .sfin _ _ => [9, 5, 1]
  | .ssqz => [9]
  | .pldo _ => []
  | .pldg _ => []
  | .pld _ _ => [5, 3]
  | .pst _ => []
  | .padd _ _ _ => []
  | .pdbl _ _ => []
  | .pneg _ _ => []
  | .pmul _ _ => []
  | .kld _ => [5]
  | .pdec _ _ _ => [5, 3, 4]

/-- The commands that write S (spec/10_state.md R33). -/
def writesSponge : Instr → Bool
  | .sperm | .sld | .sinit _ | .sabs | .sfin _ _ | .ssqz => true
  | _ => false

/-- The commands that write DBUF (spec/10_state.md R33). -/
def writesBuf : Instr → Bool
  | .sst | .ssqz | .pst _ => true
  | _ => false

/-- The point register a command writes (spec/10_state.md R33). -/
def writesPr : Instr → Option PReg
  | .pldo d | .pldg d | .pld d _ | .padd d _ _ | .pdbl d _ | .pneg d _ | .pmul d _ | .pdec d _ _ => some d
  | _ => none

end Sys2Proof.Claims

open Sys2Proof.Claims

/-! ### Encoding -/

/-- Decoding the word of a well-formed command gives the command back, with every operand at every value its field admits
(spec/30_encoding.md R101, R103, R107). -/
def Obligations.DecodeInvertsEncode : Prop := ∀ i : Instr, i.wellFormed = true → decode (encode i) = .ok i

/-- A word that decodes to a command is that command's word, and the command is well formed (spec/30_encoding.md R101,
R104): no two words decode to one command. -/
def Obligations.EncodeInvertsDecode : Prop :=
  ∀ (w : Word) (i : Instr), decode w = .ok i → i.wellFormed = true ∧ encode i = w

/-- spec/30_encoding.md R104: a word is a legal command exactly under the three conditions; otherwise the command ends with
IllegalCommand, with no other effect, whenever the engine's step comes (log 1: an engine turn, or no turn left). -/
def Obligations.LegalWordConditions : Prop :=
  ∀ w : Word, ((∃ i, decode w = .ok i) ↔ legalWord w) ∧
    ∀ (s : State) (ts : List Turn), s.cmdl = some w → engineNext s ts → ¬legalWord w →
      step s = .next (failedWith 7 { s with turns := ts })

/-- spec/opcode_table.json against the decoder: a word matches a row's mask and pattern exactly when it decodes to a command
of that row's opcode. -/
def Obligations.DecodeAgreesWithTableMasks : Prop :=
  ∀ r ∈ opcodeRows, ∀ w : Word, w &&& r.mask = r.pattern ↔ ∃ i, decode w = .ok i ∧ i.opcode = r.op

/-- The `word` column of spec/30_encoding.md R107, for every command and every operand that fits. -/
def Obligations.CommandWordValues : Prop :=
  (∀ d a b : PReg, ∀ n ≤ 255, ∀ x : Byte, ∀ lsb : Bool,
    (encode .sperm).toNat = 0x01000000 ∧ (encode .sld).toNat = 0x02000000 ∧ (encode .sst).toNat = 0x03000000 ∧
    (encode (.sinit n)).toNat = 0x10000000 + n * 2 ^ 16 ∧ (encode .sabs).toNat = 0x11000000 ∧
    (encode (.sfin n x)).toNat = 0x12000000 + n * 2 ^ 16 + x.toNat * 2 ^ 8 ∧ (encode .ssqz).toNat = 0x13000000 ∧
    (encode (.pldo d)).toNat = 0x20000000 + regNum d * 2 ^ 6 ∧ (encode (.pldg d)).toNat = 0x21000000 + regNum d * 2 ^ 6 ∧
    (encode (.pld d n)).toNat = 0x22000000 + n * 2 ^ 16 + regNum d * 2 ^ 6 ∧
    (encode (.pst a)).toNat = 0x23000000 + regNum a * 2 ^ 4 ∧
    (encode (.padd d a b)).toNat = 0x24000000 + regNum d * 2 ^ 6 + regNum a * 2 ^ 4 + regNum b * 2 ^ 2 ∧
    (encode (.pdbl d a)).toNat = 0x25000000 + regNum d * 2 ^ 6 + regNum a * 2 ^ 4 ∧
    (encode (.pneg d a)).toNat = 0x26000000 + regNum d * 2 ^ 6 + regNum a * 2 ^ 4 ∧
    (encode (.pmul d a)).toNat = 0x27000000 + regNum d * 2 ^ 6 + regNum a * 2 ^ 4 ∧
    (encode (.kld n)).toNat = 0x28000000 + n * 2 ^ 16 ∧
    (encode (.pdec d n lsb)).toNat = 0x29000000 + n * 2 ^ 16 + lsb.toNat * 2 ^ 8 + regNum d * 2 ^ 6)

/-- A few of the words of spec/95_test_vectors.md V20 and V22, one of each unit and one illegal. -/
def Obligations.SampleWordsDecode : Prop :=
  decode 0x01000000 = .ok .sperm ∧ decode 0x12030600 = .ok (.sfin 3 0x06) ∧ decode 0x22840040 = .ok (.pld .p1 132) ∧
    decode 0x24000084 = .ok (.padd .p2 .p0 .p1) ∧ decode 0x29420100 = .ok (.pdec .p0 66 true) ∧
    decode 0x29420200 = .error .parityOutOfRange

/-! ### The engine's step -/

/-- spec/60_exceptions.md R331: the engine's step executes the command CMDL decodes to. With no turn left the engine's step
is the machine's; an engine turn is taken off the list first (log 1). -/
def Obligations.StepRunsLatchedCommand : Prop :=
  ∀ (s : State) (w : Word) (i : Instr), s.cmdl = some w → decode w = .ok i →
    (s.turns = [] → step s = exec i s) ∧
    ∀ ts, s.turns = .engine :: ts → step s = exec i { s with turns := ts }

/-- spec/60_exceptions.md R342: with BUSY = 0 the engine is idle and holds its state. The skipped engine turn is the model's
own (log 1, log 4). -/
def Obligations.IdleEngineHoldsState : Prop :=
  ∀ s : State, s.busy = false → (s.turns = [] → step s = .next s) ∧
    ∀ ts, s.turns = .engine :: ts → step s = .next { s with turns := ts }

/-! ### The host's registers -/

/-- spec/60_exceptions.md R330: a CMD write is accepted when BUSY = 0 and ERR = 0, else it is dropped with OVR <- 1; nothing
else changes. The turn list is the model's own (log 1). -/
def Obligations.CmdWriteAcceptance : Prop :=
  ∀ (s : State) (w : Word) (ts : List Turn), writes s 0x000 w ts →
    (s.busy = false → s.err = 0 →
      ∃ t, step s = .next t ∧ t = { s with turns := ts, cmdl := some w } ∧ t.busy = true) ∧
    (s.busy = true ∨ s.err ≠ 0 → step s = .next { s with turns := ts, ovr := true })

/-- spec/60_exceptions.md R333: a CTRL write with CLR = 1 (and SRST = 0) sets ERR <- 0 and OVR <- 0 and changes nothing else;
spec/10_state.md R43: with both 0 it changes nothing, whatever the other bits are. -/
def Obligations.ClearErrorsWrite : Prop :=
  ∀ (s : State) (v : Word) (ts : List Turn), writes s 0x008 v ts → v.getLsbD 1 = false →
    (v.getLsbD 0 = true → step s = .next { s with turns := ts, err := 0, ovr := false }) ∧
    (v.getLsbD 0 = false → step s = .next { s with turns := ts })

/-- spec/70_reset_and_hazards.md R360, R361 and spec/10_state.md R49: a CTRL write with SRST = 1, whatever else it holds and
whatever the state, and power-on reset leave every piece of engine state at its reset value, and so does State.reset. The
model's own fields turns, replies and freeIdx stay (log 17, log 18). -/
def Obligations.ResetsGiveResetValues : Prop :=
  engineAtReset State.reset ∧
    (∀ (s : State) (v : Word) (ts : List Turn), writes s 0x008 v ts → v.getLsbD 1 = true →
      ∃ t, step s = .next t ∧ engineAtReset t ∧ t.turns = ts ∧ t.replies = s.replies ∧ t.freeIdx = s.freeIdx) ∧
    ∀ (s : State) (ts : List Turn), s.turns = .powerOn :: ts →
      ∃ t, step s = .next t ∧ engineAtReset t ∧ t.turns = ts ∧ t.replies = s.replies ∧ t.freeIdx = s.freeIdx

/-- spec/10_state.md R41: a STATUS read returns BUSY in bit 0, OVR in bit 1, ERR in bits 7:4 and 0 in every other bit, and
changes no engine state. That the value is appended to the replies is the model's own (log 7). -/
def Obligations.StatusReadValue : Prop :=
  ∀ (s : State) (ts : List Turn), reads s 0x004 ts →
    ∃ v : Word, step s = .next { s with turns := ts, replies := s.replies ++ [v] } ∧
      v.getLsbD 0 = s.busy ∧ v.getLsbD 1 = s.ovr ∧ bits v 7 4 = s.err.toNat ∧ bits v 3 2 = 0 ∧ bits v 31 8 = 0

/-- spec/10_state.md R37, R42 to R45: what a 32-bit read of every other register offset returns: RATE (while no SINIT is
in flight), ID, and 0 for CMD, CTRL and the reserved offsets, the last four whatever is in flight
(spec/70_reset_and_hazards.md R372). The reply list is the model's own (log 7). -/
def Obligations.RegisterReadValues : Prop :=
  ∀ (s : State) (off : Fin 0x200) (ts : List Turn), reads s off ts → off.val < 0x100 → off.val % 4 = 0 →
    off.val ≠ 0x004 → (off.val = 0x00C → ∀ w n, s.cmdl = some w → decode w ≠ .ok (.sinit n)) →
    ∃ v : Word, step s = .next { s with turns := ts, replies := s.replies ++ [v] } ∧
      v.toNat = if off.val = 0x00C then s.rate.toNat else if off.val = 0x010 then 0x4B353231 else 0

/-- spec/70_reset_and_hazards.md R372: a read of RATE while an SINIT is in flight returns the old or the new RATE. Which one
is a free value (log 5); the statement holds for each. -/
def Obligations.RateReadDuringSinit : Prop :=
  ∀ (s : State) (w : Word) (n : Nat) (ts : List Turn), reads s 0x00C ts → s.cmdl = some w →
    decode w = .ok (.sinit n) →
    ∃ t v, step s = .next t ∧ sameEngine s t ∧ t.turns = ts ∧ t.replies = s.replies ++ [v] ∧
      (v.toNat = s.rate.toNat ∨ (1 ≤ n ∧ n ≤ 199 ∧ v.toNat = n))

/-- spec/20_memory.md R76: no accepted read has a side effect: every piece of engine state is as it was, and one value is
returned. -/
def Obligations.ReadsHaveNoSideEffect : Prop :=
  ∀ (s : State) (off : Fin 0x200) (n : Nat) (ts : List Turn), s.turns = .host ⟨off, n, .read⟩ :: ts →
    acceptable off.val n → (0x100 ≤ off.val → s.busy = false) →
    ∃ t v, step s = .next t ∧ sameEngine s t ∧ t.turns = ts ∧ t.replies = s.replies ++ [v]

/-- spec/10_state.md R41, R44, R45: a 32-bit write to any register offset but CMD and CTRL is ignored. -/
def Obligations.OtherRegisterWritesIgnored : Prop :=
  ∀ (s : State) (off : Fin 0x200) (v : Word) (ts : List Turn), writes s off v ts → off.val < 0x100 → off.val % 4 = 0 →
    off.val ≠ 0x000 → off.val ≠ 0x008 → step s = .next { s with turns := ts }

/-- spec/20_memory.md R72: an access gets a bus error exactly when it is none of the accepted ones; a model treats it as the
fault BusError. That it is BusError also where the access touches DBUF while BUSY = 1, which spec/70_reset_and_hazards.md
R370 makes a hazard, is the model's choice (log 6). -/
def Obligations.BusErrorExactlyWhenUnacceptable : Prop :=
  ∀ (s : State) (a : Access) (ts : List Turn), s.turns = .host a :: ts →
    (step s = .fault .busError ↔ ¬acceptable a.off.val a.bits)

/-- spec/70_reset_and_hazards.md R370: an accepted host read or write of any DBUF offset while BUSY = 1 is the fault
HostHazard, and no other accepted access is. That an access R72 does not accept is left to BusError is the model's choice
(log 6). -/
def Obligations.DbufAccessWhileBusyFaults : Prop :=
  ∀ (s : State) (a : Access) (ts : List Turn), s.turns = .host a :: ts → acceptable a.off.val a.bits →
    (step s = .fault .hostHazard ↔ 0x100 ≤ a.off.val ∧ s.busy = true)

/-- spec/20_memory.md R73: while BUSY = 0 a write of 8, 16 or 32 bits at offset 0x100 + i sets DBUF[i+j] <- v[8j+7:8j] and
nothing else. That the data of an 8- or 16-bit write are the low bits of a 32-bit value is the model's choice (log 15). -/
def Obligations.DbufWriteLittleEndian : Prop :=
  ∀ (s : State) (off : Fin 0x200) (n : Nat) (v : Word) (ts : List Turn), s.turns = .host ⟨off, n, .write v⟩ :: ts →
    acceptable off.val n → 0x100 ≤ off.val → s.busy = false →
    ∃ t, step s = .next t ∧ t = { s with turns := ts, dbuf := t.dbuf } ∧
      (∀ j < n / 8, (t.dbuf.read (off.val + j)).toNat = bits v (8 * j + 7) (8 * j)) ∧
      ∀ a, a < off.val ∨ off.val + n / 8 ≤ a → t.dbuf.read a = s.dbuf.read a

/-- spec/20_memory.md R73: while BUSY = 0 a read of 8, 16 or 32 bits at offset 0x100 + i returns DBUF[i+j] in bits
8j+7:8j. That a narrow read is 0 above its bytes, and the reply list, are the model's choice (log 7). -/
def Obligations.DbufReadLittleEndian : Prop :=
  ∀ (s : State) (off : Fin 0x200) (n : Nat) (ts : List Turn), s.turns = .host ⟨off, n, .read⟩ :: ts →
    acceptable off.val n → 0x100 ≤ off.val → s.busy = false →
    ∃ v : Word, step s = .next { s with turns := ts, replies := s.replies ++ [v] } ∧
      (∀ j < n / 8, bits v (8 * j + 7) (8 * j) = (s.dbuf.read (off.val + j)).toNat) ∧ v.toNat < 2 ^ n

/-- spec/20_memory.md R70: S, the point registers and K are in no address space: two runs that differ in them alone answer
the same to every bus access, and differ in them alone afterwards. -/
def Obligations.BusCannotSeeHiddenState : Prop :=
  ∀ (s s' t : State) (a : Access) (ts : List Turn), s.turns = .host a :: ts →
    s' = { s with sponge := s'.sponge, pr := s'.pr, k := s'.k } → step s = .next t →
    ∃ t', step s' = .next t' ∧ t' = { t with sponge := t'.sponge, pr := t'.pr, k := t'.k }

/-! ### The invariant and the rules of the whole machine -/

/-- The reset state meets the invariant. -/
def Obligations.ResetMeetsInvariant : Prop := Inv State.reset

/-- Every step keeps the invariant: DBUF in canonical form, RATE at most 199 (spec/10_state.md R37), every point register an
on-curve point (R39; spec/43_e521.md R266), ERR never a reserved code (spec/60_exceptions.md R324), and no command in flight
while ERR ≠ 0 (R334). -/
def Obligations.StepKeepsInvariant : Prop := ∀ s t : State, Inv s → step s = .next t → Inv t

/-- spec/43_e521.md R265 and spec/70_reset_and_hazards.md R375: on states that meet the invariant every command ends, with no
model fault and no refusal; and the only faults of a step are the host's. -/
def Obligations.CommandsAlwaysEnd : Prop :=
  ∀ s : State, Inv s → (∀ i : Instr, ∃ t, exec i s = .next t ∧ t.busy = false) ∧
    ((∃ t, step s = .next t) ∨ step s = .fault .busError ∨ step s = .fault .hostHazard)

/-- spec/60_exceptions.md R329, R334: once ERR is nonzero it keeps its value, unless the step is a CTRL write with CLR = 1 or
SRST = 1 or a power-on reset. -/
def Obligations.ErrorsAreSticky : Prop :=
  ∀ s t : State, Inv s → s.err ≠ 0 → step s = .next t →
    t.err = s.err ∨ (∃ ts, s.turns = .powerOn :: ts) ∨
      ∃ v ts, writes s 0x008 v ts ∧ (v.getLsbD 0 = true ∨ v.getLsbD 1 = true)

/-- spec/60_exceptions.md R326: a command that ends with an error leaves S, RATE, DBUF, PR0..PR3 and K exactly as they were,
sets ERR to the code and BUSY to 0; said of every command, and of the engine's step (log 1: an engine turn, or no turn left), which also meets
illegal words. -/
def Obligations.FailedCommandChangesNothing : Prop :=
  (∀ (i : Instr) (s t : State), s.err = 0 → exec i s = .next t → t.err ≠ 0 → t = failedWith t.err s ∧ t.busy = false) ∧
  ∀ (s t : State) (ts : List Turn), s.busy = true → s.err = 0 → engineNext s ts → step s = .next t → t.err ≠ 0 →
    t = failedWith t.err { s with turns := ts } ∧ t.busy = false

/-- spec/60_exceptions.md R322, R324: the codes each command can end with. -/
def Obligations.ErrorCodesOfCommands : Prop :=
  ∀ (i : Instr) (s t : State), s.err = 0 → exec i s = .next t → t.err ≠ 0 → t.err ∈ errorCodes i

/-- spec/10_state.md R33, R38, R48: which commands write S, RATE, DBUF, the point registers and K, and that no command
changes OVR or writes DBUF[200..255]; the model's own fields stay. -/
def Obligations.CommandsWriteOnlyTheirState : Prop :=
  ∀ (i : Instr) (s t : State), exec i s = .next t →
    (writesSponge i = false → t.sponge = s.sponge) ∧ ((∀ n, i ≠ .sinit n) → t.rate = s.rate) ∧
    (writesBuf i = false → ∀ a, t.dbuf.read a = s.dbuf.read a) ∧ bufSameFrom 200 s t ∧
    (∀ d, writesPr i ≠ some d → t.pr.get d = s.pr.get d) ∧ ((∀ n, i ≠ .kld n) → t.k = s.k) ∧
    t.ovr = s.ovr ∧ t.busy = false ∧ t.turns = s.turns ∧ t.replies = s.replies ∧ t.freeIdx = s.freeIdx

/-- spec/10_state.md R37: only SINIT, at the engine's step, and reset write RATE, over all steps of the machine. When the
engine's step comes is the turn list's (log 1). -/
def Obligations.OnlySinitAndResetWriteRate : Prop :=
  ∀ s t : State, step s = .next t → t.rate ≠ s.rate →
    (∃ w n ts, engineNext s ts ∧ s.cmdl = some w ∧ decode w = .ok (.sinit n) ∧ 1 ≤ n ∧ n ≤ 199 ∧ t.rate.toNat = n) ∨
      (t.rate = 0 ∧ ((∃ ts, s.turns = .powerOn :: ts) ∨ ∃ v ts, writes s 0x008 v ts ∧ v.getLsbD 1 = true))

/-- spec/10_state.md R33, spec/60_exceptions.md R341: K is read by PMUL alone: for every other command two runs that differ
in K alone end alike, and differ in K alone afterwards. -/
def Obligations.OnlyPmulReadsScalar : Prop :=
  ∀ (i : Instr) (s t : State) (k' : BitVec 528), (∀ d a, i ≠ .pmul d a) → exec i s = .next t →
    ∃ t', exec i { s with k := k' } = .next t' ∧ t' = { t with k := t'.k }

/-! ### The permutation unit -/

/-- spec/40_keccak_permutation.md R131, R133, R134: the step mappings lane by lane, indexes modulo 5. Beside them ρ with the
model's offset table, ι with any round constant, and the order in which a round applies the five (R132, R135, R136). -/
def Obligations.KeccakStepEquations : Prop :=
  ∀ (A : Lanes) (x y : Fin 5) (rc : Lane),
    let C := fun u : Fin 5 => lane A u 0 ^^^ lane A u 1 ^^^ lane A u 2 ^^^ lane A u 3 ^^^ lane A u 4
    lane (theta A) x y = lane A x y ^^^ (C (x - 1) ^^^ (C (x + 1)).rotateLeft 1) ∧
    lane (rho A) x y = (lane A x y).rotateLeft ((rhoTable.get x).get y) ∧
    lane (piStep A) x y = lane A (x + 3 * y) x ∧
    lane (chi A) x y = lane A x y ^^^ (~~~(lane A (x + 1) y) &&& lane A (x + 2) y) ∧
    lane (iota rc A) x y = (if x = 0 ∧ y = 0 then lane A 0 0 ^^^ rc else lane A x y) ∧
    keccakRound A rc = iota rc (chi (piStep (rho (theta A))))

/-- spec/10_state.md R35: bit z of lane A[x][y] is bit z mod 8 of byte S[8·(x+5y) + z/8], and the byte view of the lane view
of S is S. -/
def Obligations.LaneByteView : Prop :=
  ∀ S : SpongeBytes, (∀ (x y : Fin 5) (z : Nat) (hz : z < 64),
      (lane (lanesOfBytes S) x y).getLsbD z = (S[8 * (x.val + 5 * y.val) + z / 8]'(by omega)).getLsbD (z % 8)) ∧
    bytesOfLanes (lanesOfBytes S) = S ∧ ∀ A : Lanes, lanesOfBytes (bytesOfLanes A) = A

/-- spec/40_keccak_permutation.md R142 with R137: SPERM replaces S by F(S), whose lanes are the 24 rounds in order on the
lanes of S; nothing else changes, and RATE is not read. The rounds' constants and rotation offsets are the values of the
tables of R140 and R141, which the spec marks as general knowledge (log 12). -/
def Obligations.SpermPermutesState : Prop :=
  ∀ s : State, ∃ S' : SpongeBytes, exec .sperm s = .next { s with sponge := S', cmdl := none } ∧
    lanesOfBytes S' = roundConstants.foldl keccakRound (lanesOfBytes s.sponge) ∧
    roundConstants.map BitVec.toNat = roundTable ∧ roundTable.length = 24 ∧
    ∀ x y : Fin 5, (rhoTable.get x).get y = (offsetTable.getD y []).getD x 0

/-- spec/40_keccak_permutation.md R139, a remark the spec marks as general knowledge: F is a bijection on 200-byte strings:
every S is the result of SPERM on exactly one S. -/
def Obligations.PermutationIsBijective : Prop := Function.Bijective keccakF

/-- spec/40_keccak_permutation.md R143: SLD loads S[i] <- DBUF[i] for i in 0..199 and changes nothing else. -/
def Obligations.SldLoadsState : Prop :=
  ∀ s : State, ∃ S' : SpongeBytes, exec .sld s = .next { s with sponge := S', cmdl := none } ∧
    ∀ i (h : i < 200), S'[i] = buf s i

/-- spec/40_keccak_permutation.md R144: SST stores DBUF[i] <- S[i] for i in 0..199 and changes nothing else. -/
def Obligations.SstStoresState : Prop :=
  ∀ s : State, ∃ t, exec .sst s = .next t ∧ onlyBuf 200 s t ∧ ∀ i (h : i < 200), buf t i = s.sponge[i]

/-! ### The sponge unit -/

/-- spec/41_sponge.md R180: SINIT n makes S zero and RATE n for n in 1..199, and ends with BadRate (code 8) otherwise. -/
def Obligations.SinitStartsInstance : Prop :=
  ∀ (s : State) (n : Nat),
    (1 ≤ n ∧ n ≤ 199 → ∃ (S' : SpongeBytes) (r : Byte), exec (.sinit n) s =
      .next { s with sponge := S', rate := r, cmdl := none } ∧ (∀ i (h : i < 200), S'[i] = 0) ∧ r.toNat = n) ∧
    (n = 0 ∨ 200 ≤ n → exec (.sinit n) s = .next (failedWith 8 s))

/-- spec/41_sponge.md R181: SABS XORs DBUF[0..RATE−1] into S and applies F, or ends with NoRate (code 9) when RATE = 0. -/
def Obligations.SabsAbsorbsBlock : Prop :=
  ∀ s : State, (s.rate = 0 → exec .sabs s = .next (failedWith 9 s)) ∧
    (s.rate ≠ 0 → ∀ X : SpongeBytes,
      (∀ i (h : i < 200), X[i] = if i < s.rate.toNat then s.sponge[i] ^^^ buf s i else s.sponge[i]) →
      exec .sabs s = .next { s with sponge := keccakF X, cmdl := none })

/-- spec/41_sponge.md R183, R182: SFIN n, sx XORs the padded tail DBUF[0..n−1] into S and applies F; its errors in order are
NoRate (9), BadLength (5) for n ≥ RATE, InvalidSuffix (1) for sx = 0. -/
def Obligations.SfinAbsorbsPaddedTail : Prop :=
  ∀ (s : State) (n : Nat) (sx : Byte),
    (s.rate = 0 → exec (.sfin n sx) s = .next (failedWith 9 s)) ∧
    (s.rate ≠ 0 → s.rate.toNat ≤ n → exec (.sfin n sx) s = .next (failedWith 5 s)) ∧
    (s.rate ≠ 0 → n < s.rate.toNat → sx = 0 → exec (.sfin n sx) s = .next (failedWith 1 s)) ∧
    (n < s.rate.toNat → sx ≠ 0 → ∀ X : SpongeBytes,
      (∀ i (h : i < 200), X[i] =
        if i < s.rate.toNat then s.sponge[i] ^^^ padByte (buf s) n s.rate.toNat sx i else s.sponge[i]) →
      exec (.sfin n sx) s = .next { s with sponge := keccakF X, cmdl := none })

/-- spec/41_sponge.md R184: SSQZ stores the rate part of S, taken before F, in DBUF[0..RATE−1] and applies F; NoRate (9) when
RATE = 0. A rate above 199 is met by no reachable state. -/
def Obligations.SsqzSqueezesBlock : Prop :=
  ∀ s : State, (s.rate = 0 → exec .ssqz s = .next (failedWith 9 s)) ∧
    (s.rate ≠ 0 → s.rate.toNat ≤ 199 → ∃ t, exec .ssqz s = .next t ∧
      t = { s with sponge := keccakF s.sponge, dbuf := t.dbuf, cmdl := none } ∧ bufSameFrom s.rate.toNat s t ∧
      ∀ i (h : i < 200), i < s.rate.toNat → buf t i = s.sponge[i])

/-- spec/41_sponge.md R176, R379: k squeezes in a row: the last one's block is the rate part of F applied k−1 times, and S is
F applied k times. -/
def Obligations.RepeatedSqueezes : Prop :=
  ∀ (k : Nat) (s : State), s.rate ≠ 0 → s.rate.toNat ≤ 199 →
    ∃ t, execAll (List.replicate (k + 1) .ssqz) s = .next t ∧
      t = { s with sponge := iterF (k + 1) s.sponge, dbuf := t.dbuf, cmdl := none } ∧ bufSameFrom s.rate.toNat s t ∧
      ∀ i (h : i < 200), i < s.rate.toNat → buf t i = (iterF k s.sponge)[i]

/-- spec/41_sponge.md R182: padblock is a string of R bytes with the bytes the rule gives, and it is the last R bytes of
pad10x1 of every message whose length is n modulo R and whose last n bytes are the tail. -/
def Obligations.PadblockIsLastBlock : Prop :=
  ∀ (tail : List Byte) (R : Nat) (s : Byte), tail.length < R → s ≠ 0 →
    (padblock tail R s).length = R ∧
    (∀ i < R, (padblock tail R s).getD i 0 = padByte (fun j => tail.getD j 0) tail.length R s i) ∧
    ∀ m : List Byte, m.length % R = tail.length → m.drop (m.length - tail.length) = tail →
      (pad10x1 m R s).drop ((pad10x1 m R s).length - R) = padblock tail R s

/-- spec/41_sponge.md R171: the padded length is the smallest multiple of the rate above the message's length, and exactly a
block is appended on a block boundary. -/
def Obligations.PaddedLength : Prop :=
  ∀ (m : List Byte) (R : Nat) (s : Byte), 0 < R →
    (pad10x1 m R s).length % R = 0 ∧ m.length < (pad10x1 m R s).length ∧
    (∀ L, L % R = 0 → m.length < L → (pad10x1 m R s).length ≤ L) ∧
    (m.length % R = 0 → (pad10x1 m R s).length = m.length + R)

/-- spec/41_sponge.md R185: the host sequence ABSORB(m, s), run on an idle engine with a configured rate, leaves S as
absorb_all(m) of R175 does, and RATE, the point registers, K, ERR and OVR as they were. The sequence as a turn list, with
one number of polls for all its commands, is the model's choice (log 19). -/
def Obligations.AbsorbSequenceAbsorbsAll : Prop :=
  ∀ (s : State) (polls : Nat) (m : List Byte) (sx : Byte), s.busy = false → s.err = 0 → s.rate ≠ 0 →
    s.rate.toNat ≤ 199 → sx ≠ 0 →
    ∃ t, runTurns (absorbTurns polls s.rate.toNat m sx) s = .next t ∧
      absorbAll s.sponge s.rate.toNat m sx = .ok t.sponge ∧ t.rate = s.rate ∧ t.pr = s.pr ∧ t.k = s.k ∧ t.err = 0 ∧
      t.ovr = s.ovr ∧ t.busy = false ∧ t.turns = s.turns

/-- spec/41_sponge.md R188: the host sequence SHA3-d(m), run on any idle engine without an error, leaves the digest in
DBUF[0..d/8−1], and the host's last d/8 reads return it. The sequence as a turn list, with one number of
polls for all its commands, and the reply list are the model's choice (log 19, log 7). -/
def Obligations.Sha3SequenceComputesDigest : Prop :=
  ∀ (d : Nat) (s : State) (polls : Nat) (m : List Byte), d ∈ [224, 256, 384, 512] → s.busy = false → s.err = 0 →
    ∃ t out, runTurns (sha3Turns polls d m) s = .next t ∧ sha3 d m = .ok out ∧ out.length = d / 8 ∧
      (∀ i < d / 8, buf t i = out.getD i 0) ∧
      t.replies.drop (t.replies.length - d / 8) = out.map (fun b => b.setWidth 32) ∧
      t.err = 0 ∧ t.ovr = s.ovr ∧ t.busy = false

/-- spec/42_host_hash_procedures.md R220, R224: left_encode is the length byte and the shortest big-endian bytes of n, and is
refused for n of 2^2040 or more. -/
def Obligations.LeftEncodeShape : Prop :=
  leftEncode 0 = .ok [0x01, 0x00] ∧ (∀ n, 2 ^ 2040 ≤ n → leftEncode n = .error .encodingTooLarge) ∧
    ∀ n, 0 < n → n < 2 ^ 2040 → ∃ (b : Byte) (bs : List Byte), leftEncode n = .ok (b :: bs) ∧ b.toNat = bs.length ∧
      ube bs = n ∧ bs.headD 0 ≠ 0

/-- spec/42_host_hash_procedures.md R223: bytepad(x, w) is left_encode(w) ‖ x and fewer than w zeros, its length a positive
multiple of w. -/
def Obligations.BytepadShape : Prop :=
  ∀ (x : List Byte) (w : Nat), 0 < w → w < 2 ^ 2040 → ∃ l z k, leftEncode w = .ok l ∧ bytepad x w = .ok z ∧
    z = l ++ x ++ List.replicate k 0 ∧ k < w ∧ z.length % w = 0 ∧ 0 < z.length

/-! ### The E-521 unit -/

/-- spec/43_e521.md R270, R271, R252, R253: PLDO and PLDG write O and G, a point with x = 4 and even y, to PR[d] and change
nothing else. -/
def Obligations.ConstantPointLoads : Prop :=
  ∀ (s : State) (d : PReg),
    (∃ t, exec (.pldo d) s = .next t ∧ onlyPr d s t ∧ t.pr.get d = ⟨0, 1⟩) ∧
    ∃ t, exec (.pldg d) s = .next t ∧ onlyPr d s t ∧ isPoint (t.pr.get d) ∧ (t.pr.get d).x = 4 ∧
      (t.pr.get d).y % 2 = 0

/-- spec/43_e521.md R272: PLD takes the two 66-byte halves; it loads the pair when both are below p and on the curve, ends
with NotOnCurve (3) otherwise, and with BadLength (5) when n ≠ 132. A negative half has an unsigned reading above p. -/
def Obligations.PldValidatesPoint : Prop :=
  ∀ (s : State) (d : PReg) (n : Nat),
    (n ≠ 132 → exec (.pld d n) s = .next (failedWith 5 s)) ∧
    (n = 132 → isPoint ⟨bufValue s 0 66, bufValue s 66 66⟩ →
      ∃ t, exec (.pld d n) s = .next t ∧ onlyPr d s t ∧ t.pr.get d = ⟨bufValue s 0 66, bufValue s 66 66⟩) ∧
    (n = 132 → ¬isPoint ⟨bufValue s 0 66, bufValue s 66 66⟩ → exec (.pld d n) s = .next (failedWith 3 s))

/-- spec/43_e521.md R273, R258: PST writes the two 66-byte big-endian coordinates to DBUF[0..131] and changes nothing
else. -/
def Obligations.PstEncodesPoint : Prop :=
  ∀ (s : State) (a : PReg), ∃ t, exec (.pst a) s = .next t ∧ onlyBuf 132 s t ∧
    (isPoint (s.pr.get a) → bufValue t 0 66 = (s.pr.get a).x ∧ bufValue t 66 66 = (s.pr.get a).y)

/-- spec/43_e521.md R258, R259: PST Pa and then PLD Pd, 132 copies a point. -/
def Obligations.StoreThenLoadCopiesPoint : Prop :=
  ∀ (s : State) (d a : PReg), isPoint (s.pr.get a) →
    ∃ t, execAll [.pst a, .pld d 132] s = .next t ∧ t.pr.get d = s.pr.get a ∧ t.err = s.err ∧
      ∀ e, e ≠ d → t.pr.get e = s.pr.get e

/-- spec/43_e521.md R274, R261, R265, R266: on on-curve registers PADD writes to PR[d] the point the addition law gives,
which is on the curve, and changes nothing else. -/
def Obligations.PaddAddsPoints : Prop :=
  ∀ (s : State) (d a b : PReg), isPoint (s.pr.get a) → isPoint (s.pr.get b) →
    ∃ t, exec (.padd d a b) s = .next t ∧ onlyPr d s t ∧ isPoint (t.pr.get d) ∧
      isSum (s.pr.get a) (s.pr.get b) (t.pr.get d)

/-- spec/43_e521.md R275, R262: PDBL writes PR[a] + PR[a], what PADD of PR[a] with itself writes. -/
def Obligations.PdblDoublesPoint : Prop :=
  ∀ (s : State) (d a : PReg), isPoint (s.pr.get a) →
    ∃ t, exec (.pdbl d a) s = .next t ∧ exec (.padd d a a) s = .next t ∧ onlyPr d s t ∧ isPoint (t.pr.get d) ∧
      isSum (s.pr.get a) (s.pr.get a) (t.pr.get d)

/-- spec/43_e521.md R276, R263: PNEG writes ((−x) mod p, y), an on-curve point where PR[a] is one. -/
def Obligations.PnegNegatesPoint : Prop :=
  ∀ (s : State) (d a : PReg), ∃ t, exec (.pneg d a) s = .next t ∧ onlyPr d s t ∧
    (t.pr.get d).y = (s.pr.get a).y ∧ ((t.pr.get d).x : Int) = (-((s.pr.get a).x : Int)) % (2 ^ 521 - 1) ∧
    (isPoint (s.pr.get a) → isPoint (t.pr.get d))

/-- spec/43_e521.md R277, R264: PMUL writes K·PR[a], the point that adding PR[a] K times gives, which is on the curve; K and
everything else are unchanged. -/
def Obligations.PmulMultipliesByScalar : Prop :=
  ∀ (s : State) (d a : PReg), isPoint (s.pr.get a) →
    ∃ t, exec (.pmul d a) s = .next t ∧ onlyPr d s t ∧ isPoint (t.pr.get d) ∧
      times (s.pr.get a) s.k.toNat = some (t.pr.get d)

/-- spec/43_e521.md R267: the group laws, on G as the rule has them and for every k and t, and r·G = O. -/
def Obligations.GroupLawsOfGenerator : Prop :=
  (∀ k, ∃ A B, scalarMul .generator k = some A ∧ scalarMul .generator (k + 1) = some B ∧
    pointAdd A .generator = some B) ∧
  (∀ k t, ∃ A B C, scalarMul .generator k = some A ∧ scalarMul .generator t = some B ∧
    scalarMul .generator (k + t) = some C ∧ pointAdd A B = some C) ∧
  scalarMul .generator 0 = some ⟨0, 1⟩ ∧ scalarMul .generator 1 = some .generator ∧
  scalarMul .generator 2 = pointDouble .generator ∧
  scalarMul .generator (2 ^ 519 - 337554763258501705789107630418782636071904961214051226618635150085779108655765) =
    some ⟨0, 1⟩ ∧
  pointAdd .generator (pointNeg .generator) = some ⟨0, 1⟩

/-- spec/43_e521.md R274: add(P, O) = P and add(P, negate(P)) = O, run as PADD. -/
def Obligations.PaddIdentityAndInverse : Prop :=
  ∀ (s : State) (d a b : PReg), isPoint (s.pr.get a) →
    (s.pr.get b = ⟨0, 1⟩ → ∃ t, exec (.padd d a b) s = .next t ∧ t.pr.get d = s.pr.get a) ∧
    (s.pr.get b = pointNeg (s.pr.get a) → ∃ t, exec (.padd d a b) s = .next t ∧ t.pr.get d = ⟨0, 1⟩)

/-- spec/30_encoding.md R108: PMOV copies a point, and PSUB Pd, Pa, Pb with d ≠ a computes PR[a] + (−PR[b]). -/
def Obligations.PseudoCommandExpansions : Prop :=
  ∀ (s : State) (d a b : PReg), isPoint (s.pr.get a) → isPoint (s.pr.get b) →
    (∃ t, execAll (pseudoPmov d a) s = .next t ∧ onlyPr d s t ∧ t.pr.get d = s.pr.get a) ∧
    (d ≠ a → ∃ t, execAll (pseudoPsub d a b) s = .next t ∧ onlyPr d s t ∧
      pointAdd (s.pr.get a) (pointNeg (s.pr.get b)) = some (t.pr.get d))

/-- spec/43_e521.md R278: KLD n loads the unsigned big-endian value of DBUF[0..n−1] for n in 1..66, and ends with BadLength
(5) otherwise. -/
def Obligations.KldLoadsScalar : Prop :=
  ∀ (s : State) (n : Nat),
    (1 ≤ n ∧ n ≤ 66 → ∃ v : BitVec 528, exec (.kld n) s = .next { s with k := v, cmdl := none } ∧
      v.toNat = bufValue s 0 n) ∧
    (n = 0 ∨ 66 < n → exec (.kld n) s = .next (failedWith 5 s))

/-- spec/43_e521.md R279, R260, R257: PDEC writes the point with the given x and a y of the given parity (or y = 0) exactly
when some point of the curve has that x; NoSuchPoint (4) otherwise; NotOnCurve (3) for x outside [0, p−1]; BadLength (5) for
n ≠ 66. -/
def Obligations.PdecFindsEveryPoint : Prop :=
  ∀ (s : State) (d : PReg) (n : Nat) (lsb : Bool),
    (n ≠ 66 → exec (.pdec d n lsb) s = .next (failedWith 5 s)) ∧
    (n = 66 → 2 ^ 521 - 1 ≤ bufValue s 0 66 → exec (.pdec d n lsb) s = .next (failedWith 3 s)) ∧
    (n = 66 → bufValue s 0 66 < 2 ^ 521 - 1 → (∀ y, ¬isPoint ⟨bufValue s 0 66, y⟩) →
      exec (.pdec d n lsb) s = .next (failedWith 4 s)) ∧
    (n = 66 → bufValue s 0 66 < 2 ^ 521 - 1 → (∃ y, isPoint ⟨bufValue s 0 66, y⟩) →
      ∃ t, exec (.pdec d n lsb) s = .next t ∧ onlyPr d s t ∧ isPoint (t.pr.get d) ∧
        (t.pr.get d).x = bufValue s 0 66 ∧ ((t.pr.get d).y % 2 = lsb.toNat ∨ (t.pr.get d).y = 0))
end

