-- ==== Sys2Proof/Laws/Bytes.lean ====
section
/-! SUPPORT. Integers and byte strings: the conversions of spec/00_scope.md R12 invert each other. -/

-- One theorem after another: theorems elaborated side by side wait for each other, each on a thread of its own.
set_option Elab.async false

namespace Sys2Proof.Machine

@[simp] theorem ubeBytes_length (n v : Nat) : (ubeBytes n v).length = n := by
  simp [ubeBytes]

@[simp] theorem sbeBytes_length (n : Nat) (v : Int) : (sbeBytes n v).length = n := by
  simp [sbeBytes]

/-- ube of a byte string with one more byte at its end. -/
theorem ube_append_singleton (bs : List Byte) (b : Byte) : ube (bs ++ [b]) = 256 * ube bs + b.toNat := by
  simp [ube]

/-- One more byte of a big-endian string is the low byte of the value. -/
theorem ubeBytes_succ (n v : Nat) : ubeBytes (n + 1) v = ubeBytes n (v / 256) ++ [BitVec.ofNat 8 v] := by
  unfold ubeBytes
  rw [List.range_succ, List.map_append]
  congr 1
  · apply List.map_congr_left
    intro i hi
    have hi : i < n := List.mem_range.mp hi
    have h : 8 * (n + 1 - 1 - i) = 8 + 8 * (n - 1 - i) := by omega
    rw [h, pow_add, ← Nat.div_div_eq_div_mul]
    norm_num
  · simp

/-- ube inverts ube_n on n-byte values (R12). -/
theorem ube_ubeBytes (n : Nat) : ∀ v, v < 2 ^ (8 * n) → ube (ubeBytes n v) = v := by
  induction n with
  | zero =>
    intro v hv
    have : v = 0 := by simpa using hv
    simp [this, ube, ubeBytes]
  | succ n ih =>
    intro v hv
    have h : v / 256 < 2 ^ (8 * n) := by
      rw [Nat.div_lt_iff_lt_mul (by norm_num)]
      calc v < 2 ^ (8 * (n + 1)) := hv
        _ = 2 ^ (8 * n) * 256 := by rw [Nat.mul_add, pow_add]; norm_num
    rw [ubeBytes_succ, ube_append_singleton, ih _ h, BitVec.toNat_ofNat]
    omega

/-- ube of n bytes is below 2^(8n). -/
theorem ube_lt (bs : List Byte) : ube bs < 2 ^ (8 * bs.length) := by
  induction bs using List.reverseRecOn with
  | nil => simp [ube]
  | append_singleton bs b ih =>
    rw [ube_append_singleton, List.length_append, List.length_singleton, Nat.mul_add, pow_add]
    have := b.isLt
    omega

/-- The first byte of a big-endian string of a value below 2^(8n − 1) is below 0x80. -/
theorem ubeBytes_headD_lt (n v : Nat) (hn : 0 < n) (hv : v < 2 ^ (8 * n - 1)) :
    ((ubeBytes n v).headD 0).toNat < 0x80 := by
  obtain ⟨m, rfl⟩ : ∃ m, n = m + 1 := ⟨n - 1, by omega⟩
  unfold ubeBytes
  rw [List.range_succ_eq_map, List.map_cons, List.headD_cons, BitVec.toNat_ofNat]
  have h : v / 2 ^ (8 * (m + 1 - 1 - 0)) < 128 := by
    rw [Nat.div_lt_iff_lt_mul (by positivity)]
    calc v < 2 ^ (8 * (m + 1) - 1) := hv
      _ = 128 * 2 ^ (8 * (m + 1 - 1 - 0)) := by
        rw [show 8 * (m + 1) - 1 = 7 + 8 * (m + 1 - 1 - 0) by omega, pow_add]
        norm_num
  exact lt_of_le_of_lt (Nat.mod_le _ _) h

/-- sbe inverts sbe_n on the nonnegative values of the range (R12, spec/43_e521.md R258). -/
theorem sbe_sbeBytes (n v : Nat) (hn : 0 < n) (hv : v < 2 ^ (8 * n - 1)) : sbe (sbeBytes n v) = v := by
  have hlt : v < 2 ^ (8 * n) := lt_of_lt_of_le hv (Nat.pow_le_pow_right (by norm_num) (by omega))
  have hm : ((v : Int) % ((2 ^ (8 * n) : Nat) : Int)).toNat = v := by
    rw [← Int.natCast_mod, Int.toNat_natCast, Nat.mod_eq_of_lt hlt]
  unfold sbe sbeBytes
  rw [hm, if_neg (by have := ubeBytes_headD_lt n v hn hv; omega), ube_ubeBytes n v hlt]

/-- ule of n bytes is below 2^(8n). -/
theorem ule_lt (bs : List Byte) : ule bs < 2 ^ (8 * bs.length) := by
  induction bs with
  | nil => simp [ule]
  | cons b bs ih =>
    rw [ule, List.length_cons, Nat.mul_add, pow_add]
    have := b.isLt
    omega

/-- Byte j of the little-endian value is entry j of the string (R12). -/
theorem ule_byte (bs : List Byte) : ∀ (j : Nat) (hj : j < bs.length), ule bs / 2 ^ (8 * j) % 256 = bs[j].toNat := by
  induction bs with
  | nil => intro j hj; simp at hj
  | cons b bs ih =>
    intro j hj
    have hb := b.isLt
    cases j with
    | zero =>
      simp only [ule, Nat.mul_zero, pow_zero, Nat.div_one, List.getElem_cons_zero]
      omega
    | succ j =>
      have := ih j (by simpa using hj)
      rw [List.getElem_cons_succ, ← this, ule, Nat.mul_add, Nat.add_comm (8 * j), pow_add, ← Nat.div_div_eq_div_mul]
      congr 2
      omega

/-- ube of a byte string with one more byte at its front. -/
theorem ube_cons (b : Byte) (bs : List Byte) : ube (b :: bs) = b.toNat * 256 ^ bs.length + ube bs := by
  induction bs using List.reverseRecOn with
  | nil => simp [ube]
  | append_singleton bs c ih =>
    rw [← List.cons_append, ube_append_singleton, ih, ube_append_singleton, List.length_append, List.length_singleton,
      pow_succ]
    ring

/-- ube as a sum over the bytes. -/
theorem ube_eq_sum (bs : List Byte) :
    ube bs = ∑ j ∈ Finset.range bs.length, (bs.getD j 0).toNat * 256 ^ (bs.length - 1 - j) := by
  induction bs using List.reverseRecOn with
  | nil => simp [ube]
  | append_singleton bs b ih =>
    rw [ube_append_singleton, ih, List.length_append, List.length_singleton, Finset.sum_range_succ, Finset.mul_sum]
    congr 1
    · apply Finset.sum_congr rfl
      intro j hj
      have hj : j < bs.length := by simpa using hj
      rw [show bs.length + 1 - 1 - j = (bs.length - 1 - j) + 1 by omega, pow_succ, List.getD_append _ _ _ _ hj]
      ring
    · simp

/-- sbe is ube where the top bit is 0. -/
theorem sbe_of_nonneg {bs : List Byte} (h : (bs.headD 0).toNat < 0x80) : sbe bs = (ube bs : Int) :=
  if_neg (by omega)

/-- sbe is negative where the top bit is 1. -/
theorem sbe_of_neg {bs : List Byte} (h : 0x80 ≤ (bs.headD 0).toNat) : sbe bs < 0 := by
  have hs : sbe bs = (ube bs : Int) - ((2 ^ (8 * bs.length) : Nat) : Int) := if_pos h
  have hlt := ube_lt bs
  rw [hs]
  generalize (2 ^ (8 * bs.length) : Nat) = M at *
  omega

/-- Where the top bit is 1, ube is at least half of its range. -/
theorem ube_ge_of_top {bs : List Byte} (hl : bs ≠ []) (h : 0x80 ≤ (bs.headD 0).toNat) :
    2 ^ (8 * bs.length - 1) ≤ ube bs := by
  obtain ⟨b, cs, rfl⟩ := List.exists_cons_of_ne_nil hl
  have h' : 2 ^ 7 ≤ b.toNat := h
  have e : 2 ^ (8 * (b :: cs).length - 1) = 2 ^ 7 * 256 ^ cs.length := by
    rw [List.length_cons, show (256 : Nat) = 2 ^ 8 from rfl, ← pow_mul, ← pow_add]
    congr 1
    omega
  rw [ube_cons, e]
  exact le_trans (Nat.mul_le_mul_right _ h') (Nat.le_add_right _ _)

end Sys2Proof.Machine
end

