-- ==== Sys2Proof/Laws/Edwards.lean ====
section
/-! SUPPORT. The algebra of Edwards addition over any field in which d is not a square: the denominators never vanish, the
sum is on the curve, and addition is associative (spec/43_e521.md R265, R266, R267). -/

-- One theorem after another: theorems elaborated side by side wait for each other, each on a thread of its own.
set_option Elab.async false

namespace Sys2Proof.Edwards

section Ring

variable {F : Type} [CommRing F]

/-- x² + y² = 1 + d·x²·y² (spec/43_e521.md R254). -/
def On (d x y : F) : Prop := x * x + y * y = 1 + d * (x * x) * (y * y)

/-- The term d·x₁x₂y₁y₂ of the denominators (spec/43_e521.md R261). -/
def term (d x1 y1 x2 y2 : F) : F := d * (x1 * x2 * (y1 * y2))

/-- What it is to be the sum of two points: the two quotients of the addition law, with the denominators multiplied out
(R261). -/
structure IsSum (d x1 y1 x2 y2 x3 y3 : F) : Prop where
  x : x3 * (1 + term d x1 y1 x2 y2) = x1 * y2 + y1 * x2
  y : y3 * (1 - term d x1 y1 x2 y2) = y1 * y2 - x1 * x2

/-- The order of the summands does not matter. -/
theorem IsSum.comm {d x1 y1 x2 y2 x3 y3 : F} (h : IsSum d x1 y1 x2 y2 x3 y3) : IsSum d x2 y2 x1 y1 x3 y3 := by
  obtain ⟨hx, hy⟩ := h
  unfold term at hx hy
  constructor <;> unfold term
  · linear_combination hx
  · linear_combination hy

end Ring

variable {F : Type} [Field F]

/-- If the term's square is 1, a coordinate combination times d is a square. -/
theorem square_identity {d x1 y1 x2 y2 e : F} (h1 : On d x1 y1) (h2 : On d x2 y2)
    (he : e = term d x1 y1 x2 y2) (hsq : e * e = 1) :
    (x1 + e * y1) ^ 2 = d * (x1 * y1 * (x2 + y2)) ^ 2 ∧ (x1 - e * y1) ^ 2 = d * (x1 * y1 * (x2 - y2)) ^ 2 := by
  unfold On at h1 h2
  unfold term at he
  constructor <;> grind

/-- The denominators of the addition law are not zero: Edwards addition is complete when d is not a square (R265). -/
theorem complete {d x1 y1 x2 y2 : F} (hd : ¬IsSquare d) (h2 : (2 : F) ≠ 0) (hP : On d x1 y1) (hQ : On d x2 y2) :
    1 + term d x1 y1 x2 y2 ≠ 0 ∧ 1 - term d x1 y1 x2 y2 ≠ 0 := by
  have key : ∀ e : F, e = term d x1 y1 x2 y2 → e * e ≠ 1 := by
    intro e he hsq
    obtain ⟨ha, hb⟩ := square_identity hP hQ he hsq
    have hne : x1 * y1 ≠ 0 ∧ x2 ≠ 0 := by
      constructor
      · intro h0
        have : e = 0 := by
          rw [he, term]
          linear_combination d * x2 * y2 * h0
        simp [this] at hsq
      · intro h0
        have : e = 0 := by
          rw [he, term]
          linear_combination d * x1 * y1 * y2 * h0
        simp [this] at hsq
    have noSquare : ∀ u v : F, u ^ 2 = d * (x1 * y1 * v) ^ 2 → v = 0 := by
      intro u v huv
      by_contra hv
      apply hd
      have hw : x1 * y1 * v ≠ 0 := mul_ne_zero hne.1 hv
      refine ⟨u / (x1 * y1 * v), ?_⟩
      rw [div_mul_div_comm, eq_div_iff (mul_ne_zero hw hw)]
      linear_combination -huv
    have hs := noSquare _ _ ha
    have ht := noSquare _ _ hb
    have : 2 * x2 = 0 := by linear_combination hs + ht
    rcases mul_eq_zero.mp this with h | h
    · exact h2 h
    · exact hne.2 h
  constructor
  · intro h
    exact key _ rfl (by linear_combination (term d x1 y1 x2 y2 - 1) * h)
  · intro h
    exact key _ rfl (by linear_combination -(term d x1 y1 x2 y2 + 1) * h)

/-- The numerators and denominators of a sum satisfy the curve equation. -/
theorem closed_poly {d x1 y1 x2 y2 : F} (hP : On d x1 y1) (hQ : On d x2 y2) :
    (x1 * y2 + y1 * x2) ^ 2 * (1 - term d x1 y1 x2 y2) ^ 2 + (y1 * y2 - x1 * x2) ^ 2 * (1 + term d x1 y1 x2 y2) ^ 2 =
      (1 + term d x1 y1 x2 y2) ^ 2 * (1 - term d x1 y1 x2 y2) ^ 2 +
        d * (x1 * y2 + y1 * x2) ^ 2 * (y1 * y2 - x1 * x2) ^ 2 := by
  unfold On at hP hQ
  unfold term
  grind

/-- The sum of two points of the curve is on the curve (R266). -/
theorem closed {d x1 y1 x2 y2 x3 y3 : F} (hd : ¬IsSquare d) (h2 : (2 : F) ≠ 0) (hP : On d x1 y1) (hQ : On d x2 y2)
    (hS : IsSum d x1 y1 x2 y2 x3 y3) : On d x3 y3 := by
  obtain ⟨hp, hm⟩ := complete hd h2 hP hQ
  have hpoly := closed_poly hP hQ
  obtain ⟨hx, hy⟩ := hS
  generalize term d x1 y1 x2 y2 = t at *
  rw [← hx, ← hy] at hpoly
  have hne : (1 + t) ^ 2 * (1 - t) ^ 2 ≠ 0 := mul_ne_zero (pow_ne_zero 2 hp) (pow_ne_zero 2 hm)
  apply mul_left_cancel₀ hne
  linear_combination hpoly

/-- A sum is unique. -/
theorem IsSum.unique {d x1 y1 x2 y2 x3 y3 x4 y4 : F} (hd : ¬IsSquare d) (h2 : (2 : F) ≠ 0) (hP : On d x1 y1)
    (hQ : On d x2 y2) (h3 : IsSum d x1 y1 x2 y2 x3 y3) (h4 : IsSum d x1 y1 x2 y2 x4 y4) : x3 = x4 ∧ y3 = y4 := by
  obtain ⟨hp, hm⟩ := complete hd h2 hP hQ
  exact ⟨mul_right_cancel₀ hp (h3.x.trans h4.x.symm), mul_right_cancel₀ hm (h3.y.trans h4.y.symm)⟩

/-- The x-numerators of the two bracketings of a triple sum agree. -/
theorem assoc_poly_x {d x1 y1 x2 y2 x3 y3 A B t A' B' t' : F} (h1 : On d x1 y1) (h2 : On d x2 y2) (h3 : On d x3 y3)
    (hA : A = x1 * y2 + y1 * x2) (hB : B = y1 * y2 - x1 * x2) (ht : t = term d x1 y1 x2 y2)
    (hA' : A' = x2 * y3 + y2 * x3) (hB' : B' = y2 * y3 - x2 * x3) (ht' : t' = term d x2 y2 x3 y3) :
    (A * (1 - t) * y3 + B * (1 + t) * x3) * ((1 - t' ^ 2) + d * A' * B' * x1 * y1) =
      (x1 * B' * (1 + t') + y1 * A' * (1 - t')) * ((1 - t ^ 2) + d * A * B * x3 * y3) := by
  unfold On at h1 h2 h3
  unfold term at ht ht'
  subst hA hB ht hA' hB' ht'
  grind (ringSteps := 1000000)

/-- The y-numerators of the two bracketings of a triple sum agree. -/
theorem assoc_poly_y {d x1 y1 x2 y2 x3 y3 A B t A' B' t' : F} (h1 : On d x1 y1) (h2 : On d x2 y2) (h3 : On d x3 y3)
    (hA : A = x1 * y2 + y1 * x2) (hB : B = y1 * y2 - x1 * x2) (ht : t = term d x1 y1 x2 y2)
    (hA' : A' = x2 * y3 + y2 * x3) (hB' : B' = y2 * y3 - x2 * x3) (ht' : t' = term d x2 y2 x3 y3) :
    (B * (1 + t) * y3 - A * (1 - t) * x3) * ((1 - t' ^ 2) - d * A' * B' * x1 * y1) =
      (y1 * B' * (1 + t') - x1 * A' * (1 - t')) * ((1 - t ^ 2) - d * A * B * x3 * y3) := by
  unfold On at h1 h2 h3
  unfold term at ht ht'
  subst hA hB ht hA' hB' ht'
  grind (ringSteps := 1000000)

/-- Edwards addition is associative on the curve. -/
theorem assoc {d x1 y1 x2 y2 x3 y3 X Y U V LX LY RX RY : F} (hd : ¬IsSquare d) (h2 : (2 : F) ≠ 0)
    (h1 : On d x1 y1) (hQ : On d x2 y2) (h3 : On d x3 y3)
    (hXY : IsSum d x1 y1 x2 y2 X Y) (hL : IsSum d X Y x3 y3 LX LY)
    (hUV : IsSum d x2 y2 x3 y3 U V) (hR : IsSum d x1 y1 U V RX RY) : LX = RX ∧ LY = RY := by
  have hon1 := closed hd h2 h1 hQ hXY
  have hon2 := closed hd h2 hQ h3 hUV
  obtain ⟨p12, m12⟩ := complete hd h2 h1 hQ
  obtain ⟨p23, m23⟩ := complete hd h2 hQ h3
  obtain ⟨pL, mL⟩ := complete hd h2 hon1 h3
  obtain ⟨pR, mR⟩ := complete hd h2 h1 hon2
  have hx := assoc_poly_x h1 hQ h3 rfl rfl rfl rfl rfl rfl
  have hy := assoc_poly_y h1 hQ h3 rfl rfl rfl rfl rfl rfl
  obtain ⟨a1, a2⟩ := hXY
  obtain ⟨b1, b2⟩ := hUV
  rw [← a1, ← a2, ← b1, ← b2] at hx hy
  generalize term d x1 y1 x2 y2 = t at *
  generalize term d x2 y2 x3 y3 = t' at *
  obtain ⟨l1, l2⟩ := hL
  obtain ⟨r1, r2⟩ := hR
  have q12 : (1 + t) * (1 - t) ≠ 0 := mul_ne_zero p12 m12
  have q23 : (1 + t') * (1 - t') ≠ 0 := mul_ne_zero p23 m23
  constructor
  · apply mul_right_cancel₀ (mul_ne_zero pL pR)
    apply mul_left_cancel₀ (mul_ne_zero q12 q23)
    have e1 : LX * ((1 + term d X Y x3 y3) * (1 + term d x1 y1 U V)) =
        (X * y3 + Y * x3) * (1 + term d x1 y1 U V) := by linear_combination (1 + term d x1 y1 U V) * l1
    have e2 : RX * ((1 + term d X Y x3 y3) * (1 + term d x1 y1 U V)) =
        (x1 * V + y1 * U) * (1 + term d X Y x3 y3) := by linear_combination (1 + term d X Y x3 y3) * r1
    rw [e1, e2]
    unfold term
    linear_combination hx
  · apply mul_right_cancel₀ (mul_ne_zero mL mR)
    apply mul_left_cancel₀ (mul_ne_zero q12 q23)
    have e1 : LY * ((1 - term d X Y x3 y3) * (1 - term d x1 y1 U V)) =
        (Y * y3 - X * x3) * (1 - term d x1 y1 U V) := by linear_combination (1 - term d x1 y1 U V) * l2
    have e2 : RY * ((1 - term d X Y x3 y3) * (1 - term d x1 y1 U V)) =
        (y1 * V - x1 * U) * (1 - term d X Y x3 y3) := by linear_combination (1 - term d X Y x3 y3) * r2
    rw [e1, e2]
    unfold term
    linear_combination hy

end Sys2Proof.Edwards
end

