-- ==== Sys2Proof/Laws/Field.lean ====
section
/-! SUPPORT. The field operations of Machine/Field.lean are arithmetic in ZMod p, and p is prime
(spec/00_scope.md R14; spec/93_implementation_defined.md G6). -/

-- One theorem after another: theorems elaborated side by side wait for each other, each on a thread of its own.
set_option Elab.async false

namespace Sys2Proof.Machine

/-! ### p -/

/-- The numeral is 2^521 − 1 (spec/43_e521.md R251). -/
theorem fieldP_eq : fieldP = 2 ^ 521 - 1 := by decide +kernel

/-- p is the Mersenne number of 521. -/
theorem fieldP_eq_mersenne : fieldP = mersenne 521 := fieldP_eq

/-- p is prime (Lucas–Lehmer). -/
theorem fieldP_prime : Nat.Prime fieldP := by
  rw [fieldP_eq_mersenne]
  exact lucas_lehmer_sufficiency _ (by norm_num) (by norm_num)

theorem fieldP_pos : 0 < fieldP := fieldP_prime.pos

theorem fieldP_gt : 2 < fieldP := by decide +kernel

theorem fieldP_odd : fieldP % 2 = 1 := by decide +kernel

/-- p ≡ 3 (mod 4), the precondition of the square root (spec/43_e521.md R257). -/
theorem fieldP_mod_four : fieldP % 4 = 3 := by decide +kernel

theorem fieldP_lt_pow : fieldP < 2 ^ 521 := by decide +kernel

/-! ### Ranges -/

theorem fadd_lt (a b : Nat) : fadd a b < fieldP := Nat.mod_lt _ fieldP_pos
theorem fsub_lt (a b : Nat) : fsub a b < fieldP := Nat.mod_lt _ fieldP_pos
theorem fmul_lt (a b : Nat) : fmul a b < fieldP := Nat.mod_lt _ fieldP_pos
theorem fneg_lt (a : Nat) : fneg a < fieldP := Nat.mod_lt _ fieldP_pos

/-! ### The operations in ZMod p -/

@[simp] theorem cast_fadd (a b : Nat) : (fadd a b : ZMod fieldP) = a + b := by
  simp [fadd]

@[simp] theorem cast_fmul (a b : Nat) : (fmul a b : ZMod fieldP) = a * b := by
  simp [fmul]

@[simp] theorem cast_fneg (a : Nat) : (fneg a : ZMod fieldP) = -a := by
  have h : a % fieldP ≤ fieldP := (Nat.mod_lt _ fieldP_pos).le
  simp [fneg, Nat.cast_sub h]

@[simp] theorem cast_fsub (a b : Nat) : (fsub a b : ZMod fieldP) = a - b := by
  have h : b % fieldP ≤ fieldP := (Nat.mod_lt _ fieldP_pos).le
  simp [fsub, Nat.cast_sub h, sub_eq_add_neg]

/-- Two field elements that are equal in ZMod p are equal. -/
theorem eq_of_cast_eq {a b : Nat} (ha : a < fieldP) (hb : b < fieldP) (h : (a : ZMod fieldP) = b) : a = b := by
  have := (ZMod.natCast_eq_natCast_iff' a b fieldP).mp h
  rwa [Nat.mod_eq_of_lt ha, Nat.mod_eq_of_lt hb] at this

/-- The loop of fpow computes acc · b^(e mod 2^fuel). -/
theorem cast_fpowLoop (fuel : Nat) : ∀ b e acc : Nat, e < 2 ^ fuel →
    (fpowLoop fuel b e acc : ZMod fieldP) = acc * (b : ZMod fieldP) ^ e := by
  induction fuel with
  | zero =>
    intro b e acc he
    have : e = 0 := by omega
    simp [fpowLoop, this]
  | succ n ih =>
    intro b e acc he
    have he' : e / 2 < 2 ^ n := by
      rw [Nat.div_lt_iff_lt_mul (by norm_num)]
      rw [pow_succ] at he
      exact he
    rw [fpowLoop, ih _ _ _ he']
    have hsq : ((fmul b b : Nat) : ZMod fieldP) ^ (e / 2) = (b : ZMod fieldP) ^ (2 * (e / 2)) := by
      rw [cast_fmul, ← pow_two, ← pow_mul]
    rw [hsq]
    rcases Nat.mod_two_eq_zero_or_one e with h | h
    · have h2 : 2 * (e / 2) = e := by omega
      simp [h, h2]
    · have h2 : 2 * (e / 2) + 1 = e := by omega
      rw [if_pos h, cast_fmul, mul_assoc, ← pow_succ', h2]

/-- fpow is the power in ZMod p, for every exponent the engine uses. -/
theorem cast_fpow (a e : Nat) (he : e < 2 ^ 521) : (fpow a e : ZMod fieldP) = (a : ZMod fieldP) ^ e := by
  rw [fpow, cast_fpowLoop 521 _ _ _ he]
  simp

theorem fpowLoop_lt (fuel : Nat) : ∀ b e acc : Nat, acc < fieldP → fpowLoop fuel b e acc < fieldP := by
  induction fuel with
  | zero => intro b e acc h; exact h
  | succ n ih =>
    intro b e acc h
    rw [fpowLoop]
    apply ih
    split
    · exact fmul_lt _ _
    · exact h

theorem fpow_lt (a e : Nat) : fpow a e < fieldP :=
  fpowLoop_lt _ _ _ _ (by have := fieldP_gt; omega)

/-! ### Inverse and quotient -/

theorem cast_eq_zero_iff (a : Nat) : (a : ZMod fieldP) = 0 ↔ a % fieldP = 0 := by
  rw [ZMod.natCast_eq_zero_iff, Nat.dvd_iff_mod_eq_zero]

/-- Everything finv can do: no result for 0, else the inverse, a field element. -/
theorem finv_spec (a : Nat) :
    (a % fieldP = 0 ∧ finv a = none) ∨
      (a % fieldP ≠ 0 ∧ ∃ b, finv a = some b ∧ b < fieldP ∧ (b : ZMod fieldP) = (a : ZMod fieldP)⁻¹) := by
  have : Fact (Nat.Prime fieldP) := ⟨fieldP_prime⟩
  unfold finv
  by_cases h : a % fieldP = 0
  · exact Or.inl ⟨h, if_pos h⟩
  · refine Or.inr ⟨h, fpow a (fieldP - 2), if_neg h, fpow_lt _ _, ?_⟩
    have hp := fieldP_gt
    have hlt := fieldP_lt_pow
    have ha : (a : ZMod fieldP) ≠ 0 := fun h0 => h ((cast_eq_zero_iff a).mp h0)
    rw [cast_fpow _ _ (by omega)]
    apply eq_inv_of_mul_eq_one_left
    rw [← pow_succ, show fieldP - 2 + 1 = fieldP - 1 by omega]
    exact ZMod.pow_card_sub_one_eq_one ha

/-- Everything fdiv can do: no result for a zero divisor, else the quotient, a field element. -/
theorem fdiv_spec (a b : Nat) :
    ((b : ZMod fieldP) = 0 ∧ fdiv a b = none) ∨
      ((b : ZMod fieldP) ≠ 0 ∧ ∃ c, fdiv a b = some c ∧ c < fieldP ∧ (c : ZMod fieldP) = a * (b : ZMod fieldP)⁻¹) := by
  unfold fdiv
  rcases finv_spec b with ⟨h0, hn⟩ | ⟨h0, c, hc, -, he⟩
  · exact Or.inl ⟨(cast_eq_zero_iff b).mpr h0, by rw [hn]; rfl⟩
  · refine Or.inr ⟨fun h => h0 ((cast_eq_zero_iff b).mp h), fmul a c, by rw [hc]; rfl, fmul_lt _ _, ?_⟩
    rw [cast_fmul, he]

end Sys2Proof.Machine
end

