-- ==== Sys2Proof/Laws/Curve.lean ====
section
/-! SUPPORT. What the point operations of Machine/Curve.lean do on points of the curve: they have a result, it is on the
curve, and they obey the group laws (spec/43_e521.md R254 to R267). -/

-- One theorem after another: theorems elaborated side by side wait for each other, each on a thread of its own.
set_option Elab.async false

namespace Sys2Proof.Machine

/-! ### The field and d -/

theorem two_mod_fieldP : ¬(2 % fieldP = 0) := by decide +kernel

/-- 2 is not 0 in GF(p). -/
theorem two_ne_zero_zmod : (2 : ZMod fieldP) ≠ 0 := by
  intro h
  have h2 : ((2 : Nat) : ZMod fieldP) = 0 := Nat.cast_two.trans h
  exact two_mod_fieldP ((cast_eq_zero_iff 2).mp h2)

theorem offset_le_fieldP : 376014 ≤ fieldP := by decide +kernel

theorem cast_sub_fieldP (n : Nat) (h : n ≤ fieldP) : ((fieldP - n : Nat) : ZMod fieldP) = -(n : ZMod fieldP) := by
  rw [Nat.cast_sub h, ZMod.natCast_self, zero_sub]

theorem cast_curveD : (curveD : ZMod fieldP) = -((376014 : Nat) : ZMod fieldP) :=
  cast_sub_fieldP 376014 offset_le_fieldP

/-- d is not a square mod p (spec/43_e521.md R260: Euler's criterion, here by quadratic reciprocity). -/
theorem curveD_not_square : ¬IsSquare (curveD : ZMod fieldP) := by
  have hj : jacobiSym (-376014) fieldP = -1 := by
    unfold fieldP
    norm_num
  have := ZMod.nonsquare_of_jacobiSym_eq_neg_one hj
  rw [cast_curveD]
  rwa [Int.cast_neg, Int.cast_ofNat, ← Nat.cast_ofNat] at this

/-! ### Valid points -/

/-- A point of the registers is on the curve in ZMod p. -/
theorem Point.valid_on {P : Point} (h : P.valid = true) :
    Edwards.On (curveD : ZMod fieldP) P.x P.y := by
  have h3 : onCurve P.x P.y = true := by
    simp only [Point.valid, Bool.and_eq_true] at h
    exact h.2
  have h4 := (ZMod.natCast_eq_natCast_iff' _ _ fieldP).mpr (by simpa [onCurve] using h3)
  unfold Edwards.On
  push_cast at h4
  exact h4

theorem Point.valid_x_lt {P : Point} (h : P.valid = true) : P.x < fieldP := by
  simp only [Point.valid, Bool.and_eq_true, decide_eq_true_eq] at h
  exact h.1.1

theorem Point.valid_y_lt {P : Point} (h : P.valid = true) : P.y < fieldP := by
  simp only [Point.valid, Bool.and_eq_true, decide_eq_true_eq] at h
  exact h.1.2

/-- A pair of field elements on the curve in ZMod p is a valid point. -/
theorem Point.valid_of_on {x y : Nat} (hx : x < fieldP) (hy : y < fieldP)
    (h : Edwards.On (curveD : ZMod fieldP) x y) : Point.valid ⟨x, y⟩ = true := by
  have h4 : (x * x + y * y) % fieldP = (1 + curveD * (x * x) * (y * y)) % fieldP := by
    apply (ZMod.natCast_eq_natCast_iff' _ _ fieldP).mp
    push_cast
    exact h
  simp [Point.valid, hx, hy, onCurve, h4]

/-- O satisfies R254. -/
theorem Point.identity_valid : Point.identity.valid = true := by decide +kernel

/-- G satisfies R254. -/
theorem Point.generator_valid : Point.generator.valid = true := by decide +kernel

/-- The range check and the curve check of the constructor let exactly the valid points through (R255, R256). -/
theorem pointOf_eq_some_iff (x y : Int) (P : Point) :
    pointOf x y = some P ↔ P.valid = true ∧ x = P.x ∧ y = P.y := by
  unfold pointOf Point.valid
  constructor
  · intro h
    split at h
    · rename_i hr
      split at h
      · rename_i hc
        simp only [Option.some.injEq] at h
        subst h
        refine ⟨?_, ?_, ?_⟩
        · simp only [Bool.and_eq_true, decide_eq_true_eq]
          refine ⟨⟨?_, ?_⟩, hc⟩ <;> omega
        · simp only
          omega
        · simp only
          omega
      · exact absurd h (by simp)
    · exact absurd h (by simp)
  · rintro ⟨hv, rfl, rfl⟩
    simp only [Bool.and_eq_true, decide_eq_true_eq] at hv
    rw [if_pos (by omega)]
    simp [hv.2]

/-! ### Addition -/

/-- The denominator term in ZMod p. -/
theorem cast_addTerm (P Q : Point) :
    (addTerm P Q : ZMod fieldP) = Edwards.term (curveD : ZMod fieldP) P.x P.y Q.x Q.y := by
  simp [addTerm, Edwards.term]

/-- Everything addition can do on points of the curve: it has a result, which is the sum (R261, R265, R266). -/
theorem pointAdd_spec {P Q : Point} (hP : P.valid = true) (hQ : Q.valid = true) :
    ∃ R, pointAdd P Q = some R ∧ R.valid = true ∧
      Edwards.IsSum (curveD : ZMod fieldP) P.x P.y Q.x Q.y R.x R.y := by
  have : Fact (Nat.Prime fieldP) := ⟨fieldP_prime⟩
  obtain ⟨hp, hm⟩ := Edwards.complete curveD_not_square two_ne_zero_zmod (Point.valid_on hP) (Point.valid_on hQ)
  rw [← cast_addTerm] at hp hm
  rcases fdiv_spec (fadd (fmul P.x Q.y) (fmul P.y Q.x)) (fadd 1 (addTerm P Q)) with ⟨h0, -⟩ | ⟨h0, x3, hx, hxl, hxe⟩
  · exact absurd (by simpa using h0) hp
  rcases fdiv_spec (fsub (fmul P.y Q.y) (fmul P.x Q.x)) (fsub 1 (addTerm P Q)) with ⟨h1, -⟩ | ⟨h1, y3, hy, hyl, hye⟩
  · exact absurd (by simpa using h1) hm
  have hsum : Edwards.IsSum (curveD : ZMod fieldP) P.x P.y Q.x Q.y x3 y3 := by
    constructor
    · rw [← cast_addTerm, hxe, cast_fadd 1, Nat.cast_one, mul_assoc, inv_mul_cancel₀ hp]
      simp
    · rw [← cast_addTerm, hye, cast_fsub 1, Nat.cast_one, mul_assoc, inv_mul_cancel₀ hm]
      simp
  refine ⟨⟨x3, y3⟩, ?_, ?_, hsum⟩
  · rw [pointAdd, hx, hy]
  · exact Point.valid_of_on hxl hyl
      (Edwards.closed curveD_not_square two_ne_zero_zmod (Point.valid_on hP) (Point.valid_on hQ) hsum)

/-- A valid point that is the sum in ZMod p is the result of addition. -/
theorem pointAdd_eq_of_isSum {P Q R : Point} (hP : P.valid = true) (hQ : Q.valid = true) (hR : R.valid = true)
    (h : Edwards.IsSum (curveD : ZMod fieldP) P.x P.y Q.x Q.y R.x R.y) : pointAdd P Q = some R := by
  have : Fact (Nat.Prime fieldP) := ⟨fieldP_prime⟩
  obtain ⟨T, hT, hTv, hTs⟩ := pointAdd_spec hP hQ
  obtain ⟨hx, hy⟩ := Edwards.IsSum.unique curveD_not_square two_ne_zero_zmod (Point.valid_on hP) (Point.valid_on hQ) hTs h
  have ex := eq_of_cast_eq (Point.valid_x_lt hTv) (Point.valid_x_lt hR) hx
  have ey := eq_of_cast_eq (Point.valid_y_lt hTv) (Point.valid_y_lt hR) hy
  rw [hT]
  cases T
  cases R
  simp_all

/-- Addition commutes on the curve. -/
theorem pointAdd_comm {P Q : Point} (hP : P.valid = true) (hQ : Q.valid = true) : pointAdd P Q = pointAdd Q P := by
  obtain ⟨R, hR, hRv, hRs⟩ := pointAdd_spec hP hQ
  rw [hR, pointAdd_eq_of_isSum hQ hP hRv hRs.comm]

/-- O is neutral: add(P, O) = P (R274). -/
theorem pointAdd_identity {P : Point} (hP : P.valid = true) : pointAdd P .identity = some P := by
  apply pointAdd_eq_of_isSum hP Point.identity_valid hP
  constructor <;> simp [Point.identity, Edwards.term]

/-- Negation keeps a point on the curve (R266). -/
theorem pointNeg_valid {P : Point} (hP : P.valid = true) : (pointNeg P).valid = true := by
  apply Point.valid_of_on (fneg_lt _) (Point.valid_y_lt hP)
  have := (Point.valid_on hP)
  unfold Edwards.On at *
  rw [cast_fneg]
  linear_combination this

/-- add(P, negate(P)) = O (R274). -/
theorem pointAdd_neg {P : Point} (hP : P.valid = true) : pointAdd P (pointNeg P) = some .identity := by
  apply pointAdd_eq_of_isSum hP (pointNeg_valid hP) Point.identity_valid
  have h := (Point.valid_on hP)
  unfold Edwards.On at h
  constructor
  · simp [Point.identity, pointNeg]
    ring
  · simp [Point.identity, pointNeg, Edwards.term]
    linear_combination -h

/-- Negating twice gives the point back (spec/30_encoding.md R108). -/
theorem pointNeg_pointNeg {P : Point} (hP : P.valid = true) : pointNeg (pointNeg P) = P := by
  have h : fneg (fneg P.x) = P.x := by
    apply eq_of_cast_eq (fneg_lt _) (Point.valid_x_lt hP)
    simp
  cases P
  simp_all [pointNeg]

/-- Addition is associative on the curve. -/
theorem pointAdd_assoc {P Q R S T : Point} (hP : P.valid = true) (hQ : Q.valid = true) (hR : R.valid = true)
    (hS : pointAdd P Q = some S) (hT : pointAdd Q R = some T) : pointAdd S R = pointAdd P T := by
  have : Fact (Nat.Prime fieldP) := ⟨fieldP_prime⟩
  obtain ⟨S', hS', hSv, hSs⟩ := pointAdd_spec hP hQ
  obtain ⟨T', hT', hTv, hTs⟩ := pointAdd_spec hQ hR
  obtain rfl : S = S' := by simpa [hS] using hS'
  obtain rfl : T = T' := by simpa [hT] using hT'
  obtain ⟨L, hL, hLv, hLs⟩ := pointAdd_spec hSv hR
  obtain ⟨M, hM, hMv, hMs⟩ := pointAdd_spec hP hTv
  obtain ⟨hx, hy⟩ := Edwards.assoc curveD_not_square two_ne_zero_zmod (Point.valid_on hP) (Point.valid_on hQ) (Point.valid_on hR) hSs hLs hTs hMs
  have ex := eq_of_cast_eq (Point.valid_x_lt hLv) (Point.valid_x_lt hMv) hx
  have ey := eq_of_cast_eq (Point.valid_y_lt hLv) (Point.valid_y_lt hMv) hy
  rw [hL, hM]
  cases L
  cases M
  simp_all

/-! ### Scalar multiplication -/

/-- A pass of the loop has a result on the curve. -/
theorem mulStep_valid {P V : Point} (hP : P.valid = true) (hV : V.valid = true) (bit : Bool) :
    ∃ W, mulStep P V bit = some W ∧ W.valid = true := by
  obtain ⟨D, hD, hDv, -⟩ := pointAdd_spec hV hV
  cases bit
  · exact ⟨D, by simp [mulStep, pointDouble, hD], hDv⟩
  · obtain ⟨W, hW, hWv, -⟩ := pointAdd_spec hDv hP
    exact ⟨W, by simp [mulStep, pointDouble, hD, hW], hWv⟩

/-- The loop has a result on the curve. -/
theorem mulLoop_valid {P : Point} (hP : P.valid = true) (k : Nat) : ∀ (i : Nat) (V : Point), V.valid = true →
    ∃ W, mulLoop P k i V = some W ∧ W.valid = true
  | 0, V, hV => ⟨V, rfl, hV⟩
  | i + 1, V, hV => by
    obtain ⟨W, hW, hWv⟩ := mulStep_valid hP hV (k.testBit i)
    obtain ⟨X, hX, hXv⟩ := mulLoop_valid hP k i W hWv
    exact ⟨X, by rw [mulLoop, hW]; exact hX, hXv⟩

/-- Scalar multiplication of a point of the curve has a result on the curve (R265, R266). -/
theorem scalarMul_valid {P : Point} (hP : P.valid = true) (k : Nat) :
    ∃ W, scalarMul P k = some W ∧ W.valid = true :=
  mulLoop_valid hP k _ _ Point.identity_valid

/-! ### Decompression -/

/-- The denominator 1 − d·x² of decompress is never 0 (R260). -/
theorem ySquared_spec (x : Nat) :
    ∃ v, ySquared x = some v ∧ v < fieldP ∧
      (v : ZMod fieldP) * (1 - (curveD : ZMod fieldP) * (x * x)) = 1 - (x : ZMod fieldP) * x := by
  have : Fact (Nat.Prime fieldP) := ⟨fieldP_prime⟩
  have hne : (1 : ZMod fieldP) - curveD * (x * x) ≠ 0 := by
    intro h
    apply curveD_not_square
    have hx : (x : ZMod fieldP) ≠ 0 := by
      intro h0
      simp [h0] at h
    refine ⟨(x : ZMod fieldP)⁻¹, ?_⟩
    field_simp
    linear_combination -h
  unfold ySquared
  rcases fdiv_spec (fsub 1 (fmul x x)) (fsub 1 (fmul curveD (fmul x x))) with ⟨h0, -⟩ | ⟨-, v, hv, hvl, hve⟩
  · exact absurd (by simpa using h0) hne
  · refine ⟨v, hv, hvl, ?_⟩
    rw [hve]
    simp only [cast_fsub, cast_fmul, Nat.cast_one]
    rw [mul_assoc, inv_mul_cancel₀ hne, mul_one]

/-- A root that sqrt_mod_p returns is a field element whose square is v (R257). -/
theorem sqrtModP_sound {v t : Nat} {lsb : Bool} (h : sqrtModP v lsb = some t) : t < fieldP ∧ fmul t t = v := by
  unfold sqrtModP at h
  have key : ∀ t' : Nat, t' < fieldP → (if fmul t' t' = v then some t' else none) = some t →
      t < fieldP ∧ fmul t t = v := by
    intro t' hlt h'
    split at h'
    · rename_i hsq
      simp only [Option.some.injEq] at h'
      subst h'
      exact ⟨hlt, hsq⟩
    · exact absurd h' (by simp)
  apply key _ _ h
  split
  · exact fpow_lt _ _
  · exact fneg_lt _

/-- A point decompress returns is on the curve (R260). -/
theorem decompress_valid {x v t : Nat} {lsb : Bool} (hx : x < fieldP) (hv : ySquared x = some v)
    (ht : sqrtModP v lsb = some t) : Point.valid ⟨x, t⟩ = true := by
  obtain ⟨htl, hsq⟩ := sqrtModP_sound ht
  obtain ⟨v', hv', -, hve⟩ := ySquared_spec x
  obtain rfl : v = v' := by simpa [hv] using hv'
  apply Point.valid_of_on hx htl
  have hcast : (v : ZMod fieldP) = (t : ZMod fieldP) * t := by rw [← hsq, cast_fmul]
  rw [hcast] at hve
  unfold Edwards.On
  linear_combination hve

/-- sqrt_mod_p finds a root of every square, with the wanted parity unless the root is 0 (R257; p ≡ 3 (mod 4)). -/
theorem sqrtModP_complete {v y : Nat} (hv : v < fieldP) (lsb : Bool) (h : (y : ZMod fieldP) * y = v) :
    ∃ t, sqrtModP v lsb = some t ∧ (t % 2 = lsb.toNat ∨ t = 0) := by
  have : Fact (Nat.Prime fieldP) := ⟨fieldP_prime⟩
  have hp4 := fieldP_mod_four
  have hgt := fieldP_gt
  set r := fpow v ((fieldP + 1) / 4) with hr
  have hrl : r < fieldP := fpow_lt _ _
  have hcast : (r : ZMod fieldP) * r = v := by
    rw [hr, cast_fpow _ _ (by have := fieldP_lt_pow; omega), ← pow_add,
      show (fieldP + 1) / 4 + (fieldP + 1) / 4 = (fieldP - 1) / 2 + 1 by omega, pow_succ]
    by_cases hz : (v : ZMod fieldP) = 0
    · rw [hz]
      simp
    · have h1 : (v : ZMod fieldP) ^ ((fieldP - 1) / 2) = 1 := by
        rw [← h, ← sq, ← pow_mul, show 2 * ((fieldP - 1) / 2) = fieldP - 1 by omega]
        apply ZMod.pow_card_sub_one_eq_one
        rintro hy
        apply hz
        rw [← h, hy]
        simp
      rw [h1, one_mul]
  have hmul : fmul r r = v := eq_of_cast_eq (fmul_lt _ _) hv (by rw [cast_fmul]; exact hcast)
  have hneg : fmul (fneg r) (fneg r) = v :=
    eq_of_cast_eq (fmul_lt _ _) hv (by rw [cast_fmul, cast_fneg, neg_mul_neg]; exact hcast)
  unfold sqrtModP
  simp only [← hr]
  by_cases c : r % 2 = lsb.toNat
  · rw [if_pos c, if_pos hmul]
    exact ⟨_, rfl, Or.inl c⟩
  · rw [if_neg c, if_pos hneg]
    refine ⟨_, rfl, ?_⟩
    by_cases hz : r = 0
    · right
      rw [hz]
      decide +kernel
    · left
      have hn : fneg r = fieldP - r := by
        unfold fneg
        rw [Nat.mod_eq_of_lt hrl, Nat.mod_eq_of_lt (by omega)]
      have := fieldP_odd
      rw [hn]
      cases lsb <;> simp only [Bool.toNat_true, Bool.toNat_false] at c ⊢ <;> omega

end Sys2Proof.Machine
end

