-- ==== Sys2Proof/Laws/Decode.lean ====
section
/-! SUPPORT. The command format: a word and its fields determine each other, and the opcode map read both ways. -/

-- One theorem after another: theorems elaborated side by side wait for each other, each on a thread of its own.
set_option Elab.async false

namespace Sys2Proof

/-- The fields of a word put together from fields are those fields. -/
@[simp] theorem fieldsOf_wordOf (f : Fields) : fieldsOf (wordOf f) = f := by
  obtain ⟨opc, n, sx, rd, ra, rb, z⟩ := f
  simp only [fieldsOf, wordOf, Fields.mk.injEq]
  refine ⟨?_, ?_, ?_, ?_, ?_, ?_, ?_⟩ <;>
  · apply BitVec.eq_of_getLsbD_eq
    intro i hi
    simp only [BitVec.getLsbD_extractLsb', BitVec.getLsbD_append]
    interval_cases i <;> simp

/-- The word put together from a word's fields is that word. -/
@[simp] theorem wordOf_fieldsOf (w : Word) : wordOf (fieldsOf w) = w := by
  apply BitVec.eq_of_getLsbD_eq
  intro i hi
  simp only [fieldsOf, wordOf, BitVec.getLsbD_extractLsb', BitVec.getLsbD_append]
  interval_cases i <;> simp

/-- A word is determined by its fields. -/
theorem fieldsOf_injective {w w' : Word} (h : fieldsOf w = fieldsOf w') : w = w' := by
  rw [← wordOf_fieldsOf w, ← wordOf_fieldsOf w', h]

@[simp] theorem Opcode.ofByte_byte (o : Opcode) : Opcode.ofByte o.byte = some o := by
  cases o <;> rfl

/-- Only an opcode's own byte is read as that opcode. -/
theorem Opcode.byte_of_ofByte : ∀ (b : Byte) (o : Opcode), Opcode.ofByte b = some o → o.byte = b := by
  decide +kernel

@[simp] theorem PReg.ofBits_bits (d : PReg) : PReg.ofBits d.bits = d := by
  cases d <;> rfl

@[simp] theorem PReg.bits_ofBits : ∀ v : BitVec 2, (PReg.ofBits v).bits = v := by
  decide

/-- What R104 asks of the fields of a legal word with an assigned opcode. -/
structure Opcode.Accepts (o : Opcode) (f : Fields) : Prop where
  n : o.uses.n = false → f.n = 0
  sx : o.uses.sx = false → f.sx = 0
  rd : o.uses.rd = false → f.rd = 0
  ra : o.uses.ra = false → f.ra = 0
  rb : o.uses.rb = false → f.rb = 0
  z : f.z = 0
  parity : o = .pdec → f.sx.toNat ≤ 1

/-- Once for all what the decoder's checks do: it accepts exactly the fields R104 accepts, and answers the command of the
opcode with those operands. -/
theorem decodeFields_ok_iff (f : Fields) (i : Instr) :
    decodeFields f = .ok i ↔ ∃ o, Opcode.ofByte f.opc = some o ∧ o.Accepts f ∧ i = o.instr f := by
  unfold decodeFields
  cases ho : Opcode.ofByte f.opc with
  | none => simp
  | some o =>
    simp only [Option.some.injEq, exists_eq_left']
    constructor
    · intro h
      split_ifs at h
      refine ⟨⟨?_, ?_, ?_, ?_, ?_, ?_, ?_⟩, ?_⟩ <;> simp_all
    · rintro ⟨⟨h1, h2, h3, h4, h5, h6, h7⟩, rfl⟩
      have e : ∀ (b : Bool) {w : Nat} (v : BitVec w), (b = false → v = 0) → (!b && v != 0) = false := by
        intro b w v h
        cases b <;> simp_all
      rw [e _ _ h1, e _ _ h2, e _ _ h3, e _ _ h4, e _ _ h5, h6]
      have h8 : (o == Opcode.pdec && decide (1 < f.sx.toNat)) = false := by
        by_cases hp : o = Opcode.pdec
        · have := h7 hp
          simp [hp]
          omega
        · simp [hp]
      simp [h8]

/-- The opcode of the command an accepted word decodes to is the word's own. -/
@[simp] theorem Opcode.instr_opcode (o : Opcode) (f : Fields) : (o.instr f).opcode = o := by
  cases o <;> rfl

end Sys2Proof
end

