-- ==== Sys2Proof/Laws/Keccak.lean ====
section
/-! SUPPORT. Reads of the 5×5 grid of lanes and of S, and the lane map and its inverse (spec/10_state.md R35,
spec/40_keccak_permutation.md R137). -/

-- One theorem after another: theorems elaborated side by side wait for each other, each on a thread of its own.
set_option Elab.async false

namespace Sys2Proof.Machine

/-! ### The grid -/

@[simp] theorem Five.get_build {α : Type} (f : Fin 5 → α) (i : Fin 5) : (Five.build f).get i = f i := by
  fin_cases i <;> rfl

@[simp] theorem lane_lanesOf (f : Fin 5 → Fin 5 → Lane) (x y : Fin 5) : lane (lanesOf f) x y = f x y := by
  simp [lane, lanesOf]

/-- Two five-tuples with the same entries are equal. -/
theorem Five.eq_of_get {α : Type} {r r' : Five α} (h : ∀ i, r.get i = r'.get i) : r = r' := by
  obtain ⟨a, b, c, d, e⟩ := r
  obtain ⟨a', b', c', d', e'⟩ := r'
  have h0 := h 0
  have h1 := h 1
  have h2 := h 2
  have h3 := h 3
  have h4 := h 4
  simp only [Five.get] at h0 h1 h2 h3 h4
  simp [h0, h1, h2, h3, h4]

/-- Two grids with the same lanes are equal. -/
theorem lanes_ext {A B : Lanes} (h : ∀ x y, lane A x y = lane B x y) : A = B :=
  Five.eq_of_get fun x => Five.eq_of_get fun y => h x y

/-! ### S -/

@[simp] theorem spongeOf_getElem (f : Nat → Byte) (i : Nat) (hi : i < 200) : (spongeOf f)[i] = f i := by
  simp [spongeOf]

@[simp] theorem xorBlock_getElem (S : SpongeBytes) (B : List Byte) (i : Nat) (hi : i < 200) :
    (xorBlock S B)[i] = S[i] ^^^ B.getD i 0 := by
  simp [xorBlock]

@[simp] theorem bytesOfLanes_getElem (A : Lanes) (i : Nat) (hi : i < 200) :
    (bytesOfLanes A)[i] = byteOfLanes A ⟨i, hi⟩ := by
  simp [bytesOfLanes]

@[simp] theorem laneBytes_length (S : SpongeBytes) (x y : Fin 5) : (laneBytes S x y).length = 8 := by
  simp [laneBytes]

/-- The j-th byte of a lane's bytes is byte 8·(x+5y)+j of S. -/
theorem laneBytes_getElem (S : SpongeBytes) (x y : Fin 5) (j : Nat) (hj : j < (laneBytes S x y).length) :
    (laneBytes S x y)[j] = S[8 * (x.val + 5 * y.val) + j]'(by
      simp at hj
      omega) := by
  have h8 : j < 8 := by simpa using hj
  have hlt : 8 * (x.val + 5 * y.val) + j < S.toList.length := by
    simp
    omega
  simp only [laneBytes, List.getElem_map, List.getElem_range]
  rw [← List.getElem_eq_getD (h := hlt)]
  simp

/-- Byte j of lane (x, y) is byte 8·(x+5y)+j of S (spec/10_state.md R35). -/
theorem lanesOfBytes_byte (S : SpongeBytes) (x y : Fin 5) (j : Nat) (hj : j < 8) :
    (lane (lanesOfBytes S) x y).extractLsb' (8 * j) 8 = S[8 * (x.val + 5 * y.val) + j]'(by omega) := by
  have hlen : j < (laneBytes S x y).length := by simpa using hj
  have hlt : ule (laneBytes S x y) < 2 ^ 64 := by
    have := ule_lt (laneBytes S x y)
    simpa using this
  apply BitVec.eq_of_toNat_eq
  rw [← laneBytes_getElem S x y j hlen, ← ule_byte _ j hlen]
  simp only [lanesOfBytes, lane_lanesOf, BitVec.extractLsb'_toNat, BitVec.toNat_ofNat, Nat.shiftRight_eq_div_pow]
  rw [Nat.mod_eq_of_lt hlt]

/-- The byte view of the lane view of S is S (R137). -/
theorem bytesOfLanes_lanesOfBytes (S : SpongeBytes) : bytesOfLanes (lanesOfBytes S) = S := by
  apply Vector.ext
  intro i hi
  rw [bytesOfLanes_getElem, byteOfLanes, lanesOfBytes_byte _ _ _ _ (Nat.mod_lt _ (by norm_num))]
  congr 1
  simp only
  omega

/-- Two lanes with the same eight bytes are equal. -/
theorem lane_eq_of_bytes {v w : Lane} (h : ∀ j < 8, v.extractLsb' (8 * j) 8 = w.extractLsb' (8 * j) 8) : v = w := by
  apply BitVec.eq_of_getLsbD_eq
  intro i hi
  have hb := congrArg (fun b : Byte => b.getLsbD (i % 8)) (h (i / 8) (by omega))
  simp only [BitVec.getLsbD_extractLsb', Nat.mod_lt i (show 0 < 8 by norm_num), decide_true, Bool.true_and] at hb
  rwa [Nat.div_add_mod] at hb

/-- The lane view of the byte view of a grid is the grid (R137). -/
theorem lanesOfBytes_bytesOfLanes (A : Lanes) : lanesOfBytes (bytesOfLanes A) = A := by
  apply lanes_ext
  intro x y
  apply lane_eq_of_bytes
  intro j hj
  rw [lanesOfBytes_byte _ _ _ _ hj, bytesOfLanes_getElem, byteOfLanes]
  have h1 : (8 * (x.val + 5 * y.val) + j) % 8 = j := by omega
  have h2 : (⟨(8 * (x.val + 5 * y.val) + j) / 8 % 5, by omega⟩ : Fin 5) = x := Fin.ext (by simp only; omega)
  have h3 : (⟨(8 * (x.val + 5 * y.val) + j) / 8 / 5, by omega⟩ : Fin 5) = y := Fin.ext (by simp only; omega)
  simp only [h1, h2, h3]

/-- The lanes of F(S) are the 24 rounds on the lanes of S (R137). -/
theorem lanesOfBytes_keccakF (S : SpongeBytes) : lanesOfBytes (keccakF S) = keccakRounds (lanesOfBytes S) :=
  lanesOfBytes_bytesOfLanes _

/-! ### Padding -/

@[simp] theorem padding_length (q : Nat) (s : Byte) : (padding q s).length = q - 1 + 1 := by
  simp [padding]

/-- The bytes of the padding: s first, 0x80 XORed into the last (spec/41_sponge.md R170, R173). -/
theorem padding_getD (q : Nat) (s : Byte) (i : Nat) (hi : i < q) :
    (padding q s).getD i 0 = (if i = 0 then s else 0) ^^^ (if i = q - 1 then 0x80 else 0) := by
  have hg : ∀ i, (s :: List.replicate (q - 1) (0 : Byte)).getD i 0 = if i = 0 then s else 0 := by
    intro i
    cases i with
    | zero => rfl
    | succ i => simp
  unfold padding
  simp only
  rw [List.getD_eq_getElem?_getD, List.getElem?_set]
  by_cases h : q - 1 = i
  · subst h
    rw [if_pos rfl, if_pos (by simp), Option.getD_some, hg]
    simp
  · rw [if_neg h, ← List.getD_eq_getElem?_getD, hg]
    simp [Ne.symm h]

end Sys2Proof.Machine
end

