-- ==== Sys2Proof/Laws/Memory.lean ====
section
/-! SUPPORT. What the operations on DBUF do: reads after a write, and the canonical form. -/

-- One theorem after another: theorems elaborated side by side wait for each other, each on a thread of its own.
set_option Elab.async false

namespace Sys2Proof.Machine

/-- Looking a key up in the cells that satisfy a property of keys the key has. -/
theorem lookup_filter_keep (m : Memory) (q : Nat → Bool) (x : Nat) (hx : q x = true) :
    (m.filter fun c => q c.1).lookup x = m.lookup x := by
  induction m with
  | nil => rfl
  | cons c cs ih =>
    by_cases hk : x = c.1
    · subst hk
      rw [List.filter_cons_of_pos (by simpa using hx)]
      simp [List.lookup]
    · have hb : (x == c.1) = false := by simpa using hk
      by_cases hq : q c.1 = true
      · simp [hq, List.lookup, hb, ih]
      · simp [hq, List.lookup, hb, ih]

/-- Looking a key up in the cells that satisfy a property of keys the key lacks. -/
theorem lookup_filter_drop (m : Memory) (q : Nat → Bool) (x : Nat) (hx : q x = false) :
    (m.filter fun c => q c.1).lookup x = none := by
  rw [List.lookup_eq_none_iff]
  intro c hc
  have hq : q c.1 = true := (List.mem_filter.mp hc).2
  by_contra h
  have : x = c.1 := by simpa using h
  rw [this, hq] at hx
  exact absurd hx (by decide)

/-- A cell of a run holds a byte of the run that differs from an unlisted one, at an offset of the run. -/
theorem Memory.mem_cells {a : Nat} {bs : List Byte} {c : Host.Cell} (hc : c ∈ Memory.cells a bs) :
    c.2 ≠ Memory.unlisted ∧ a ≤ c.1 ∧ c.1 < a + bs.length := by
  induction bs generalizing a with
  | nil => simp [Memory.cells] at hc
  | cons b bs ih =>
    by_cases hb : b = Memory.unlisted
    · rw [Memory.cells, if_pos hb] at hc
      have := ih hc
      simp only [List.length_cons]
      exact ⟨this.1, by omega, by omega⟩
    · rw [Memory.cells, if_neg hb, List.mem_cons] at hc
      simp only [List.length_cons]
      rcases hc with rfl | hc
      · exact ⟨hb, by omega, by omega⟩
      · have := ih hc
        exact ⟨this.1, by omega, by omega⟩

/-- The cells of a run have strictly rising offsets. -/
theorem Memory.cells_pairwise (a : Nat) (bs : List Byte) :
    (Memory.cells a bs).Pairwise fun c c' => c.1 < c'.1 := by
  induction bs generalizing a with
  | nil => simp [Memory.cells]
  | cons b bs ih =>
    by_cases hb : b = Memory.unlisted
    · rw [Memory.cells, if_pos hb]
      exact ih (a + 1)
    · rw [Memory.cells, if_neg hb, List.pairwise_cons]
      refine ⟨fun c hc => ?_, ih (a + 1)⟩
      have := (Memory.mem_cells hc).2.1
      omega

/-- Looking an offset up in the cells of a run, outside the run. -/
theorem Memory.lookup_cells_outside (a : Nat) (bs : List Byte) (x : Nat) (hx : x < a ∨ a + bs.length ≤ x) :
    (Memory.cells a bs).lookup x = none := by
  rw [List.lookup_eq_none_iff]
  intro c hc
  have := Memory.mem_cells hc
  have hne : x ≠ c.1 := by omega
  simpa using hne

/-- Looking an offset up in the cells of a run, inside the run. -/
theorem Memory.lookup_cells_inside (a : Nat) (bs : List Byte) (j : Nat) (hj : j < bs.length) :
    ((Memory.cells a bs).lookup (a + j)).getD Memory.unlisted = bs[j] := by
  induction bs generalizing a j with
  | nil => simp at hj
  | cons b bs ih =>
    by_cases hb : b = Memory.unlisted
    · rw [Memory.cells, if_pos hb]
      cases j with
      | zero =>
        rw [Memory.lookup_cells_outside _ _ _ (Or.inl (by omega))]
        simp [hb]
      | succ j =>
        have := ih (a + 1) j (by simpa using hj)
        rw [show a + (j + 1) = a + 1 + j by omega, this]
        simp
    · rw [Memory.cells, if_neg hb]
      cases j with
      | zero => simp [List.lookup]
      | succ j =>
        have := ih (a + 1) j (by simpa using hj)
        have hne : (a + (j + 1) == a) = false := by simp
        rw [show a + 1 + j = a + (j + 1) by omega] at this
        rw [List.lookup, hne]
        simpa using this

/-- A write leaves every offset outside its bytes as it was. -/
theorem Memory.read_write_outside (m : Memory) (a : Nat) (bs : List Byte) (x : Nat)
    (hx : x < a ∨ a + bs.length ≤ x) : (m.write a bs).read x = m.read x := by
  unfold Memory.read Memory.write
  rw [List.lookup_append, List.lookup_append, Memory.lookup_cells_outside a bs x hx]
  rcases hx with hx | hx
  · rw [lookup_filter_keep m (fun k => decide (k < a)) x (by simpa using hx),
      lookup_filter_drop m (fun k => decide (a + bs.length ≤ k)) x (by simp; omega)]
    simp
  · rw [lookup_filter_drop m (fun k => decide (k < a)) x (by simp; omega),
      lookup_filter_keep m (fun k => decide (a + bs.length ≤ k)) x (by simpa using hx)]
    simp

/-- A read after a write gives the byte written. -/
theorem Memory.read_write_inside (m : Memory) (a : Nat) (bs : List Byte) (j : Nat) (hj : j < bs.length) :
    (m.write a bs).read (a + j) = bs[j] := by
  unfold Memory.read Memory.write
  rw [List.lookup_append, List.lookup_append,
    lookup_filter_drop m (fun k => decide (k < a)) (a + j) (by simp),
    lookup_filter_drop m (fun k => decide (a + bs.length ≤ k)) (a + j) (by simp; omega)]
  simpa using Memory.lookup_cells_inside a bs j hj

/-- A write inside DBUF keeps the canonical form. -/
theorem Memory.wf_write {m : Memory} (hm : m.wf) (a : Nat) (bs : List Byte) (ha : dbufBase ≤ a)
    (hb : a + bs.length ≤ dbufEnd) : (m.write a bs).wf := by
  obtain ⟨hp, hc⟩ := hm
  unfold Memory.write
  refine ⟨?_, ?_⟩
  · rw [List.pairwise_append, List.pairwise_append]
    refine ⟨⟨hp.filter _, Memory.cells_pairwise a bs, ?_⟩, hp.filter _, ?_⟩
    · intro c h1 c' h2
      have := (List.mem_filter.mp h1).2
      have := Memory.mem_cells h2
      simp at *
      omega
    · intro c h1 c' h2
      have h2 := (List.mem_filter.mp h2).2
      rcases List.mem_append.mp h1 with h1 | h1
      · have h1 := (List.mem_filter.mp h1).2
        simp at h1 h2
        omega
      · have h1 := Memory.mem_cells h1
        simp at h2
        omega
  · intro c h
    rcases List.mem_append.mp h with h | h
    · rcases List.mem_append.mp h with h | h
      · exact hc c (List.mem_filter.mp h).1
      · have := Memory.mem_cells h
        exact ⟨this.1, by omega, by omega⟩
    · exact hc c (List.mem_filter.mp h).1

/-- The empty memory is in canonical form. -/
theorem Memory.wf_nil : Memory.wf [] := by
  refine ⟨List.Pairwise.nil, ?_⟩
  intro c hc
  cases hc

/-- The byte that a listed cell of a canonical memory holds is what its offset reads as. -/
theorem Memory.read_of_mem {m : Memory} (hm : m.wf) {c : Host.Cell} (hc : c ∈ m) : m.read c.1 = c.2 := by
  obtain ⟨hp, -⟩ := hm
  unfold Memory.read
  induction m with
  | nil => cases hc
  | cons e es ih =>
    rw [List.pairwise_cons] at hp
    rcases List.mem_cons.mp hc with rfl | hc
    · simp [List.lookup]
    · have hlt := hp.1 c hc
      have hne : (c.1 == e.1) = false := by
        simp only [beq_eq_false_iff_ne]
        omega
      rw [List.lookup, hne]
      exact ih hc hp.2

/-- An offset that does not read as unlisted is listed. -/
theorem Memory.mem_of_read {m : Memory} {a : Nat} (h : m.read a ≠ Memory.unlisted) : (a, m.read a) ∈ m := by
  unfold Memory.read at *
  induction m with
  | nil => simp [List.lookup] at h
  | cons e es ih =>
    by_cases hk : a = e.1
    · subst hk
      simp [List.lookup]
    · have hb : (a == e.1) = false := by simpa using hk
      simp only [List.lookup, hb] at h ⊢
      exact List.mem_cons_of_mem _ (ih h)

/-- Two canonical memories that read the same everywhere are equal. -/
theorem Memory.eq_of_read_eq {m m' : Memory} (hm : m.wf) (hm' : m'.wf) (h : ∀ a, m.read a = m'.read a) : m = m' := by
  have sub : ∀ {m m' : Memory}, m.wf → m'.wf → (∀ a, m.read a = m'.read a) → ∀ c ∈ m, c ∈ m' := by
    intro m m' hm hm' h c hc
    have h1 := Memory.read_of_mem hm hc
    have h2 : m'.read c.1 ≠ Memory.unlisted := by
      rw [← h, h1]
      exact (hm.2 c hc).1
    have h3 := Memory.mem_of_read h2
    rw [← h, h1] at h3
    exact h3
  have nd : ∀ {m : Memory}, m.wf → m.Nodup := fun hm =>
    hm.1.imp fun {a b} hlt he => by
      rw [he] at hlt
      omega
  have hperm : m.Perm m' :=
    (List.perm_ext_iff_of_nodup (nd hm) (nd hm')).mpr fun c =>
      ⟨sub hm hm' h c, sub hm' hm (fun a => (h a).symm) c⟩
  exact hperm.eq_of_pairwise (fun a b _ _ h1 h2 => absurd h2 (by omega)) hm.1 hm'.1

end Sys2Proof.Machine
end

