-- ==== Sys2Proof/Laws/State.lean ====
section
/-! SUPPORT. One lemma per field per named update of State, each true by rfl, and the point-register accessors, so that no
proof unfolds a record update. -/

-- One theorem after another: theorems elaborated side by side wait for each other, each on a thread of its own.
set_option Elab.async false

namespace Sys2Proof.Machine

/-! ### State.setSponge -/

@[simp] theorem State.setSponge_sponge (s : State) (v : SpongeBytes) : (s.setSponge v).sponge = v := rfl
@[simp] theorem State.setSponge_rate (s : State) (v : SpongeBytes) : (s.setSponge v).rate = s.rate := rfl
@[simp] theorem State.setSponge_dbuf (s : State) (v : SpongeBytes) : (s.setSponge v).dbuf = s.dbuf := rfl
@[simp] theorem State.setSponge_pr (s : State) (v : SpongeBytes) : (s.setSponge v).pr = s.pr := rfl
@[simp] theorem State.setSponge_k (s : State) (v : SpongeBytes) : (s.setSponge v).k = s.k := rfl
@[simp] theorem State.setSponge_err (s : State) (v : SpongeBytes) : (s.setSponge v).err = s.err := rfl
@[simp] theorem State.setSponge_ovr (s : State) (v : SpongeBytes) : (s.setSponge v).ovr = s.ovr := rfl
@[simp] theorem State.setSponge_cmdl (s : State) (v : SpongeBytes) : (s.setSponge v).cmdl = s.cmdl := rfl
@[simp] theorem State.setSponge_turns (s : State) (v : SpongeBytes) : (s.setSponge v).turns = s.turns := rfl
@[simp] theorem State.setSponge_replies (s : State) (v : SpongeBytes) : (s.setSponge v).replies = s.replies := rfl
@[simp] theorem State.setSponge_freeIdx (s : State) (v : SpongeBytes) : (s.setSponge v).freeIdx = s.freeIdx := rfl
@[simp] theorem State.setSponge_dbufByte (s : State) (v : SpongeBytes) (j : Nat) : (s.setSponge v).dbufByte j = s.dbufByte j := rfl
@[simp] theorem State.setSponge_busy (s : State) (v : SpongeBytes) : (s.setSponge v).busy = s.busy := rfl

/-! ### State.setRate -/

@[simp] theorem State.setRate_sponge (s : State) (n : Byte) : (s.setRate n).sponge = s.sponge := rfl
@[simp] theorem State.setRate_rate (s : State) (n : Byte) : (s.setRate n).rate = n := rfl
@[simp] theorem State.setRate_dbuf (s : State) (n : Byte) : (s.setRate n).dbuf = s.dbuf := rfl
@[simp] theorem State.setRate_pr (s : State) (n : Byte) : (s.setRate n).pr = s.pr := rfl
@[simp] theorem State.setRate_k (s : State) (n : Byte) : (s.setRate n).k = s.k := rfl
@[simp] theorem State.setRate_err (s : State) (n : Byte) : (s.setRate n).err = s.err := rfl
@[simp] theorem State.setRate_ovr (s : State) (n : Byte) : (s.setRate n).ovr = s.ovr := rfl
@[simp] theorem State.setRate_cmdl (s : State) (n : Byte) : (s.setRate n).cmdl = s.cmdl := rfl
@[simp] theorem State.setRate_turns (s : State) (n : Byte) : (s.setRate n).turns = s.turns := rfl
@[simp] theorem State.setRate_replies (s : State) (n : Byte) : (s.setRate n).replies = s.replies := rfl
@[simp] theorem State.setRate_freeIdx (s : State) (n : Byte) : (s.setRate n).freeIdx = s.freeIdx := rfl
@[simp] theorem State.setRate_dbufByte (s : State) (n : Byte) (j : Nat) : (s.setRate n).dbufByte j = s.dbufByte j := rfl
@[simp] theorem State.setRate_busy (s : State) (n : Byte) : (s.setRate n).busy = s.busy := rfl

/-! ### State.setDbuf -/

@[simp] theorem State.setDbuf_sponge (s : State) (i : Nat) (bs : List Byte) : (s.setDbuf i bs).sponge = s.sponge := rfl
@[simp] theorem State.setDbuf_rate (s : State) (i : Nat) (bs : List Byte) : (s.setDbuf i bs).rate = s.rate := rfl
@[simp] theorem State.setDbuf_dbuf (s : State) (i : Nat) (bs : List Byte) : (s.setDbuf i bs).dbuf = s.dbuf.write (dbufBase + i) bs := rfl
@[simp] theorem State.setDbuf_pr (s : State) (i : Nat) (bs : List Byte) : (s.setDbuf i bs).pr = s.pr := rfl
@[simp] theorem State.setDbuf_k (s : State) (i : Nat) (bs : List Byte) : (s.setDbuf i bs).k = s.k := rfl
@[simp] theorem State.setDbuf_err (s : State) (i : Nat) (bs : List Byte) : (s.setDbuf i bs).err = s.err := rfl
@[simp] theorem State.setDbuf_ovr (s : State) (i : Nat) (bs : List Byte) : (s.setDbuf i bs).ovr = s.ovr := rfl
@[simp] theorem State.setDbuf_cmdl (s : State) (i : Nat) (bs : List Byte) : (s.setDbuf i bs).cmdl = s.cmdl := rfl
@[simp] theorem State.setDbuf_turns (s : State) (i : Nat) (bs : List Byte) : (s.setDbuf i bs).turns = s.turns := rfl
@[simp] theorem State.setDbuf_replies (s : State) (i : Nat) (bs : List Byte) : (s.setDbuf i bs).replies = s.replies := rfl
@[simp] theorem State.setDbuf_freeIdx (s : State) (i : Nat) (bs : List Byte) : (s.setDbuf i bs).freeIdx = s.freeIdx := rfl
@[simp] theorem State.setDbuf_busy (s : State) (i : Nat) (bs : List Byte) : (s.setDbuf i bs).busy = s.busy := rfl

/-! ### State.setPr -/

@[simp] theorem State.setPr_sponge (s : State) (d : PReg) (P : Point) : (s.setPr d P).sponge = s.sponge := rfl
@[simp] theorem State.setPr_rate (s : State) (d : PReg) (P : Point) : (s.setPr d P).rate = s.rate := rfl
@[simp] theorem State.setPr_dbuf (s : State) (d : PReg) (P : Point) : (s.setPr d P).dbuf = s.dbuf := rfl
@[simp] theorem State.setPr_pr (s : State) (d : PReg) (P : Point) : (s.setPr d P).pr = s.pr.set d P := rfl
@[simp] theorem State.setPr_k (s : State) (d : PReg) (P : Point) : (s.setPr d P).k = s.k := rfl
@[simp] theorem State.setPr_err (s : State) (d : PReg) (P : Point) : (s.setPr d P).err = s.err := rfl
@[simp] theorem State.setPr_ovr (s : State) (d : PReg) (P : Point) : (s.setPr d P).ovr = s.ovr := rfl
@[simp] theorem State.setPr_cmdl (s : State) (d : PReg) (P : Point) : (s.setPr d P).cmdl = s.cmdl := rfl
@[simp] theorem State.setPr_turns (s : State) (d : PReg) (P : Point) : (s.setPr d P).turns = s.turns := rfl
@[simp] theorem State.setPr_replies (s : State) (d : PReg) (P : Point) : (s.setPr d P).replies = s.replies := rfl
@[simp] theorem State.setPr_freeIdx (s : State) (d : PReg) (P : Point) : (s.setPr d P).freeIdx = s.freeIdx := rfl
@[simp] theorem State.setPr_dbufByte (s : State) (d : PReg) (P : Point) (j : Nat) : (s.setPr d P).dbufByte j = s.dbufByte j := rfl
@[simp] theorem State.setPr_busy (s : State) (d : PReg) (P : Point) : (s.setPr d P).busy = s.busy := rfl

/-! ### State.setK -/

@[simp] theorem State.setK_sponge (s : State) (v : BitVec 528) : (s.setK v).sponge = s.sponge := rfl
@[simp] theorem State.setK_rate (s : State) (v : BitVec 528) : (s.setK v).rate = s.rate := rfl
@[simp] theorem State.setK_dbuf (s : State) (v : BitVec 528) : (s.setK v).dbuf = s.dbuf := rfl
@[simp] theorem State.setK_pr (s : State) (v : BitVec 528) : (s.setK v).pr = s.pr := rfl
@[simp] theorem State.setK_k (s : State) (v : BitVec 528) : (s.setK v).k = v := rfl
@[simp] theorem State.setK_err (s : State) (v : BitVec 528) : (s.setK v).err = s.err := rfl
@[simp] theorem State.setK_ovr (s : State) (v : BitVec 528) : (s.setK v).ovr = s.ovr := rfl
@[simp] theorem State.setK_cmdl (s : State) (v : BitVec 528) : (s.setK v).cmdl = s.cmdl := rfl
@[simp] theorem State.setK_turns (s : State) (v : BitVec 528) : (s.setK v).turns = s.turns := rfl
@[simp] theorem State.setK_replies (s : State) (v : BitVec 528) : (s.setK v).replies = s.replies := rfl
@[simp] theorem State.setK_freeIdx (s : State) (v : BitVec 528) : (s.setK v).freeIdx = s.freeIdx := rfl
@[simp] theorem State.setK_dbufByte (s : State) (v : BitVec 528) (j : Nat) : (s.setK v).dbufByte j = s.dbufByte j := rfl
@[simp] theorem State.setK_busy (s : State) (v : BitVec 528) : (s.setK v).busy = s.busy := rfl

/-! ### State.finish -/

@[simp] theorem State.finish_sponge (s : State) : (s.finish).sponge = s.sponge := rfl
@[simp] theorem State.finish_rate (s : State) : (s.finish).rate = s.rate := rfl
@[simp] theorem State.finish_dbuf (s : State) : (s.finish).dbuf = s.dbuf := rfl
@[simp] theorem State.finish_pr (s : State) : (s.finish).pr = s.pr := rfl
@[simp] theorem State.finish_k (s : State) : (s.finish).k = s.k := rfl
@[simp] theorem State.finish_err (s : State) : (s.finish).err = s.err := rfl
@[simp] theorem State.finish_ovr (s : State) : (s.finish).ovr = s.ovr := rfl
@[simp] theorem State.finish_cmdl (s : State) : (s.finish).cmdl = none := rfl
@[simp] theorem State.finish_turns (s : State) : (s.finish).turns = s.turns := rfl
@[simp] theorem State.finish_replies (s : State) : (s.finish).replies = s.replies := rfl
@[simp] theorem State.finish_freeIdx (s : State) : (s.finish).freeIdx = s.freeIdx := rfl
@[simp] theorem State.finish_dbufByte (s : State) (j : Nat) : (s.finish).dbufByte j = s.dbufByte j := rfl
@[simp] theorem State.finish_busy (s : State) : (s.finish).busy = false := rfl

/-! ### State.raise -/

@[simp] theorem State.raise_sponge (s : State) (e : ErrCode) : (s.raise e).sponge = s.sponge := rfl
@[simp] theorem State.raise_rate (s : State) (e : ErrCode) : (s.raise e).rate = s.rate := rfl
@[simp] theorem State.raise_dbuf (s : State) (e : ErrCode) : (s.raise e).dbuf = s.dbuf := rfl
@[simp] theorem State.raise_pr (s : State) (e : ErrCode) : (s.raise e).pr = s.pr := rfl
@[simp] theorem State.raise_k (s : State) (e : ErrCode) : (s.raise e).k = s.k := rfl
@[simp] theorem State.raise_err (s : State) (e : ErrCode) : (s.raise e).err = e.code := rfl
@[simp] theorem State.raise_ovr (s : State) (e : ErrCode) : (s.raise e).ovr = s.ovr := rfl
@[simp] theorem State.raise_cmdl (s : State) (e : ErrCode) : (s.raise e).cmdl = none := rfl
@[simp] theorem State.raise_turns (s : State) (e : ErrCode) : (s.raise e).turns = s.turns := rfl
@[simp] theorem State.raise_replies (s : State) (e : ErrCode) : (s.raise e).replies = s.replies := rfl
@[simp] theorem State.raise_freeIdx (s : State) (e : ErrCode) : (s.raise e).freeIdx = s.freeIdx := rfl
@[simp] theorem State.raise_dbufByte (s : State) (e : ErrCode) (j : Nat) : (s.raise e).dbufByte j = s.dbufByte j := rfl
@[simp] theorem State.raise_busy (s : State) (e : ErrCode) : (s.raise e).busy = false := rfl

/-! ### State.clearErrors -/

@[simp] theorem State.clearErrors_sponge (s : State) : (s.clearErrors).sponge = s.sponge := rfl
@[simp] theorem State.clearErrors_rate (s : State) : (s.clearErrors).rate = s.rate := rfl
@[simp] theorem State.clearErrors_dbuf (s : State) : (s.clearErrors).dbuf = s.dbuf := rfl
@[simp] theorem State.clearErrors_pr (s : State) : (s.clearErrors).pr = s.pr := rfl
@[simp] theorem State.clearErrors_k (s : State) : (s.clearErrors).k = s.k := rfl
@[simp] theorem State.clearErrors_err (s : State) : (s.clearErrors).err = 0 := rfl
@[simp] theorem State.clearErrors_ovr (s : State) : (s.clearErrors).ovr = false := rfl
@[simp] theorem State.clearErrors_cmdl (s : State) : (s.clearErrors).cmdl = s.cmdl := rfl
@[simp] theorem State.clearErrors_turns (s : State) : (s.clearErrors).turns = s.turns := rfl
@[simp] theorem State.clearErrors_replies (s : State) : (s.clearErrors).replies = s.replies := rfl
@[simp] theorem State.clearErrors_freeIdx (s : State) : (s.clearErrors).freeIdx = s.freeIdx := rfl
@[simp] theorem State.clearErrors_dbufByte (s : State) (j : Nat) : (s.clearErrors).dbufByte j = s.dbufByte j := rfl
@[simp] theorem State.clearErrors_busy (s : State) : (s.clearErrors).busy = s.busy := rfl

/-! ### State.resetEngine -/

@[simp] theorem State.resetEngine_sponge (s : State) : (s.resetEngine).sponge = State.reset.sponge := rfl
@[simp] theorem State.resetEngine_rate (s : State) : (s.resetEngine).rate = State.reset.rate := rfl
@[simp] theorem State.resetEngine_dbuf (s : State) : (s.resetEngine).dbuf = State.reset.dbuf := rfl
@[simp] theorem State.resetEngine_pr (s : State) : (s.resetEngine).pr = State.reset.pr := rfl
@[simp] theorem State.resetEngine_k (s : State) : (s.resetEngine).k = State.reset.k := rfl
@[simp] theorem State.resetEngine_err (s : State) : (s.resetEngine).err = State.reset.err := rfl
@[simp] theorem State.resetEngine_ovr (s : State) : (s.resetEngine).ovr = State.reset.ovr := rfl
@[simp] theorem State.resetEngine_cmdl (s : State) : (s.resetEngine).cmdl = State.reset.cmdl := rfl
@[simp] theorem State.resetEngine_turns (s : State) : (s.resetEngine).turns = s.turns := rfl
@[simp] theorem State.resetEngine_replies (s : State) : (s.resetEngine).replies = s.replies := rfl
@[simp] theorem State.resetEngine_freeIdx (s : State) : (s.resetEngine).freeIdx = s.freeIdx := rfl
@[simp] theorem State.resetEngine_busy (s : State) : (s.resetEngine).busy = false := rfl

/-! ### State.reply -/

@[simp] theorem State.reply_sponge (s : State) (v : Word) : (s.reply v).sponge = s.sponge := rfl
@[simp] theorem State.reply_rate (s : State) (v : Word) : (s.reply v).rate = s.rate := rfl
@[simp] theorem State.reply_dbuf (s : State) (v : Word) : (s.reply v).dbuf = s.dbuf := rfl
@[simp] theorem State.reply_pr (s : State) (v : Word) : (s.reply v).pr = s.pr := rfl
@[simp] theorem State.reply_k (s : State) (v : Word) : (s.reply v).k = s.k := rfl
@[simp] theorem State.reply_err (s : State) (v : Word) : (s.reply v).err = s.err := rfl
@[simp] theorem State.reply_ovr (s : State) (v : Word) : (s.reply v).ovr = s.ovr := rfl
@[simp] theorem State.reply_cmdl (s : State) (v : Word) : (s.reply v).cmdl = s.cmdl := rfl
@[simp] theorem State.reply_turns (s : State) (v : Word) : (s.reply v).turns = s.turns := rfl
@[simp] theorem State.reply_replies (s : State) (v : Word) : (s.reply v).replies = s.replies ++ [v] := rfl
@[simp] theorem State.reply_freeIdx (s : State) (v : Word) : (s.reply v).freeIdx = s.freeIdx := rfl
@[simp] theorem State.reply_dbufByte (s : State) (v : Word) (j : Nat) : (s.reply v).dbufByte j = s.dbufByte j := rfl
@[simp] theorem State.reply_busy (s : State) (v : Word) : (s.reply v).busy = s.busy := rfl

/-! ### Point registers -/

/-- A write to PR[d] is read back at PR[d] and leaves the others. -/
theorem PointRegs.get_set (r : PointRegs) (d e : PReg) (P : Point) :
    (r.set d P).get e = if e = d then P else r.get e := by
  cases d <;> cases e <;> rfl

@[simp] theorem PointRegs.get_set_same (r : PointRegs) (d : PReg) (P : Point) : (r.set d P).get d = P := by
  simp [PointRegs.get_set]

theorem PointRegs.get_set_other (r : PointRegs) {d e : PReg} (P : Point) (h : e ≠ d) : (r.set d P).get e = r.get e := by
  simp [PointRegs.get_set, h]

/-- Writing a valid point keeps the point registers valid. -/
theorem PointRegs.valid_set {r : PointRegs} (hr : r.valid) (d : PReg) {P : Point} (hP : P.valid = true) :
    (r.set d P).valid := by
  intro e
  rw [PointRegs.get_set]
  split
  · exact hP
  · exact hr e

/-! ### DBUF bytes -/

/-- DBUF[j] after a write of bytes at DBUF[i], inside them. -/
theorem State.setDbuf_dbufByte_inside (s : State) (i j : Nat) (bs : List Byte) (hj : j < bs.length) :
    (s.setDbuf i bs).dbufByte (i + j) = bs[j] := by
  have := Memory.read_write_inside s.dbuf (dbufBase + i) bs j hj
  rw [show dbufBase + i + j = dbufBase + (i + j) by omega] at this
  exact this

/-- DBUF[j] after a write of bytes at DBUF[i], outside them. -/
theorem State.setDbuf_dbufByte_outside (s : State) (i j : Nat) (bs : List Byte) (hj : j < i ∨ i + bs.length ≤ j) :
    (s.setDbuf i bs).dbufByte j = s.dbufByte j :=
  Memory.read_write_outside s.dbuf (dbufBase + i) bs (dbufBase + j) (by omega)

@[simp] theorem State.dbufBytes_length (s : State) (n : Nat) : (s.dbufBytes n).length = n := by
  simp [State.dbufBytes]

@[simp] theorem State.getElem_dbufBytes (s : State) (n i : Nat) (h : i < (s.dbufBytes n).length) :
    (s.dbufBytes n)[i] = s.dbufByte i := by
  simp [State.dbufBytes]

/-- DBUF[0..n−1] depends on the memory alone. -/
theorem State.dbufBytes_congr {s t : State} (h : s.dbuf = t.dbuf) (n : Nat) : s.dbufBytes n = t.dbufBytes n := by
  simp [State.dbufBytes, State.dbufByte, h]

end Sys2Proof.Machine
end

