-- ==== Sys2Proof/Laws/Exec.lean ====
section
/-! SUPPORT. Once for all what a command and a bus access can do: every proof about `exec`, `hostAccess` or `step` cites the
case lemmas of this file instead of unfolding them, and the pieces of the invariant `Inv` stand beside them. -/

-- One theorem after another: theorems elaborated side by side wait for each other, each on a thread of its own.
set_option Elab.async false

namespace Sys2Proof.Machine

/-! ### Commands -/

/-- The commands that end with an error raise one of these kinds (spec/60_exceptions.md R322). -/
def Raises : Instr → ErrCode → Prop
  | .sinit _, e => e = .badRate
  | .sabs, e => e = .noRate
  | .ssqz, e => e = .noRate
  | .sfin _ _, e => e = .noRate ∨ e = .badLength ∨ e = .invalidSuffix
  | .pld _ _, e => e = .badLength ∨ e = .notOnCurve
  | .kld _, e => e = .badLength
  | .pdec _ _ _, e => e = .badLength ∨ e = .notOnCurve ∨ e = .noSuchPoint
  | _, _ => False

/-- The shapes a command's outcome can have. -/
inductive Ends (i : Instr) (s : State) : Host.Outcome State Fault Refusal → Prop where
  /-- The command fails: one of its errors, nothing else. -/
  | error (e : ErrCode) (h : Raises i e) : Ends i s (.next (s.raise e))
  /-- SPERM, SLD, SABS, SFIN: a new S. -/
  | sponge (S : SpongeBytes) (h : i = .sperm ∨ i = .sld ∨ i = .sabs ∨ ∃ n sx, i = .sfin n sx) :
      Ends i s (.next (s.setSponge S).finish)
  /-- SINIT: a zero S and a legal rate. -/
  | fresh (n : Nat) (h : i = .sinit n) (h1 : 1 ≤ n) (h2 : n ≤ 199) :
      Ends i s (.next ((s.setSponge freshSponge).setRate (BitVec.ofNat 8 n)).finish)
  /-- SST: the bytes of S in DBUF. -/
  | stored (h : i = .sst) : Ends i s (.next (s.setDbuf 0 s.sponge.toList).finish)
  /-- SSQZ: the rate part of S in DBUF, then F. -/
  | squeezed (h : i = .ssqz) (hr : s.rate ≠ 0) :
      Ends i s (.next ((s.setDbuf 0 (s.sponge.toList.take s.rate.toNat)).setSponge (keccakF s.sponge)).finish)
  /-- PST: a point's encoding in DBUF. -/
  | encoded (a : PReg) (h : i = .pst a) : Ends i s (.next (s.setDbuf 0 (toBytes (s.pr.get a))).finish)
  /-- The point loads and operations: a new PR[d], a valid point where the point registers hold valid points. -/
  | point (d : PReg) (P : Point) (hP : s.pr.valid → P.valid = true)
      (h : i = .pldo d ∨ i = .pldg d ∨ (∃ n, i = .pld d n) ∨ (∃ a b, i = .padd d a b) ∨ (∃ a, i = .pdbl d a) ∨
        (∃ a, i = .pneg d a) ∨ (∃ a, i = .pmul d a) ∨ ∃ n lsb, i = .pdec d n lsb) :
      Ends i s (.next (s.setPr d P).finish)
  /-- KLD: a new K. -/
  | scalar (n : Nat) (h : i = .kld n) (v : BitVec 528) : Ends i s (.next (s.setK v).finish)
  /-- The model fault of finv(0), only where some point register holds no valid point. -/
  | internal (h : ¬s.pr.valid) : Ends i s (.fault .internalFault)

/-- A point operation with a result on valid registers ends well there. -/
theorem ends_finishPoint {i : Instr} {s : State} {d : PReg} {r : Option Point}
    (hr : s.pr.valid → ∃ P, r = some P ∧ P.valid = true)
    (h : i = .pldo d ∨ i = .pldg d ∨ (∃ n, i = .pld d n) ∨ (∃ a b, i = .padd d a b) ∨ (∃ a, i = .pdbl d a) ∨
      (∃ a, i = .pneg d a) ∨ (∃ a, i = .pmul d a) ∨ ∃ n lsb, i = .pdec d n lsb) :
    Ends i s (s.finishPoint d r) := by
  cases r with
  | none =>
    refine Ends.internal fun hv => ?_
    obtain ⟨P, hP, -⟩ := hr hv
    exact absurd hP (by simp)
  | some P =>
    refine Ends.point d P (fun hv => ?_) h
    obtain ⟨Q, hQ, hQv⟩ := hr hv
    rw [Option.some.injEq] at hQ
    exact hQ ▸ hQv

/-- Everything from_bytes can do on 132 bytes: a valid point, or NotOnCurve (spec/43_e521.md R259, R272). -/
theorem fromBytes_cases (B : List Byte) (hB : B.length = pointBytes) :
    (∃ P, fromBytes B = .ok P ∧ P.valid = true ∧ sbe (B.take coordBytes) = P.x ∧ sbe (B.drop coordBytes) = P.y) ∨
      (fromBytes B = .error .notOnCurve ∧ pointOf (sbe (B.take coordBytes)) (sbe (B.drop coordBytes)) = none) := by
  unfold fromBytes
  rw [if_pos hB]
  cases h : pointOf (sbe (B.take coordBytes)) (sbe (B.drop coordBytes)) with
  | none => exact Or.inr ⟨rfl, rfl⟩
  | some P =>
    obtain ⟨hv, hx, hy⟩ := (pointOf_eq_some_iff _ _ _).mp h
    exact Or.inl ⟨P, rfl, hv, hx, hy⟩

/-- Everything a command can do. -/
theorem exec_cases (i : Instr) (s : State) : Ends i s (exec i s) := by
  cases i with
  | sperm => exact .sponge _ (Or.inl rfl)
  | sld => exact .sponge _ (Or.inr (Or.inl rfl))
  | sst => exact .stored rfl
  | sinit n =>
    simp only [exec, execSinit]
    split
    · exact .error _ rfl
    · exact .fresh n rfl (by omega) (by omega)
  | sabs =>
    simp only [exec, execSabs]
    split
    · exact .error _ rfl
    · exact .sponge _ (Or.inr (Or.inr (Or.inl rfl)))
  | sfin n sx =>
    simp only [exec, execSfin]
    split
    · exact .error _ (Or.inl rfl)
    · split
      · exact .error _ (Or.inr (Or.inl rfl))
      · split
        · exact .error _ (Or.inr (Or.inr rfl))
        · exact .sponge _ (Or.inr (Or.inr (Or.inr ⟨n, sx, rfl⟩)))
  | ssqz =>
    simp only [exec, execSsqz]
    split
    · exact .error _ rfl
    · rename_i h
      exact .squeezed rfl h
  | pldo d => exact .point d _ (fun _ => Point.identity_valid) (Or.inl rfl)
  | pldg d => exact .point d _ (fun _ => Point.generator_valid) (Or.inr (Or.inl rfl))
  | pld d n =>
    simp only [exec, execPld]
    split
    · rcases fromBytes_cases (s.dbufBytes pointBytes) (s.dbufBytes_length _) with ⟨P, hP, hv, -⟩ | ⟨hn, -⟩
      · rw [hP]
        exact .point d P (fun _ => hv) (Or.inr (Or.inr (Or.inl ⟨n, rfl⟩)))
      · rw [hn]
        exact .error _ (Or.inr rfl)
    · exact .error _ (Or.inl rfl)
  | pst a => exact .encoded a rfl
  | padd d a b =>
    refine ends_finishPoint (fun hv => ?_) (Or.inr (Or.inr (Or.inr (Or.inl ⟨a, b, rfl⟩))))
    obtain ⟨R, hR, hRv, -⟩ := pointAdd_spec (hv a) (hv b)
    exact ⟨R, hR, hRv⟩
  | pdbl d a =>
    refine ends_finishPoint (fun hv => ?_) (Or.inr (Or.inr (Or.inr (Or.inr (Or.inl ⟨a, rfl⟩)))))
    obtain ⟨R, hR, hRv, -⟩ := pointAdd_spec (hv a) (hv a)
    exact ⟨R, hR, hRv⟩
  | pneg d a => exact .point d _ (fun hv => pointNeg_valid (hv a)) (Or.inr (Or.inr (Or.inr (Or.inr (Or.inr (Or.inl ⟨a, rfl⟩))))))
  | pmul d a =>
    exact ends_finishPoint (fun hv => scalarMul_valid (hv a) _)
      (Or.inr (Or.inr (Or.inr (Or.inr (Or.inr (Or.inr (Or.inl ⟨a, rfl⟩)))))))
  | kld n =>
    simp only [exec, execKld]
    split
    · exact .error _ rfl
    · exact .scalar n rfl _
  | pdec d n lsb =>
    simp only [exec, execPdec]
    split
    · split
      · rename_i hx
        obtain ⟨v, hv, -, -⟩ := ySquared_spec (sbe (s.dbufBytes coordBytes)).toNat
        cases ht : sqrtModP v lsb with
        | none =>
          simp only [hv, ht]
          exact .error _ (Or.inr (Or.inr rfl))
        | some t =>
          simp only [hv, ht]
          refine .point d _ (fun _ => ?_) (Or.inr (Or.inr (Or.inr (Or.inr (Or.inr (Or.inr (Or.inr ⟨n, lsb, rfl⟩)))))))
          exact decompress_valid (by omega) hv ht
      · exact .error _ (Or.inr (Or.inl rfl))
    · exact .error _ (Or.inl rfl)

/-- What no command changes, and that it ends: BUSY <- 0, OVR and the model's own fields as they were. -/
theorem exec_next_interface {i : Instr} {s t : State} (h : exec i s = .next t) :
    t.cmdl = none ∧ t.ovr = s.ovr ∧ t.turns = s.turns ∧ t.replies = s.replies ∧ t.freeIdx = s.freeIdx := by
  have hc := exec_cases i s
  generalize exec i s = o at hc h
  cases hc <;> first
    | (rw [Host.Outcome.next.injEq] at h; subst h; simp)
    | exact absurd h (by simp)

/-! ### Pieces of the invariant -/

theorem ErrCode.legal_of_raises {i : Instr} {e : ErrCode} (h : Raises i e) : legalErr e.code = true := by
  cases i <;> simp only [Raises] at h
  all_goals first
    | exact h.elim
    | (subst h; decide)
    | (rcases h with rfl | rfl <;> decide)
    | (rcases h with rfl | rfl | rfl <;> decide)

/-- A state whose engine fields are those of another one that meets the invariant meets it. -/
theorem Inv.congr {s t : State} (hs : Inv s) (h1 : t.dbuf = s.dbuf) (h2 : t.rate = s.rate) (h3 : t.pr = s.pr)
    (h4 : t.err = s.err) (h5 : t.cmdl = s.cmdl) : Inv t := by
  obtain ⟨a, b, c, d, e⟩ := hs
  refine ⟨h1 ▸ a, h2 ▸ b, h3 ▸ c, h4 ▸ d, ?_⟩
  unfold State.busy
  rw [h4, h5]
  exact e

/-- The reset values meet the invariant, whatever the model's own fields hold. -/
theorem Inv.resetEngine (s : State) : Inv s.resetEngine := by
  refine ⟨Memory.wf_nil, (by decide : (0 : Byte).toNat ≤ 199), ?_, (by decide : legalErr 0 = true), fun h => absurd h (by simp [State.busy, State.reset])⟩
  intro d
  cases d <;> exact Point.identity_valid

/-- A bus access keeps or extends the replies and changes no other field of the model's own but the counter. -/
theorem State.drawn_cases (s : State) (off : Nat) : s.drawn off = s ∨ s.drawn off = { s with freeIdx := s.freeIdx + 1 } := by
  unfold State.drawn
  split
  · exact Or.inr rfl
  · exact Or.inl rfl

/-! ### Bus accesses -/

/-- The shapes an accepted access can have. -/
inductive Touches (a : Access) (s : State) : State → Prop where
  /-- A read of a register. -/
  | registerRead (v : Word) (k : Nat) (h : a.op = .read) (ho : a.off.val < dbufBase) :
      Touches a s ({ s with freeIdx := k }.reply v)
  /-- A CMD write. -/
  | command (w : Word) (h : a.op = .write w) (ho : a.off.val = offCmd) : Touches a s (s.submit w)
  /-- A CTRL write. -/
  | control (v : Word) (h : a.op = .write v) (ho : a.off.val = offCtrl) : Touches a s (s.control v)
  /-- A write that is ignored. -/
  | ignored (v : Word) (h : a.op = .write v) (ho : a.off.val < dbufBase) (h1 : a.off.val ≠ offCmd)
      (h2 : a.off.val ≠ offCtrl) : Touches a s s
  /-- A read of DBUF. -/
  | dbufRead (h : a.op = .read) (ho : dbufBase ≤ a.off.val) (hb : s.busy = false) :
      Touches a s (s.reply (s.dbufWord (a.off.val - dbufBase) (a.bits / 8)))
  /-- A write of DBUF. -/
  | dbufWrite (v : Word) (h : a.op = .write v) (ho : dbufBase ≤ a.off.val) (hb : s.busy = false) :
      Touches a s (s.setDbuf (a.off.val - dbufBase) (busBytes v (a.bits / 8)))

/-- Everything a bus access can do. -/
theorem hostAccess_cases (a : Access) (s : State) :
    (a.accepted = false ∧ hostAccess a s = .fault .busError) ∨
      (a.accepted = true ∧ dbufBase ≤ a.off.val ∧ s.busy = true ∧ hostAccess a s = .fault .hostHazard) ∨
      (a.accepted = true ∧ ∃ t, hostAccess a s = .next t ∧ Touches a s t) := by
  unfold hostAccess
  by_cases ha : a.accepted = false
  · exact Or.inl ⟨ha, if_pos ha⟩
  · rw [if_neg ha]
    have ha' : a.accepted = true := by simpa using ha
    by_cases ho : a.off.val < dbufBase
    · refine Or.inr (Or.inr ⟨ha', _, if_pos ho, ?_⟩)
      cases hop : a.op with
      | read =>
        rcases s.drawn_cases a.off.val with h | h
        · have hs : s = { s with freeIdx := s.freeIdx } := rfl
          simp only [registerAccess, State.readRegister, h]
          exact Touches.registerRead _ s.freeIdx hop ho
        · simp only [registerAccess, State.readRegister, h]
          exact Touches.registerRead _ _ hop ho
      | write v =>
        simp only [registerAccess, State.writeRegister]
        split
        · rename_i h
          exact Touches.command v hop h
        · split
          · rename_i h
            exact Touches.control v hop h
          · exact Touches.ignored v hop ho ‹_› ‹_›
    · rw [if_neg ho]
      by_cases hb : s.busy = true
      · exact Or.inr (Or.inl ⟨ha', by omega, hb, if_pos hb⟩)
      · refine Or.inr (Or.inr ⟨ha', _, if_neg hb, ?_⟩)
        have hb' : s.busy = false := by simpa using hb
        cases hop : a.op with
        | read => exact Touches.dbufRead hop (by omega) hb'
        | write v => exact Touches.dbufWrite v hop (by omega) hb'

/-- An accepted access to DBUF is 1, 2 or 4 bytes that lie in DBUF (spec/20_memory.md R72). -/
theorem Access.accepted_dbuf {a : Access} (h : a.accepted = true) (ho : dbufBase ≤ a.off.val) :
    (a.bits / 8 = 1 ∨ a.bits / 8 = 2 ∨ a.bits / 8 = 4) ∧ a.off.val + a.bits / 8 ≤ dbufEnd := by
  unfold Access.accepted at h
  rw [if_neg (by omega), decide_eq_true_eq] at h
  have hlt := a.off.isLt
  unfold dbufEnd
  rcases h with h | ⟨h, h'⟩ | ⟨h, h'⟩ <;> rw [h] <;> omega

@[simp] theorem busBytes_length (v : Word) (n : Nat) : (busBytes v n).length = n := by
  simp [busBytes]

end Sys2Proof.Machine
end

