-- ==== Sys2Proof/Laws/HostProcedures.lean ====
section
/-! SUPPORT. What each piece of a host sequence does: a run in two parts, a write and a read of DBUF byte by byte, the
polling loop, and one command (spec/30_encoding.md R109, spec/70_reset_and_hazards.md R373). -/

-- One theorem after another: theorems elaborated side by side wait for each other, each on a thread of its own.
set_option Elab.async false

namespace Sys2Proof.Machine

/-- A sequence whose first part ends in `t` goes on from `t`. -/
theorem runTurns_append {a b : List Turn} {s t : State} (h : runTurns a s = .next t) : runTurns (a ++ b) s = runTurns b t := by
  induction a generalizing s with
  | nil =>
    obtain rfl := Host.Outcome.next.inj h
    rfl
  | cons x xs ih =>
    simp only [List.cons_append, runTurns] at h ⊢
    cases hx : runTurn x s with
    | next u =>
      rw [hx] at h
      exact ih h
    | fault r =>
      rw [hx] at h
      cases h
    | refused r =>
      rw [hx] at h
      cases h

theorem dbufOff_val {i : Nat} (h : i < 256) : (dbufOff i).val = dbufBase + i := by
  simp only [dbufOff, dbufBase]
  omega

/-- A byte access of DBUF on an idle engine. -/
theorem runTurn_dbuf {s : State} (hb : s.busy = false) {i : Nat} (h : i < 256) (op : BusOp) :
    runTurn (.host ⟨dbufOff i, 8, op⟩) s = .next (dbufAccess i 1 op s) := by
  have ho := dbufOff_val h
  simp only [runTurn, hostAccess]
  rw [if_neg, if_neg, if_neg]
  · rw [ho, Nat.add_sub_cancel_left]
  · simp [hb]
  · omega
  · simp only [Access.accepted]
    rw [if_neg (by omega)]
    simp

theorem busBytes_byte (b : Byte) : busBytes (b.setWidth 32) 1 = [b] := by
  simp only [busBytes, List.range_one, List.map_cons, List.map_nil, List.cons.injEq, and_true]
  apply BitVec.eq_of_getLsbD_eq
  intro i hi
  simp only [BitVec.getLsbD_extractLsb', BitVec.getLsbD_setWidth]
  simp [hi]
  omega

/-- `wbuf i, bytes` on an idle engine writes those bytes of DBUF and nothing else. -/
theorem wbuf_spec (B : List Byte) : ∀ (i : Nat) (s : State), s.busy = false → i + B.length ≤ 256 →
    ∃ m, runTurns (wbuf i B) s = .next { s with dbuf := m } ∧
      ∀ j, m.read (dbufBase + j) = if i ≤ j ∧ j < i + B.length then B.getD (j - i) 0 else s.dbufByte j := by
  induction B with
  | nil =>
    intro i s hb h
    exact ⟨s.dbuf, rfl, fun j => by rw [if_neg (by simp)]; rfl⟩
  | cons b bs ih =>
    intro i s hb h
    simp only [List.length_cons] at h
    have e1 : runTurn (.host ⟨dbufOff i, 8, .write (b.setWidth 32)⟩) s = .next (s.setDbuf i [b]) := by
      rw [runTurn_dbuf hb (by omega)]
      simp only [dbufAccess, busBytes_byte]
    obtain ⟨m, h1, h2⟩ := ih (i + 1) (s.setDbuf i [b]) (by simpa using hb) (by omega)
    refine ⟨m, ?_, ?_⟩
    · simp only [wbuf, runTurns, e1]
      rw [h1]
      rfl
    · intro j
      rw [h2 j]
      simp only [List.length_cons]
      by_cases c : j = i
      · subst c
        rw [if_neg (by omega), if_pos (by omega)]
        have := State.setDbuf_dbufByte_inside s j 0 [b] (by simp)
        simpa using this
      · rw [State.setDbuf_dbufByte_outside s i j [b] (by simp; omega)]
        by_cases c2 : i + 1 ≤ j ∧ j < i + 1 + bs.length
        · rw [if_pos c2, if_pos (by omega)]
          obtain ⟨k, rfl⟩ : ∃ k, j = i + 1 + k := ⟨j - (i + 1), by omega⟩
          rw [show i + 1 + k - i = k + 1 by omega, show i + 1 + k - (i + 1) = k by omega]
          rfl
        · rw [if_neg c2, if_neg (by omega)]

theorem dbufWord_byte (s : State) (i : Nat) : s.dbufWord i 1 = (s.dbufByte i).setWidth 32 := by
  apply BitVec.eq_of_toNat_eq
  simp [State.dbufWord, State.dbufSlice, ule]

/-- `rbuf i, n` on an idle engine returns the n bytes and changes nothing. -/
theorem rbuf_spec (n : Nat) : ∀ (i : Nat) (s : State), s.busy = false → i + n ≤ 256 →
    runTurns (rbuf i n) s =
      .next { s with replies := s.replies ++ (List.range n).map fun j => (s.dbufByte (i + j)).setWidth 32 } := by
  induction n with
  | zero =>
    intro i s hb h
    simp [rbuf, runTurns]
  | succ n ih =>
    intro i s hb h
    have h1 := ih i s hb (by omega)
    unfold rbuf at *
    rw [List.range_succ, List.map_append, runTurns_append h1]
    have h2 : ∀ u : State, u.busy = false → runTurn (.host ⟨dbufOff (i + n), 8, .read⟩) u = .next (dbufAccess (i + n) 1 .read u) :=
      fun u hu => runTurn_dbuf hu (by omega) .read
    simp only [List.map_cons, List.map_nil, runTurns]
    rw [h2 _ (by simpa [State.busy] using hb)]
    simp only [dbufAccess, State.reply, dbufWord_byte, List.map_append, List.map_cons, List.map_nil, List.append_assoc]
    rfl

/-- STATUS reads of the polling loop change nothing but the replies. -/
theorem polls_spec (n : Nat) (s : State) :
    ∃ r, runTurns (List.replicate n (rd32 0x004)) s = .next { s with replies := s.replies ++ r } := by
  induction n generalizing s with
  | zero => exact ⟨[], by simp [runTurns]⟩
  | succ n ih =>
    obtain ⟨r, hr⟩ := ih (s.reply s.statusWord)
    refine ⟨s.statusWord :: r, ?_⟩
    simp only [List.replicate_succ, runTurns]
    rw [show runTurn (rd32 0x004) s = .next (s.reply s.statusWord) from rfl]
    simp only
    rw [hr]
    simp [State.reply]

/-- `cmd i` on an idle engine without an error executes i, with its word latched and the polls' replies recorded. -/
theorem cmd_spec (polls : Nat) {i : Instr} (hi : decode (encode i) = .ok i) {s : State} (hb : s.cmdl = none) (he : s.err = 0) :
    ∃ r, ∀ t, exec i { s with cmdl := some (encode i), replies := s.replies ++ r } = .next t →
      runTurns (cmd polls i) s = .next (t.reply t.statusWord) := by
  have e1 : runTurn (wr32 0x000 (encode i)) s = .next { s with cmdl := some (encode i) } := by
    show Host.Outcome.next (s.submit (encode i)) = _
    unfold State.submit
    rw [if_pos ⟨by simp [State.busy, hb], he⟩]
  obtain ⟨r, hr⟩ := polls_spec polls { s with cmdl := some (encode i) }
  refine ⟨r, ?_⟩
  intro t ht
  unfold cmd
  simp only [runTurns, e1]
  rw [runTurns_append hr]
  simp only [runTurns, runTurn, engineStep, runWord, hi]
  simp only [ht]
  rfl

end Sys2Proof.Machine
end

