-- ==== Sys2Proof/Laws/PerInstr.lean ====
section
/-! SUPPORT. What holds of every command as syntax, one lemma per constructor of Instr. -/

-- One theorem after another: theorems elaborated side by side wait for each other, each on a thread of its own.
set_option Elab.async false

namespace Sys2Proof.Laws.LegalFields

open Sys2Proof

/-- The word of a well-formed command carries the command's opcode, and its fields pass every check of
spec/30_encoding.md R104: the fields its opcode does not use are zero, so are bits 1:0, and PDEC's parity is 0 or 1. -/
def Statement (i : Instr) : Prop :=
  i.wellFormed = true → (fieldsOf (encode i)).opc = i.opcode.byte ∧ i.opcode.Accepts (fieldsOf (encode i))

theorem sperm : Statement .sperm := fun _ => by
  refine ⟨by simp [encode]; rfl, ?_⟩
  constructor <;> simp [encode, encodeFields, bareFields, Instr.opcode, Opcode.uses]

theorem sld : Statement .sld := fun _ => by
  refine ⟨by simp [encode]; rfl, ?_⟩
  constructor <;> simp [encode, encodeFields, bareFields, Instr.opcode, Opcode.uses]

theorem sst : Statement .sst := fun _ => by
  refine ⟨by simp [encode]; rfl, ?_⟩
  constructor <;> simp [encode, encodeFields, bareFields, Instr.opcode, Opcode.uses]

theorem sinit (n : Nat) : Statement (.sinit n) := fun _ => by
  refine ⟨by simp [encode]; rfl, ?_⟩
  constructor <;> simp [encode, encodeFields, bareFields, Instr.opcode, Opcode.uses]

theorem sabs : Statement .sabs := fun _ => by
  refine ⟨by simp [encode]; rfl, ?_⟩
  constructor <;> simp [encode, encodeFields, bareFields, Instr.opcode, Opcode.uses]

theorem sfin (n : Nat) (s : Byte) : Statement (.sfin n s) := fun _ => by
  refine ⟨by simp [encode]; rfl, ?_⟩
  constructor <;> simp [encode, encodeFields, bareFields, Instr.opcode, Opcode.uses]

theorem ssqz : Statement .ssqz := fun _ => by
  refine ⟨by simp [encode]; rfl, ?_⟩
  constructor <;> simp [encode, encodeFields, bareFields, Instr.opcode, Opcode.uses]

theorem pldo (d : PReg) : Statement (.pldo d) := fun _ => by
  refine ⟨by simp [encode]; rfl, ?_⟩
  constructor <;> simp [encode, encodeFields, bareFields, Instr.opcode, Opcode.uses]

theorem pldg (d : PReg) : Statement (.pldg d) := fun _ => by
  refine ⟨by simp [encode]; rfl, ?_⟩
  constructor <;> simp [encode, encodeFields, bareFields, Instr.opcode, Opcode.uses]

theorem pld (d : PReg) (n : Nat) : Statement (.pld d n) := fun _ => by
  refine ⟨by simp [encode]; rfl, ?_⟩
  constructor <;> simp [encode, encodeFields, bareFields, Instr.opcode, Opcode.uses]

theorem pst (a : PReg) : Statement (.pst a) := fun _ => by
  refine ⟨by simp [encode]; rfl, ?_⟩
  constructor <;> simp [encode, encodeFields, bareFields, Instr.opcode, Opcode.uses]

theorem padd (d a b : PReg) : Statement (.padd d a b) := fun _ => by
  refine ⟨by simp [encode]; rfl, ?_⟩
  constructor <;> simp [encode, encodeFields, bareFields, Instr.opcode, Opcode.uses]

theorem pdbl (d a : PReg) : Statement (.pdbl d a) := fun _ => by
  refine ⟨by simp [encode]; rfl, ?_⟩
  constructor <;> simp [encode, encodeFields, bareFields, Instr.opcode, Opcode.uses]

theorem pneg (d a : PReg) : Statement (.pneg d a) := fun _ => by
  refine ⟨by simp [encode]; rfl, ?_⟩
  constructor <;> simp [encode, encodeFields, bareFields, Instr.opcode, Opcode.uses]

theorem pmul (d a : PReg) : Statement (.pmul d a) := fun _ => by
  refine ⟨by simp [encode]; rfl, ?_⟩
  constructor <;> simp [encode, encodeFields, bareFields, Instr.opcode, Opcode.uses]

theorem kld (n : Nat) : Statement (.kld n) := fun _ => by
  refine ⟨by simp [encode]; rfl, ?_⟩
  constructor <;> simp [encode, encodeFields, bareFields, Instr.opcode, Opcode.uses]

theorem pdec (d : PReg) (n : Nat) (lsb : Bool) : Statement (.pdec d n lsb) := fun _ => by
  refine ⟨by simp [encode]; rfl, ?_⟩
  constructor <;> cases lsb <;> simp [encode, encodeFields, bareFields, Instr.opcode, Opcode.uses]

end Sys2Proof.Laws.LegalFields
end

