-- ==== Sys2Proof/Laws/Projective.lean ====
section
/-! SUPPORT. Scalar multiplication in projective coordinates, proved equal to scalar_mul: the form that evaluates fast, with
one inversion at the end (spec/43_e521.md R250: "an implementer may use one internally"; R264: any method that returns the
same point is this operation). -/

-- One theorem after another: theorems elaborated side by side wait for each other, each on a thread of its own.
set_option Elab.async false

namespace Sys2Proof.Machine

/-- (X : Y : Z) stands for the point (X/Z, Y/Z). -/
structure ProjPoint where
  x : Nat
  y : Nat
  z : Nat
  deriving DecidableEq, Repr

/-- A projective triple with a nonzero Z stands for the point P. -/
structure ProjPoint.StandsFor (T : ProjPoint) (P : Point) : Prop where
  z : (T.z : ZMod fieldP) ≠ 0
  x : (T.x : ZMod fieldP) = P.x * T.z
  y : (T.y : ZMod fieldP) = P.y * T.z

/-- Projective Edwards addition. -/
def projAdd (S T : ProjPoint) : ProjPoint :=
  let a := fmul S.z T.z
  let b := fmul a a
  let c := fmul S.x T.x
  let e := fmul S.y T.y
  let t := fmul curveD (fmul c e)
  let f := fsub b t
  let g := fadd b t
  ⟨fmul (fmul a f) (fadd (fmul S.x T.y) (fmul S.y T.x)), fmul (fmul a g) (fsub e c), fmul f g⟩

/-- Projective addition stands for addition. -/
theorem projAdd_standsFor {S T : ProjPoint} {P Q R : Point} (hP : P.valid = true) (hQ : Q.valid = true)
    (hS : S.StandsFor P) (hT : T.StandsFor Q) (hR : pointAdd P Q = some R) : (projAdd S T).StandsFor R := by
  have : Fact (Nat.Prime fieldP) := ⟨fieldP_prime⟩
  obtain ⟨R', hR', -, hs⟩ := pointAdd_spec hP hQ
  obtain rfl : R = R' := by simpa [hR] using hR'
  obtain ⟨hp, hm⟩ := Edwards.complete curveD_not_square two_ne_zero_zmod (Point.valid_on hP) (Point.valid_on hQ)
  obtain ⟨sz, sx, sy⟩ := hS
  obtain ⟨tz, tx, ty⟩ := hT
  obtain ⟨hx, hy⟩ := hs
  unfold Edwards.term at hp hm hx hy
  have hf : ((fsub (fmul (fmul S.z T.z) (fmul S.z T.z)) (fmul curveD (fmul (fmul S.x T.x) (fmul S.y T.y))) : Nat) : ZMod fieldP) =
      (S.z * T.z) ^ 2 * (1 - curveD * (P.x * Q.x * (P.y * Q.y))) := by
    simp only [cast_fsub, cast_fmul, sx, sy, tx, ty]
    ring
  have hg : ((fadd (fmul (fmul S.z T.z) (fmul S.z T.z)) (fmul curveD (fmul (fmul S.x T.x) (fmul S.y T.y))) : Nat) : ZMod fieldP) =
      (S.z * T.z) ^ 2 * (1 + curveD * (P.x * Q.x * (P.y * Q.y))) := by
    simp only [cast_fadd, cast_fmul, sx, sy, tx, ty]
    ring
  have hz : (S.z : ZMod fieldP) * T.z ≠ 0 := mul_ne_zero sz tz
  have hz2 := pow_ne_zero 2 hz
  refine ⟨?_, ?_, ?_⟩
  · simp only [projAdd]
    rw [cast_fmul, hf, hg]
    exact mul_ne_zero (mul_ne_zero hz2 hm) (mul_ne_zero hz2 hp)
  · simp only [projAdd]
    rw [cast_fmul, cast_fmul, hf, cast_fmul _ (fadd _ _), hf, hg]
    simp only [cast_fadd, cast_fmul, sx, sy, tx, ty]
    linear_combination
      (-(S.z * T.z : ZMod fieldP) ^ 4 * (1 - curveD * (P.x * Q.x * (P.y * Q.y)))) * hx
  · simp only [projAdd]
    rw [cast_fmul, cast_fmul, hg, cast_fmul _ (fadd _ _), hf, hg]
    simp only [cast_fsub, cast_fmul, sx, sy, tx, ty]
    linear_combination
      (-(S.z * T.z : ZMod fieldP) ^ 4 * (1 + curveD * (P.x * Q.x * (P.y * Q.y)))) * hy

/-- The loop of scalar_mul in projective coordinates. -/
def projLoop (P : ProjPoint) (k : Nat) : Nat → ProjPoint → ProjPoint
  | 0, V => V
  | i + 1, V =>
    let W := projAdd V V
    projLoop P k i (if k.testBit i then projAdd W P else W)

/-- The affine point of a triple. -/
def ProjPoint.toAffine (T : ProjPoint) : Option Point :=
  match finv T.z with
  | some i => some ⟨fmul T.x i, fmul T.y i⟩
  | none => none

/-- A triple that stands for a valid point has it as its affine point. -/
theorem ProjPoint.toAffine_of_standsFor {T : ProjPoint} {P : Point} (hP : P.valid = true) (h : T.StandsFor P) :
    T.toAffine = some P := by
  have : Fact (Nat.Prime fieldP) := ⟨fieldP_prime⟩
  obtain ⟨hz, hx, hy⟩ := h
  rcases finv_spec T.z with ⟨h0, -⟩ | ⟨-, i, hi, -, he⟩
  · exact absurd ((cast_eq_zero_iff T.z).mpr h0) hz
  · have ex : fmul T.x i = P.x := by
      apply eq_of_cast_eq (fmul_lt _ _) (Point.valid_x_lt hP)
      rw [cast_fmul, hx, he, mul_assoc, mul_inv_cancel₀ hz, mul_one]
    have ey : fmul T.y i = P.y := by
      apply eq_of_cast_eq (fmul_lt _ _) (Point.valid_y_lt hP)
      rw [cast_fmul, hy, he, mul_assoc, mul_inv_cancel₀ hz, mul_one]
    simp [ProjPoint.toAffine, hi, ex, ey]

/-- The projective loop stands for the loop of scalar_mul. -/
theorem projLoop_standsFor {P : Point} (hP : P.valid = true) {T : ProjPoint} (hT : T.StandsFor P) (k : Nat) :
    ∀ (i : Nat) (V : Point) (U : ProjPoint), V.valid = true → U.StandsFor V →
      ∃ W, mulLoop P k i V = some W ∧ W.valid = true ∧ (projLoop T k i U).StandsFor W
  | 0, V, _, hV, hU => ⟨V, rfl, hV, hU⟩
  | i + 1, V, U, hV, hU => by
    obtain ⟨D, hD, hDv, -⟩ := pointAdd_spec hV hV
    have hDs := projAdd_standsFor hV hV hU hU hD
    cases hb : k.testBit i
    · obtain ⟨W, hW, hWv, hWs⟩ := projLoop_standsFor hP hT k i D _ hDv hDs
      refine ⟨W, ?_, hWv, ?_⟩
      · rw [mulLoop, hb]
        simpa [mulStep, pointDouble, hD] using hW
      · rw [projLoop, hb]
        exact hWs
    · obtain ⟨E, hE, hEv, -⟩ := pointAdd_spec hDv hP
      have hEs := projAdd_standsFor hDv hP hDs hT hE
      obtain ⟨W, hW, hWv, hWs⟩ := projLoop_standsFor hP hT k i E _ hEv hEs
      refine ⟨W, ?_, hWv, ?_⟩
      · rw [mulLoop, hb]
        simpa [mulStep, pointDouble, hD, hE] using hW
      · rw [projLoop, hb]
        exact hWs

/-- A point with Z = 1. -/
def Point.toProj (P : Point) : ProjPoint := ⟨P.x, P.y, 1⟩

theorem Point.toProj_standsFor (P : Point) : P.toProj.StandsFor P := by
  have : Fact (Nat.Prime fieldP) := ⟨fieldP_prime⟩
  constructor <;> simp [Point.toProj]

/-- scalar_mul evaluated in projective coordinates, for a valid point. -/
theorem scalarMul_eq_proj {P : Point} (hP : P.valid = true) (k : Nat) :
    scalarMul P k = (projLoop P.toProj k (bitlen k) (Point.identity.toProj)).toAffine := by
  obtain ⟨W, hW, hWv, hWs⟩ := projLoop_standsFor hP P.toProj_standsFor k (bitlen k) _ _ Point.identity_valid
    Point.identity.toProj_standsFor
  rw [scalarMul, hW, ProjPoint.toAffine_of_standsFor hWv hWs]

end Sys2Proof.Machine
end

