-- ==== Sys2Proof/Laws/Run.lean ====
section
/-! SUPPORT. The turns still to come are read by nothing but `step`, so a run of `step` over a list of turns is `runTurns` on
that list. -/

-- One theorem after another: theorems elaborated side by side wait for each other, each on a thread of its own.
set_option Elab.async false

namespace Sys2Proof.Machine

/-- The outcome with the turns of its next state replaced. -/
def withTurns (x : List Turn) : Host.Outcome State Fault Refusal → Host.Outcome State Fault Refusal
  | .next t => .next { t with turns := x }
  | .fault r => .fault r
  | .refused r => .refused r

theorem finishPoint_turns (s : State) (d : PReg) (r : Option Point) (x : List Turn) :
    State.finishPoint { s with turns := x } d r = withTurns x (s.finishPoint d r) := by
  cases r <;> rfl

/-- No command reads or writes the turns. -/
theorem exec_turns (i : Instr) (s : State) (x : List Turn) : exec i { s with turns := x } = withTurns x (exec i s) := by
  cases i with
  | sperm => simp only [exec, execSperm, withTurns, State.setSponge, State.finish]
  | sld => rfl
  | sst => rfl
  | sinit n =>
    simp only [exec, execSinit]
    split <;> rfl
  | sabs =>
    have h : ∀ n, State.dbufBytes { s with turns := x } n = s.dbufBytes n := fun _ => rfl
    simp only [exec, execSabs, h]
    split <;> simp only [withTurns, State.raise, State.setSponge, State.finish]
  | sfin n sx =>
    have h : ∀ n, State.dbufBytes { s with turns := x } n = s.dbufBytes n := fun _ => rfl
    simp only [exec, execSfin, h]
    split
    · rfl
    · split
      · rfl
      · split <;> simp only [withTurns, State.raise, State.setSponge, State.finish]
  | ssqz =>
    simp only [exec, execSsqz]
    split <;> simp only [withTurns, State.raise, State.setSponge, State.setDbuf, State.finish]
  | pldo d => rfl
  | pldg d => rfl
  | pld d n =>
    have h : ∀ n, State.dbufBytes { s with turns := x } n = s.dbufBytes n := fun _ => rfl
    simp only [exec, execPld, h]
    split
    · cases fromBytes (s.dbufBytes pointBytes) <;> rfl
    · rfl
  | pst a => rfl
  | padd d a b => exact finishPoint_turns s d _ x
  | pdbl d a => exact finishPoint_turns s d _ x
  | pneg d a => rfl
  | pmul d a => exact finishPoint_turns s d _ x
  | kld n =>
    simp only [exec, execKld]
    split <;> rfl
  | pdec d n lsb =>
    have h : ∀ n, State.dbufBytes { s with turns := x } n = s.dbufBytes n := fun _ => rfl
    simp only [exec, execPdec, h]
    split
    · split
      · cases ySquared (sbe (s.dbufBytes coordBytes)).toNat with
        | none => rfl
        | some v => cases hq : sqrtModP v lsb <;> simp only [hq, withTurns, State.raise, State.setPr, State.finish]
      · rfl
    · rfl

/-- No turn reads or writes the turns after it. -/
theorem runTurn_turns (t : Turn) (s : State) (x : List Turn) : runTurn t { s with turns := x } = withTurns x (runTurn t s) := by
  cases t with
  | powerOn => rfl
  | engine =>
    obtain ⟨sponge, rate, dbuf, pr, k, err, ovr, cmdl, turns, replies, freeIdx⟩ := s
    cases cmdl with
    | none => rfl
    | some w =>
      simp only [runTurn, engineStep, runWord]
      cases hw : decode w with
      | ok i => exact exec_turns i ⟨sponge, rate, dbuf, pr, k, err, ovr, some w, turns, replies, freeIdx⟩ x
      | error e => simp only [withTurns, State.raise]
  | host a =>
    have hb : State.busy { s with turns := x } = s.busy := rfl
    simp only [runTurn, hostAccess, hb]
    split
    · rfl
    · split
      · simp only [withTurns, Host.Outcome.next.injEq]
        cases a.op with
        | read =>
          have hp : State.pendingRate { s with turns := x } = s.pendingRate := rfl
          have hw : State.registerWord { s with turns := x } a.off.val = s.registerWord a.off.val := rfl
          simp only [registerAccess, State.readRegister, State.drawn, hp, hw]
          split <;> rfl
        | write v =>
          simp only [registerAccess, State.writeRegister]
          split
          · simp only [State.submit, hb]
            split <;> rfl
          · split
            · simp only [State.control]
              split
              · rfl
              · split <;> rfl
            · rfl
      · split
        · rfl
        · cases a.op <;> rfl

/-- As many steps as a list has turns, taken on a state whose turns start with that list, are those turns in order. -/
theorem run_turns (ts rest : List Turn) (s : State) :
    Sys2Proof.core.run ts.length { s with turns := ts ++ rest } = withTurns rest (runTurns ts s) := by
  induction ts generalizing s with
  | nil => rfl
  | cons t ts ih =>
    have h1 : Sys2Proof.core.step { s with turns := t :: ts ++ rest } = withTurns (ts ++ rest) (runTurn t s) :=
      runTurn_turns t s (ts ++ rest)
    simp only [List.length_cons, Host.Core.run, h1, runTurns]
    cases runTurn t s with
    | next u => exact ih u
    | fault r => rfl
    | refused r => rfl

end Sys2Proof.Machine
end

