-- ==== Sys2Proof/Tests/Slice0.lean ====
section
/-! SUPPORT. The model's own tests. Expected values come from spec/95_test_vectors.md or from the rule a test names. The
second half holds, for each obligation with hypotheses, a concrete state and operands that meet them. -/

-- One theorem after another: theorems elaborated side by side wait for each other, each on a thread of its own.
set_option Elab.async false

open Sys2Proof Sys2Proof.Machine Sys2Proof.Claims

namespace Sys2Proof.Tests

/-! ### Well-formed commands (spec/30_encoding.md R107: n > 255 is rejected) -/

theorem test_wf_sinit : (Instr.sinit 256).wellFormed = false ∧ (Instr.sinit 255).wellFormed = true := by decide
theorem test_wf_sfin : (Instr.sfin 256 6).wellFormed = false ∧ (Instr.sfin 255 6).wellFormed = true := by decide
theorem test_wf_pld : (Instr.pld .p0 256).wellFormed = false ∧ (Instr.pld .p0 255).wellFormed = true := by decide
theorem test_wf_kld : (Instr.kld 256).wellFormed = false ∧ (Instr.kld 255).wellFormed = true := by decide
theorem test_wf_pdec : (Instr.pdec .p0 256 true).wellFormed = false ∧ (Instr.pdec .p0 255 true).wellFormed = true := by
  decide

/-! ### Decoding: the words of V22 and V20, written out as OOOOOOOO NNNNNNNN SSSSSSSS DDAABBZZ (R101) -/

/-- The word whose four bytes are written out, the high byte first. -/
def word (a b c d : Nat) : Word := BitVec.ofNat 32 (((a * 256 + b) * 256 + c) * 256 + d)

theorem test_decode_permutation_words :
    decode (word 0b00000001 0 0 0) = .ok .sperm ∧ decode (word 0b00000010 0 0 0) = .ok .sld ∧
    decode (word 0b00000011 0 0 0) = .ok .sst := ⟨rfl, rfl, rfl⟩

theorem test_decode_sponge_words :
    decode (word 0b00010000 0b10001000 0 0) = .ok (.sinit 136) ∧ decode (word 0b00010001 0 0 0) = .ok .sabs ∧
    decode (word 0b00010010 0b00000011 0b00000110 0) = .ok (.sfin 3 0x06) ∧
    decode (word 0b00010011 0 0 0) = .ok .ssqz := ⟨rfl, rfl, rfl, rfl⟩

theorem test_decode_e521_words :
    decode (word 0b00100000 0 0 0b10000000) = .ok (.pldo .p2) ∧ decode (word 0b00100001 0 0 0b11000000) = .ok (.pldg .p3) ∧
    decode (word 0b00100010 0b10000100 0 0b01000000) = .ok (.pld .p1 132) ∧
    decode (word 0b00100011 0 0 0b00110000) = .ok (.pst .p3) ∧
    decode (word 0b00100100 0 0 0b10000100) = .ok (.padd .p2 .p0 .p1) ∧
    decode (word 0b00100101 0 0 0b01100000) = .ok (.pdbl .p1 .p2) ∧
    decode (word 0b00100110 0 0 0b01100000) = .ok (.pneg .p1 .p2) ∧
    decode (word 0b00100111 0 0 0b11010000) = .ok (.pmul .p3 .p1) ∧ decode (word 0b00101000 1 0 0) = .ok (.kld 1) ∧
    decode (word 0b00101001 0b01000010 1 0b01000000) = .ok (.pdec .p1 66 true) :=
  ⟨rfl, rfl, rfl, rfl, rfl, rfl, rfl, rfl, rfl, rfl⟩

/-- The illegal words of V20, each with the check it fails. -/
theorem test_decode_illegal_words :
    decode 0x00000000 = .error .reservedOpcode ∧ decode 0x04000000 = .error .reservedOpcode ∧
    decode 0x2A000000 = .error .reservedOpcode ∧ decode 0x01000001 = .error .nonzeroReserved ∧
    decode 0x11010000 = .error (.nonzeroField .n) ∧ decode 0x10880040 = .error (.nonzeroField .rd) ∧
    decode 0x23000040 = .error (.nonzeroField .rd) ∧ decode 0x29420200 = .error .parityOutOfRange :=
  ⟨rfl, rfl, rfl, rfl, rfl, rfl, rfl, rfl⟩

/-- Every row of spec/opcode_table.json: the row's pattern decodes to a command of the row's opcode. -/
theorem test_decode_table_patterns :
    opcodeRows.all (fun r => match decode r.pattern with
      | .ok i => i.opcode == r.op
      | .error _ => false) = true := by decide

theorem test_decodeTableWord : decodeTableWord 32 0x24000084 = some (.padd .p2 .p0 .p1) := rfl

/-! ### States for the tests -/

/-- A state with one turn to take. -/
def withTurn (t : Turn) (s : State) : State := { s with turns := [t] }

/-- A state with a command word latched. -/
def latched (w : Word) (s : State) : State := { s with cmdl := some w }

/-- The reset state with a rate. -/
def rated (r : Byte) : State := { State.reset with rate := r }

/-- A state whose DBUF starts with the given bytes. -/
def loaded (bs : List Byte) (s : State) : State := s.setDbuf 0 bs

/-- What a next state is asked to satisfy; a stop satisfies nothing. -/
def holds (o : Host.Outcome State Fault Refusal) (p : State → Bool) : Bool :=
  match o with
  | .next t => p t
  | _ => false

/-- Run one command word on a state and ask for the STATUS the spec gives. -/
def statusAfter (w : Word) (s : State) (st : Word) : Bool := holds (step (latched w s)) fun t => t.statusWord == st

/-- 2·G and 3·G (V4). -/
def twoG : Point where
  x := 0x6eeb7b013f129ea438e3c20718d31970649e584406b3d8cb65fdb712ce93fab60fc5be0c62987d287174a21e555fbe43ac0084480a3efc77be676a69618d42b608
  y := 0x1cd24f86e41d6100036972e63e25fe9a62369926575d001f18a26f2788fce6aeb2d9af77e39aa610f9c2db5590905a11914925baefcfd84edfdff2bc2e6d39a7079
def threeG : Point where
  x := 0x9ed8337a1b1fb140588ca6a7512e1607b3262b4419325e6c8bbfa66a0ef961e6d53463ea68abb72e2fc8db75744080b8f5276910dfc1893d313ec36eb8e5e7c326
  y := 0x1a16ffec329165b9f4e22e9834b702332d2264fe2ff1b5781fb1b373febf4ae37885bf3b471272db5ab8384e6572bc917424920dd6bdb1054a5c01caf25ca5237e1

/-- The reset state with P0 = G and P1 = 2·G. -/
def withPoints : State := { State.reset with pr := ⟨.generator, twoG, .identity, .identity⟩ }

/-! ### Constant tables, from their generation rules -/

/-- One clock of the LFSR of R140. Bit 0 of the number is R[0] of the rule. -/
def lfsr (r : Nat) : Nat := (r * 2 ^^^ if r.testBit 7 then 0x171 else 0) % 256

/-- rc(t) (R140). -/
def rcBit (t : Nat) : Bool := ((List.range (t % 255)).foldl (fun r _ => lfsr r) 1).testBit 0

/-- R140: bit 2^j − 1 of RC[ir] is rc(j + 7·ir). -/
theorem test_round_constants :
    roundConstants = (List.range 24).map fun ir =>
      BitVec.ofNat 64 (((List.range 7).map fun j => if rcBit (j + 7 * ir) then 2 ^ (2 ^ j - 1) else 0).sum) := by
  decide +kernel

/-- One step of the walk of R141: the offset of (x, y) is (t+1)(t+2)/2 mod 64, and the next lane is (y, 2x + 3y). -/
def rhoWalk : (fuel t : Nat) → (x y : Fin 5) → Bool
  | 0, _, _, _ => true
  | n + 1, t, x, y => (rhoTable.get x).get y == (t + 1) * (t + 2) / 2 % 64 && rhoWalk n (t + 1) y (2 * x + 3 * y)

theorem test_rho_offsets : rhoWalk 24 0 1 0 = true ∧ (rhoTable.get 0).get 0 = 0 := by decide

/-! ### The permutation unit (V12, V10) -/

/-- The grid that holds v at one lane and 0 elsewhere. -/
def oneLane (x y : Fin 5) (v : Lane) : Lanes := lanesOf fun x' y' => if x' = x ∧ y' = y then v else 0

theorem test_theta : theta (oneLane 0 0 1) =
    lanesOf fun x y => if x = 1 then 1 else if x = 4 then 2 else if x = 0 ∧ y = 0 then 1 else 0 := by decide +kernel

theorem test_rho : lane (rho (lanesOf fun _ _ => 1)) 1 0 = 2 ∧ lane (rho (lanesOf fun _ _ => 1)) 2 0 = 0x4000000000000000 ∧
    lane (rho (lanesOf fun _ _ => 1)) 0 1 = 0x1000000000 ∧ lane (rho (lanesOf fun _ _ => 1)) 4 4 = 0x4000 := by
  decide +kernel

theorem test_pi : (fun A => (lane A 0 0, lane A 1 0, lane A 0 1, lane A 1 1, lane A 4 4))
    (piStep (lanesOf fun x y => BitVec.ofNat 64 (x.val + 5 * y.val))) = (0, 6, 3, 9, 21) := by decide +kernel

theorem test_chi : chi (oneLane 2 0 1) = lanesOf (fun x y => if (x = 0 ∨ x = 2) ∧ y = 0 then 1 else 0) ∧
    chi (lanesOf fun x y => if (x = 1 ∨ x = 2) ∧ y = 0 then 1 else 0) =
      lanesOf (fun x y => if (x = 1 ∨ x = 2 ∨ x = 4) ∧ y = 0 then 1 else 0) := by decide +kernel

theorem test_iota : iota (roundConstants.getD 23 0) (lanesOf fun _ _ => 0) = oneLane 0 0 0x8000000080008008 := by
  decide +kernel

/-- V10 through SPERM: F of the zero string. -/
theorem test_sperm : holds (exec .sperm (latched 0x01000000 State.reset)) (fun t => t.busy == false &&
    t.sponge.toList.take 24 == [0xe7, 0xdd, 0xe1, 0x40, 0x79, 0x8f, 0x25, 0xf1, 0x8a, 0x47, 0xc0, 0x33,
      0xf9, 0xcc, 0xd5, 0x84, 0xee, 0xa9, 0x5a, 0xa6, 0x1e, 0x26, 0x98, 0xd5] &&
    t.sponge.toList.drop 192 == [0x49, 0xa2, 0xec, 0x5c, 0x7b, 0xff, 0xf1, 0xea]) = true := by decide +kernel

/-- SLD takes DBUF[0..199], not DBUF[200]. -/
theorem test_sld : holds (exec .sld (loaded [0xAA, 0xBB] State.reset)) (fun t =>
    t.sponge.toList.take 3 == [0xAA, 0xBB, 0] && t.dbufByte 1 == 0xBB) = true := by decide +kernel

/-- SST stores S[0] and S[199], and DBUF[200] keeps its value. -/
theorem test_sst : holds (exec .sst { State.reset with sponge := spongeOf fun i => BitVec.ofNat 8 (i + 1),
                                                       dbuf := [(0x1C8, 0x77)] })
    (fun t => t.dbufByte 0 == 1 && t.dbufByte 199 == 200 && t.dbufByte 200 == 0x77) = true := by decide +kernel

/-! ### The sponge unit -/

/-- V20: SINIT 0, 199 and 200. -/
theorem test_sinit : statusAfter 0x10000000 State.reset 0x80 ∧ statusAfter 0x10C80000 State.reset 0x80 ∧
    holds (step (latched 0x10C70000 { State.reset with sponge := spongeOf fun _ => 1 })) (fun t =>
      t.rate == 199 && t.err == 0 && t.sponge.toList.all (· == 0)) = true := by decide +kernel

/-- V20: NoRate first, then BadLength, then InvalidSuffix. -/
theorem test_sfin_errors : statusAfter 0x12C80000 State.reset 0x90 ∧ statusAfter 0x12880600 (rated 136) 0x50 ∧
    statusAfter 0x12C80000 (rated 136) 0x50 ∧ statusAfter 0x12000000 (rated 136) 0x10 := by decide +kernel

/-- V17: the padding corners. -/
theorem test_padblock : padblock [] 136 0x06 = 0x06 :: (List.replicate 134 0 ++ [0x80]) ∧
    padblock (List.replicate 135 0) 136 0x80 = List.replicate 136 0 ∧ padblock [] 1 0x06 = [0x86] := by decide +kernel

/-- V1: SHA3-256("") is the rate part after F of the padded empty tail. -/
theorem test_sha3_256_empty : (absorbBlock freshSponge (padblock [] 136 0x06)).toList.take 32 =
    [0xa7, 0xff, 0xc6, 0xf8, 0xbf, 0x1e, 0xd7, 0x66, 0x51, 0xc1, 0x47, 0x56, 0xa0, 0x61, 0xd6, 0x62,
     0xf5, 0x80, 0xff, 0x4d, 0xe4, 0x3b, 0x49, 0xfa, 0x82, 0xd8, 0x0a, 0x4b, 0x80, 0xf8, 0x43, 0x4a] := by
  decide +kernel

theorem test_sabs_errors : statusAfter 0x11000000 State.reset 0x90 := by decide +kernel

/-- SABS XORs RATE bytes, not more (R181). -/
theorem test_xorBlock : (xorBlock freshSponge ((loaded [5, 6, 7] (rated 2)).dbufBytes 2)).toList.take 4 = [5, 6, 0, 0] := by
  decide +kernel

/-- V18: the output of SSQZ is taken before F, and byte RATE of DBUF stays (R184). -/
theorem test_ssqz : holds (exec .ssqz { rated 2 with sponge := spongeOf fun _ => 9, dbuf := [(0x102, 0x55)] })
    (fun t => t.dbufByte 0 == 9 && t.dbufByte 1 == 9 && t.dbufByte 2 == 0x55) = true ∧
    statusAfter 0x13000000 State.reset 0x90 := by decide +kernel

/-! ### The E-521 unit -/

theorem test_pldo : holds (exec (.pldo .p1) withPoints) (fun t => t.pr == ⟨.generator, ⟨0, 1⟩, .identity, .identity⟩) = true := by
  decide +kernel

/-- V40: x = 4, y even, on the curve. -/
theorem test_pldg : holds (exec (.pldg .p3) State.reset) (fun t =>
    t.pr.pr3.x == 4 && t.pr.pr3.y % 2 == 0 && t.pr.pr3.valid && t.pr.pr0 == ⟨0, 1⟩) = true := by decide +kernel

/-- V44: the encoding of G, and the same with the last byte off by one. -/
theorem test_pld : holds (exec (.pld .p1 132) (loaded (toBytes .generator) State.reset)) (fun t =>
      t.pr.pr1 == .generator && t.err == 0) = true ∧
    holds (exec (.pld .p1 132) (loaded (toBytes ⟨4, Point.generator.y + 1⟩) State.reset)) (fun t =>
      t.pr.pr1 == ⟨0, 1⟩ && t.err == 3) = true := by decide +kernel

/-- V44: p in the x-half, and a negative x. -/
theorem test_pld_range : holds (exec (.pld .p1 132) (loaded (ubeBytes 66 fieldP ++ ubeBytes 66 1) State.reset)) (·.err == 3) = true ∧
    holds (exec (.pld .p1 132) (loaded [0xFF] State.reset)) (·.err == 3) = true ∧
    statusAfter 0x22830000 State.reset 0x50 := by decide +kernel

/-- V40: the bytes of to_bytes(G) around the coordinates' ends. -/
theorem test_pst : holds (exec (.pst .p0) withPoints) (fun t => t.dbufSlice 64 6 == [0, 4, 0x01, 0x1d, 0xd4, 0xb4] &&
    t.dbufSlice 128 5 == [0x00, 0x93, 0xb1, 0x0c, 0]) = true := by decide +kernel

/-- V4: G + 2·G = 3·G. -/
theorem test_padd : holds (exec (.padd .p2 .p0 .p1) withPoints) (fun t => t.pr == ⟨.generator, twoG, threeG, .identity⟩) = true := by
  decide +kernel

/-- V4: the double of G, with the source register as destination. -/
theorem test_pdbl : holds (exec (.pdbl .p0 .p0) withPoints) (fun t => t.pr.pr0 == twoG) = true := by decide +kernel

/-- V42: −G = (p − 4, G.y), and −O = O. -/
theorem test_pneg : pointNeg .generator = ⟨fieldP - 4, Point.generator.y⟩ ∧ pointNeg .identity = .identity := by
  decide +kernel

/-- V42: PMUL P0, P0 with K = 3 and P0 = G. -/
theorem test_pmul : scalarMul .generator 3 = some threeG := by
  rw [scalarMul_eq_proj Point.generator_valid]
  decide +kernel

/-- V41: r·G = O. -/
theorem test_subgroup_order : scalarMul .generator subgroupOrder = some .identity := by
  rw [scalarMul_eq_proj Point.generator_valid]
  decide +kernel

/-- V45: KLD 2 of 00 03, KLD 1 of FF, and the two bad lengths. -/
theorem test_kld : holds (exec (.kld 2) (loaded [0, 3] State.reset)) (·.k == 3) = true ∧
    holds (exec (.kld 1) (loaded [0xFF] State.reset)) (·.k == 255) = true ∧ statusAfter 0x28000000 State.reset 0x50 ∧
    statusAfter 0x28430000 State.reset 0x50 := by decide +kernel

/-- V43: x = 0, both parities, and x = 4 with an even y. -/
theorem test_pdec : holds (exec (.pdec .p0 66 false) State.reset) (·.pr.pr0 == ⟨0, fieldP - 1⟩) = true ∧
    holds (exec (.pdec .p0 66 true) State.reset) (·.pr.pr0 == ⟨0, 1⟩) = true ∧
    holds (exec (.pdec .p0 66 false) (loaded (ubeBytes 66 4) State.reset)) (·.pr.pr0 == .generator) = true := by
  decide +kernel

/-- V43: y = 0 for x = 1, no point for x = 2, x = p out of range, and a bad length. -/
theorem test_pdec_errors : holds (exec (.pdec .p0 66 true) (loaded (ubeBytes 66 1) State.reset)) (·.pr.pr0 == ⟨1, 0⟩) = true ∧
    holds (exec (.pdec .p0 66 false) (loaded (ubeBytes 66 2) State.reset)) (·.err == 4) = true ∧
    holds (exec (.pdec .p0 66 false) (loaded (ubeBytes 66 fieldP) State.reset)) (·.err == 3) = true ∧
    statusAfter 0x29410000 State.reset 0x50 := by decide +kernel

/-! ### The host's side -/

/-- V20: an illegal word sets ERR = 7. -/
theorem test_illegal_word : statusAfter 0x23000040 State.reset 0x70 := by decide

/-- V21: a command written while ERR ≠ 0 is dropped (STATUS = 0x12 with ERR = 1), and CLR clears both. -/
theorem test_overrun_and_clear :
    holds (step (withTurn (wr32 0x000 0x13000000) { rated 136 with err := 1 })) (fun t =>
      t.statusWord == 0x12 && t.cmdl == none) = true ∧
    holds (step (withTurn (ctrl 1) { rated 136 with err := 1, ovr := true })) (fun t =>
      t.statusWord == 0 && t.rate == 136) = true := by decide

/-- V21: CTRL = 3 resets; ID and RATE read as the rules say. -/
theorem test_reset_and_reads : step (withTurn (ctrl 3) (latched 0x13000000 withPoints)) = .next State.reset ∧
    holds (step (withTurn (rd32 0x010) (rated 136))) (·.replies == [0x4B353231]) = true ∧
    holds (step (withTurn (rd32 0x00C) (rated 136))) (·.replies == [0x88]) = true := ⟨rfl, by decide, by decide⟩

/-- P1: the word 0x00636261 at offset 0x100 is the bytes 61 62 63 00, and reads back. -/
theorem test_dbuf_little_endian : holds (step (withTurn (wr32 0x100 0x00636261) State.reset)) (fun t =>
      t.dbufBytes 4 == [0x61, 0x62, 0x63, 0] && t.dbuf == [(0x100, 0x61), (0x101, 0x62), (0x102, 0x63)] &&
      holds (step (withTurn (rd32 0x100) t)) (·.replies == [0x00636261])) = true := by decide

/-- R72: bus errors by offset, width and alignment; R370: a DBUF access while BUSY = 1. -/
theorem test_bus_errors : step (withTurn (.host ⟨0x004, 8, .read⟩) State.reset) = .fault .busError ∧
    step (withTurn (.host ⟨0x101, 16, .read⟩) State.reset) = .fault .busError ∧
    step (withTurn (.host ⟨0x1FE, 32, .read⟩) State.reset) = .fault .busError ∧
    step (withTurn (.host ⟨0x1FF, 8, .read⟩) (latched 0x01000000 State.reset)) = .fault .hostHazard := ⟨rfl, rfl, rfl, rfl⟩

/-- R70: the window starts at ENGINE_BASE and is 0x200 bytes long, wherever the platform puts it. -/
theorem test_window : accessAt (Config.engineBase + 0x104) 32 .read = some ⟨0x104, 32, .read⟩ ∧
    accessAt (Config.engineBase + 0x200) 32 .read = none := by
  refine ⟨?_, ?_⟩
  · unfold accessAt
    rw [dif_pos (by omega)]
    simp only [Nat.add_sub_cancel_left]
    rfl
  · unfold accessAt
    rw [dif_neg (by omega)]

/-- V30. -/
theorem test_host_encodings : ((leftEncode 256).toOption, (leftEncode (2 ^ 64 - 1)).toOption, (rightEncode 136).toOption,
      (encodeString kmacName).toOption, (bytepad [7, 8] 4).toOption) =
    (some [2, 1, 0], some (8 :: List.replicate 8 0xFF), some [0x88, 1], some [0x01, 0x20, 0x4b, 0x4d, 0x41, 0x43],
      some [1, 4, 7, 8]) := by decide +kernel

/-- R7: 4r points. By general knowledge the number differs from p + 1 by at most 2√p (Hasse), and (1, 0) has order 4. -/
theorem test_point_count : pointCount = 4 * subgroupOrder ∧ (fieldP + 1 - pointCount) ^ 2 ≤ 4 * fieldP ∧
    pointCount ≤ fieldP + 1 ∧ pointDouble ⟨1, 0⟩ = some ⟨0, fieldP - 1⟩ ∧ pointDouble ⟨0, fieldP - 1⟩ = some .identity := by
  decide +kernel

/-- The host's entry point: the step after withFetchWord runs the word as the first command after reset. -/
theorem test_withFetchWord : holds (step (State.reset.withFetchWord 32 0x21000040)) (fun t =>
    t.pr.pr1 == .generator && t.turns == [] && t.busy == false) = true := by decide +kernel

/-! ### Witnesses: for each obligation with hypotheses, a state and operands that meet them, clause by clause -/

theorem witness_DecodeInvertsEncode : (Instr.pdec .p3 255 true).wellFormed = true := rfl

theorem witness_EncodeInvertsDecode : decode 0x29FF01C0 = .ok (.pdec .p3 255 true) := rfl

theorem witness_LegalWordConditions : (latched 0 State.reset).cmdl = some 0 ∧ engineNext (latched 0 State.reset) [] ∧
    engineNext (withTurn .engine (latched 0 State.reset)) [] ∧ ¬legalWord 0 ∧ legalWord 0x29FF01C0 := by
  refine ⟨rfl, .inl ⟨rfl, rfl⟩, .inr rfl, ?_, ?_⟩ <;> unfold legalWord <;> decide

theorem witness_DecodeAgreesWithTableMasks : (⟨.pdec, 0x29000000, 0xFF00FE3F⟩ : OpcodeRow) ∈ opcodeRows := by decide

theorem witness_CommandWordValues : (0 : Nat) ≤ 255 ∧ (255 : Nat) ≤ 255 := by decide

theorem witness_StepRunsLatchedCommand : ∃ (s : State) (w : Word) (i : Instr), s.cmdl = some w ∧ decode w = .ok i ∧
    s.turns = [] ∧ (withTurn .engine s).cmdl = some w ∧ (withTurn .engine s).turns = .engine :: [] :=
  ⟨latched 0x02000000 State.reset, 0x02000000, .sld, rfl, rfl, rfl, rfl, rfl⟩

theorem witness_IdleEngineHoldsState : State.reset.busy = false ∧ State.reset.turns = [] ∧
    (withTurn .engine State.reset).busy = false ∧ (withTurn .engine State.reset).turns = .engine :: [] :=
  ⟨rfl, rfl, rfl, rfl⟩

theorem witness_CmdWriteAcceptance : ∃ s b e : State, writes s 0x000 7 [] ∧ s.busy = false ∧ s.err = 0 ∧
    writes b 0x000 7 [] ∧ b.busy = true ∧ b.err = 0 ∧ writes e 0x000 7 [] ∧ e.busy = false ∧ e.err ≠ 0 :=
  ⟨withTurn (wr32 0 7) State.reset, withTurn (wr32 0 7) (latched 0 State.reset),
    withTurn (wr32 0 7) { State.reset with err := 9 }, rfl, rfl, rfl, rfl, rfl, rfl, rfl, rfl, by decide⟩

theorem witness_ClearErrorsWrite : writes (withTurn (ctrl 1) State.reset) 0x008 1 [] ∧
    (1 : Word).getLsbD 1 = false ∧ (1 : Word).getLsbD 0 = true ∧
    writes (withTurn (ctrl 0xFFFFFFFC) State.reset) 0x008 0xFFFFFFFC [] ∧
    (0xFFFFFFFC : Word).getLsbD 1 = false ∧ (0xFFFFFFFC : Word).getLsbD 0 = false := by
  refine ⟨rfl, ?_, ?_, rfl, ?_, ?_⟩ <;> decide

theorem witness_ResetsGiveResetValues : writes (withTurn (ctrl 2) (latched 0x01000000 withPoints)) 0x008 2 [] ∧
    (2 : Word).getLsbD 1 = true ∧ (withTurn .powerOn (latched 0x01000000 withPoints)).turns = .powerOn :: [] :=
  ⟨rfl, by decide, rfl⟩

theorem witness_StatusReadValue : reads (withTurn (rd32 0x004) { latched 0 State.reset with ovr := true }) 0x004 [] := rfl

/-- RATE while SPERM is in flight, and every other register while SINIT 199 is. -/
theorem witness_RegisterReadValues : ∀ p ∈ [((0x00C : Fin 0x200), (0x01000000 : Word)), (0x000, 0x10C70000),
      (0x008, 0x10C70000), (0x010, 0x10C70000), (0x014, 0x10C70000), (0x0FC, 0x10C70000)],
    reads (withTurn (rd32 p.1) (latched p.2 (rated 136))) p.1 [] ∧ p.1.val < 0x100 ∧ p.1.val % 4 = 0 ∧
      p.1.val ≠ 0x004 ∧
      (p.1.val = 0x00C → ∀ w n, (latched p.2 (rated 136)).cmdl = some w → decode w ≠ .ok (.sinit n)) := by
  have hd : ∀ w n, (latched 0x01000000 (rated 136)).cmdl = some w → decode w ≠ .ok (.sinit n) := by
    rintro w n ⟨⟩ h
    cases h
  intro p h
  simp only [List.mem_cons, List.not_mem_nil, or_false] at h
  rcases h with rfl | rfl | rfl | rfl | rfl | rfl
  · exact ⟨rfl, by simp, by simp, by simp, fun _ => hd⟩
  all_goals exact ⟨rfl, by simp, by simp, by simp, fun h => absurd h (by simp)⟩

/-- An SINIT with a legal rate in flight, and one that will end with BadRate. -/
theorem witness_RateReadDuringSinit : ∃ s b : State, reads s 0x00C [] ∧ s.cmdl = some 0x10C70000 ∧
    decode 0x10C70000 = .ok (.sinit 199) ∧ reads b 0x00C [] ∧ b.cmdl = some 0x10C80000 ∧
    decode 0x10C80000 = .ok (.sinit 200) :=
  ⟨withTurn (rd32 0x00C) (latched 0x10C70000 (rated 72)), withTurn (rd32 0x00C) (latched 0x10C80000 (rated 72)),
    rfl, rfl, rfl, rfl, rfl, rfl⟩

theorem witness_ReadsHaveNoSideEffect : (withTurn (.host ⟨0x1FE, 16, .read⟩) State.reset).turns = [.host ⟨0x1FE, 16, .read⟩] ∧
    acceptable 0x1FE 16 ∧ State.reset.busy = false ∧ acceptable 0x0FC 32 ∧ acceptable 0x1FC 32 ∧ acceptable 0x1FF 8 := by
  refine ⟨rfl, ?_, rfl, ?_, ?_, ?_⟩ <;> unfold acceptable <;> decide

theorem witness_OtherRegisterWritesIgnored : ∀ off ∈ [(0x004 : Fin 0x200), 0x00C, 0x010, 0x014, 0x0FC],
    writes (withTurn (wr32 off 1) State.reset) off 1 [] ∧ off.val < 0x100 ∧ off.val % 4 = 0 ∧ off.val ≠ 0x000 ∧
      off.val ≠ 0x008 := by
  intro off h
  simp only [List.mem_cons, List.not_mem_nil, or_false] at h
  rcases h with rfl | rfl | rfl | rfl | rfl <;> exact ⟨rfl, by simp, by simp, by simp, by simp⟩

/-- At the edge of the registers and of DBUF: accepted and not. -/
theorem witness_BusErrorExactlyWhenUnacceptable :
    (withTurn (.host ⟨0x0FC, 32, .read⟩) State.reset).turns = [.host ⟨0x0FC, 32, .read⟩] ∧ acceptable 0x0FC 32 ∧
    ¬acceptable 0x0FE 32 ∧ ¬acceptable 0x0FF 8 ∧ acceptable 0x100 8 ∧ ¬acceptable 0x1FF 16 ∧ ¬acceptable 0x100 64 := by
  refine ⟨rfl, ?_, ?_, ?_, ?_, ?_, ?_⟩ <;> unfold acceptable <;> decide

theorem witness_DbufAccessWhileBusyFaults : ∃ s b : State, s.turns = [.host ⟨0x100, 8, .read⟩] ∧ acceptable 0x100 8 ∧
    s.busy = true ∧ b.turns = [.host ⟨0x0FC, 32, .read⟩] ∧ acceptable 0x0FC 32 ∧ b.busy = true := by
  refine ⟨withTurn (.host ⟨0x100, 8, .read⟩) (latched 0 State.reset), withTurn (.host ⟨0x0FC, 32, .read⟩) (latched 0 State.reset),
    rfl, ?_, rfl, rfl, ?_, rfl⟩ <;> unfold acceptable <;> decide

theorem witness_DbufWriteLittleEndian : (withTurn (.host ⟨0x1FC, 32, .write 0x01020304⟩) State.reset).turns =
      [.host ⟨0x1FC, 32, .write 0x01020304⟩] ∧ acceptable 0x1FC 32 ∧ acceptable 0x1FF 8 ∧ acceptable 0x1FE 16 ∧
      0x100 ≤ 0x1FC ∧ State.reset.busy = false := by
  refine ⟨rfl, ?_, ?_, ?_, by decide, rfl⟩ <;> unfold acceptable <;> decide

theorem witness_DbufReadLittleEndian : (withTurn (.host ⟨0x1FF, 8, .read⟩) State.reset).turns =
      [.host ⟨0x1FF, 8, .read⟩] ∧ acceptable 0x1FF 8 ∧ acceptable 0x1FC 32 ∧ acceptable 0x100 16 ∧
      0x100 ≤ 0x1FF ∧ State.reset.busy = false := by
  refine ⟨rfl, ?_, ?_, ?_, by decide, rfl⟩ <;> unfold acceptable <;> decide

theorem witness_BusCannotSeeHiddenState : ∃ s s' t : State, s.turns = .host ⟨0x004, 32, .read⟩ :: [] ∧ s' ≠ s ∧
    s' = { s with sponge := s'.sponge, pr := s'.pr, k := s'.k } ∧ step s = .next t :=
  ⟨withTurn (rd32 0x004) State.reset, withTurn (rd32 0x004) withPoints, _, rfl,
    fun h => absurd (congrArg (fun u => u.pr.pr0.x) h) (by decide), rfl, rfl⟩

theorem witness_StepKeepsInvariant : ∃ s t : State, Inv s ∧ step s = .next t ∧ t.pr ≠ s.pr :=
  ⟨State.reset.withFetchWord 32 0x21000040, _, Inv.congr (Inv.resetEngine State.reset) rfl rfl rfl rfl rfl |> fun h =>
    ⟨h.dbuf_wf, h.rate_legal, h.points_valid, h.err_legal, fun _ => rfl⟩, rfl, by decide⟩

theorem witness_CommandsAlwaysEnd : Inv State.reset := Inv.resetEngine State.reset

/-- ERR = 1 stays over a STATUS read, and goes with CLR. -/
theorem witness_ErrorsAreSticky : ∃ s t c u : State, Inv s ∧ s.err ≠ 0 ∧ step s = .next t ∧ t.err = s.err ∧
    Inv c ∧ c.err ≠ 0 ∧ step c = .next u ∧ u.err = 0 ∧ writes c 0x008 1 [] := by
  have h := Inv.resetEngine State.reset
  refine ⟨withTurn (rd32 0x004) { State.reset with err := 1 }, _, withTurn (ctrl 1) { State.reset with err := 1 }, _,
    ⟨h.dbuf_wf, h.rate_legal, h.points_valid, by decide, by decide⟩, by decide, rfl, rfl,
    ⟨h.dbuf_wf, h.rate_legal, h.points_valid, by decide, by decide⟩, by decide, rfl, rfl, rfl⟩

/-- SINIT 200, and the illegal word 0 through the engine's step, with no turn left and at an engine turn. -/
theorem witness_FailedCommandChangesNothing : (∃ s t, s.err = 0 ∧ exec (.sinit 200) s = .next t ∧ t.err ≠ 0) ∧
    ∀ u ∈ [latched 0 withPoints, withTurn .engine (latched 0 withPoints)],
      u.busy = true ∧ u.err = 0 ∧ engineNext u [] ∧ ∃ v, step u = .next v ∧ v.err ≠ 0 := by
  refine ⟨⟨withPoints, _, rfl, rfl, by decide⟩, fun u hu => ?_⟩
  simp only [List.mem_cons, List.not_mem_nil, or_false] at hu
  rcases hu with rfl | rfl
  · exact ⟨rfl, rfl, .inl ⟨rfl, rfl⟩, _, rfl, by decide⟩
  · exact ⟨rfl, rfl, .inr rfl, _, rfl, by decide⟩

theorem witness_ErrorCodesOfCommands : ∃ (s t : State), s.err = 0 ∧ exec (.sfin 136 0) s = .next t ∧ t.err = 5 ∧ t.err ≠ 0 :=
  ⟨rated 136, _, rfl, rfl, rfl, by decide⟩

theorem witness_CommandsWriteOnlyTheirState : ∃ s t : State, exec (.pldg .p2) s = .next t ∧ t.pr ≠ s.pr :=
  ⟨State.reset, _, rfl, by decide⟩

theorem witness_OnlySinitAndResetWriteRate : ∃ s t r u : State, step s = .next t ∧ t.rate ≠ s.rate ∧ s.cmdl = some 0x10880000 ∧
    step r = .next u ∧ u.rate ≠ r.rate ∧ writes r 0x008 2 [] :=
  ⟨latched 0x10880000 State.reset, _, withTurn (ctrl 2) (rated 136), _, rfl, by decide, rfl, rfl, by decide, rfl⟩

theorem witness_OnlyPmulReadsScalar : ∃ (s t : State), (∀ d a, Instr.pldg .p0 ≠ .pmul d a) ∧ exec (.pldg .p0) s = .next t :=
  ⟨State.reset, _, fun _ _ => by simp, rfl⟩

theorem witness_SinitStartsInstance : (1 ≤ 1 ∧ 1 ≤ 199) ∧ (1 ≤ 199 ∧ 199 ≤ 199) ∧ ((0 : Nat) = 0 ∨ 200 ≤ 0) ∧
    ((200 : Nat) = 0 ∨ 200 ≤ 200) := by decide

theorem witness_SabsAbsorbsBlock : State.reset.rate = 0 ∧ (rated 199).rate ≠ 0 ∧ ∃ X : SpongeBytes,
    ∀ i (h : i < 200), X[i] = if i < (rated 199).rate.toNat then (rated 199).sponge[i] ^^^ buf (rated 199) i else (rated 199).sponge[i] :=
  ⟨rfl, by decide, Vector.ofFn fun i => if i.val < (rated 199).rate.toNat then (rated 199).sponge[i.val] ^^^ buf (rated 199) i.val
    else (rated 199).sponge[i.val], by simp⟩

/-- NoRate; BadLength at n = RATE; InvalidSuffix and success at n = RATE − 1. -/
theorem witness_SfinAbsorbsPaddedTail : State.reset.rate = 0 ∧ (rated 136).rate ≠ 0 ∧ (rated 136).rate.toNat ≤ 136 ∧
    135 < (rated 136).rate.toNat ∧ (0x80 : Byte) ≠ 0 ∧ ∃ X : SpongeBytes, ∀ i (h : i < 200), X[i] =
      if i < (rated 136).rate.toNat then (rated 136).sponge[i] ^^^ padByte (buf (rated 136)) 135 (rated 136).rate.toNat 0x80 i
      else (rated 136).sponge[i] :=
  ⟨rfl, by decide, by decide, by decide, by decide, Vector.ofFn fun i => if i.val < (rated 136).rate.toNat then
    (rated 136).sponge[i.val] ^^^ padByte (buf (rated 136)) 135 (rated 136).rate.toNat 0x80 i.val else (rated 136).sponge[i.val],
    by simp⟩

theorem witness_SsqzSqueezesBlock : State.reset.rate = 0 ∧ (rated 199).rate ≠ 0 ∧ (rated 199).rate.toNat ≤ 199 := by decide

theorem witness_RepeatedSqueezes : (rated 168).rate ≠ 0 ∧ (rated 168).rate.toNat ≤ 199 := by decide

theorem witness_PadblockIsLastBlock : ([1, 2] : List Byte).length < 3 ∧ (6 : Byte) ≠ 0 ∧ ([9, 9, 9, 1, 2] : List Byte).length % 3 = 2 ∧
    ([9, 9, 9, 1, 2] : List Byte).drop (5 - 2) = [1, 2] := by decide

/-- A multiple above the length, and a message on a block boundary. -/
theorem witness_PaddedLength : 0 < 136 ∧ 272 % 136 = 0 ∧ (List.replicate 136 (0 : Byte)).length < 272 ∧
    (List.replicate 136 (0 : Byte)).length % 136 = 0 := by simp

theorem witness_AbsorbSequenceAbsorbsAll : (rated 136).busy = false ∧ (rated 136).err = 0 ∧ (rated 136).rate ≠ 0 ∧
    (rated 136).rate.toNat ≤ 199 ∧ (0x1F : Byte) ≠ 0 := by decide

theorem witness_Sha3SequenceComputesDigest : 224 ∈ [224, 256, 384, 512] ∧ State.reset.busy = false ∧ State.reset.err = 0 := by
  decide

theorem witness_LeftEncodeShape : 0 < 1 ∧ (1 : Nat) < 2 ^ 2040 ∧ (2 : Nat) ^ 2040 ≤ 2 ^ 2040 := by decide +kernel

theorem witness_BytepadShape : 0 < 168 ∧ (168 : Nat) < 2 ^ 2040 := by decide +kernel

/-- O, G and the point (1, 0) of order 4 are points in the statements' terms. -/
theorem witness_isPoint : isPoint ⟨0, 1⟩ ∧ isPoint .generator ∧ isPoint ⟨1, 0⟩ := by
  unfold isPoint onE521
  decide +kernel

theorem bufValue_zero (i n : Nat) : bufValue State.reset i n = 0 := by
  unfold bufValue
  exact Finset.sum_eq_zero fun j _ => by simp [buf, State.reset, Memory.read, Memory.unlisted]

/-- DBUF[131] = 1 and all else 0 is the encoding of O; with DBUF all zero the pair is (0, 0), off the curve. -/
theorem witness_PldValidatesPoint : (131 : Nat) ≠ 132 ∧
    isPoint ⟨bufValue { State.reset with dbuf := [(0x183, 1)] } 0 66, bufValue { State.reset with dbuf := [(0x183, 1)] } 66 66⟩ ∧
    ¬isPoint ⟨bufValue State.reset 0 66, bufValue State.reset 66 66⟩ := by
  refine ⟨by decide, ?_, ?_⟩
  · rw [show bufValue { State.reset with dbuf := [(0x183, 1)] } 0 66 = 0 by decide +kernel,
      show bufValue { State.reset with dbuf := [(0x183, 1)] } 66 66 = 1 by decide +kernel]
    exact witness_isPoint.1
  · rw [bufValue_zero, bufValue_zero]
    unfold isPoint onE521
    decide +kernel

/-- The premise of PST's clause, of the copy, and of the point operations: registers that hold points. -/
theorem witness_pointRegisters : isPoint (withPoints.pr.get .p0) ∧ isPoint (withPoints.pr.get .p1) ∧
    isPoint (withPoints.pr.get .p2) := by
  unfold isPoint onE521
  decide +kernel

theorem witness_PstEncodesPoint : isPoint (withPoints.pr.get .p0) := witness_pointRegisters.1
theorem witness_StoreThenLoadCopiesPoint : isPoint (withPoints.pr.get .p1) := witness_pointRegisters.2.1
theorem witness_PaddAddsPoints : isPoint (withPoints.pr.get .p0) ∧ isPoint (withPoints.pr.get .p1) :=
  ⟨witness_pointRegisters.1, witness_pointRegisters.2.1⟩
theorem witness_PdblDoublesPoint : isPoint (withPoints.pr.get .p1) := witness_pointRegisters.2.1
theorem witness_PnegNegatesPoint : isPoint (withPoints.pr.get .p0) := witness_pointRegisters.1
theorem witness_PmulMultipliesByScalar : isPoint (withPoints.pr.get .p0) := witness_pointRegisters.1

theorem witness_PaddIdentityAndInverse : ∃ s : State, isPoint (s.pr.get .p0) ∧ s.pr.get .p1 = ⟨0, 1⟩ ∧
    s.pr.get .p2 = pointNeg (s.pr.get .p0) :=
  ⟨{ State.reset with pr := ⟨.generator, .identity, pointNeg .generator, .identity⟩ }, witness_isPoint.2.1, rfl, rfl⟩

theorem witness_PseudoCommandExpansions : isPoint (withPoints.pr.get .p0) ∧ isPoint (withPoints.pr.get .p1) ∧
    PReg.p2 ≠ .p0 := ⟨witness_pointRegisters.1, witness_pointRegisters.2.1, by decide⟩

theorem witness_KldLoadsScalar : (1 ≤ 1 ∧ 1 ≤ 66) ∧ (1 ≤ 66 ∧ 66 ≤ 66) ∧ ((0 : Nat) = 0 ∨ 66 < 0) ∧
    ((67 : Nat) = 0 ∨ 66 < 67) := by decide

/-- No point of the curve has x = 2 (V43). -/
theorem no_point_two (y : Nat) : ¬isPoint ⟨2, y⟩ := by
  rintro ⟨-, -, h⟩
  have hp : ((2 : Int) ^ 521 - 1) = (fieldP : Int) := by
    rw [fieldP_eq, Nat.cast_sub Nat.one_le_two_pow, Nat.cast_pow, Nat.cast_ofNat, Nat.cast_one]
  unfold onE521 at h
  rw [hp] at h
  have hz := (ZMod.intCast_eq_intCast_iff _ _ fieldP).mpr h
  have hj : jacobiSym (-4512171) fieldP = -1 := by
    unfold fieldP
    norm_num
  apply ZMod.nonsquare_of_jacobiSym_eq_neg_one hj
  refine ⟨((1504057 * y : Int) : ZMod fieldP), ?_⟩
  rw [← Int.cast_mul]
  have h2 : ((y : Int) ^ 2 * 1504057 : Int) ≡ -3 [ZMOD fieldP] := by
    have h3 := Int.ModEq.sub_right (4 + (-376014) * 4 * (y : Int) ^ 2) (show _ ≡ _ [ZMOD fieldP] from h)
    push_cast at h3
    ring_nf at h3 ⊢
    exact h3
  rw [ZMod.intCast_eq_intCast_iff]
  have h4 := h2.mul_right 1504057
  rw [show (1504057 * (y : Int)) * (1504057 * y) = (y : Int) ^ 2 * 1504057 * 1504057 by ring]
  exact h4.symm

/-- BadLength; x = p; x = 2, which no point has; x = 0, which O has. -/
theorem witness_PdecFindsEveryPoint : (65 : Nat) ≠ 66 ∧
    2 ^ 521 - 1 ≤ bufValue (loaded (ubeBytes 66 fieldP) State.reset) 0 66 ∧
    (bufValue { State.reset with dbuf := [(0x141, 2)] } 0 66 < 2 ^ 521 - 1 ∧
      ∀ y, ¬isPoint ⟨bufValue { State.reset with dbuf := [(0x141, 2)] } 0 66, y⟩) ∧
    (bufValue State.reset 0 66 < 2 ^ 521 - 1 ∧ ∃ y, isPoint ⟨bufValue State.reset 0 66, y⟩) := by
  have h2 : bufValue { State.reset with dbuf := [(0x141, 2)] } 0 66 = 2 := by decide +kernel
  refine ⟨by decide, by decide +kernel, ⟨?_, ?_⟩, ?_, ?_⟩
  · rw [h2]
    decide +kernel
  · rw [h2]
    exact no_point_two
  · rw [bufValue_zero]
    decide +kernel
  · rw [bufValue_zero]
    exact ⟨1, witness_isPoint.1⟩

end Sys2Proof.Tests
end

section
/-! PROOFS. The statements about the state (spec/10_state.md): what a command and a step can write, the invariant, the
registers the host reads and writes, RATE, the lane view and K. -/

namespace Sys2Proof.Machine

open Sys2Proof.Claims

/-! ### What a command writes -/

/-- What a command writes, field by field (spec/10_state.md R33): from `s` to the state `t` in which it ends. -/
structure Writes (i : Instr) (s t : State) : Prop where
  sponge : writesSponge i = true ∨ t.sponge = s.sponge
  rate : (∃ n, i = .sinit n ∧ 1 ≤ n ∧ n ≤ 199 ∧ t.rate = BitVec.ofNat 8 n) ∨ t.rate = s.rate
  dbuf : (writesBuf i = true ∧ ∃ bs : List Byte, bs.length ≤ 200 ∧ t.dbuf = s.dbuf.write dbufBase bs) ∨ t.dbuf = s.dbuf
  pr : (∃ d P, writesPr i = some d ∧ (s.pr.valid → P.valid = true) ∧ t.pr = s.pr.set d P) ∨ t.pr = s.pr
  k : (∃ n, i = .kld n) ∨ t.k = s.k
  err : (∃ e, Raises i e ∧ t.err = e.code) ∨ t.err = s.err

/-- Every command that ends writes what its shape in `Ends` says. -/
theorem exec_writes {i : Instr} {s t : State} (h : exec i s = .next t) : Writes i s t := by
  have hc := exec_cases i s
  generalize exec i s = o at hc h
  cases hc with
  | internal => simp at h
  | error e he =>
    obtain rfl := Host.Outcome.next.inj h
    constructor
    case err => exact Or.inl ⟨e, he, rfl⟩
    all_goals simp
  | sponge S hi =>
    obtain rfl := Host.Outcome.next.inj h
    constructor
    case sponge => rcases hi with rfl | rfl | rfl | ⟨_, _, rfl⟩ <;> exact Or.inl rfl
    all_goals simp
  | fresh n hi h1 h2 =>
    obtain rfl := Host.Outcome.next.inj h
    constructor
    case sponge => exact Or.inl (hi ▸ rfl)
    case rate => exact Or.inl ⟨n, hi, h1, h2, rfl⟩
    all_goals simp
  | stored hi =>
    obtain rfl := Host.Outcome.next.inj h
    constructor
    case dbuf => exact Or.inl ⟨hi ▸ rfl, _, by simp, rfl⟩
    all_goals simp
  | squeezed hi =>
    obtain rfl := Host.Outcome.next.inj h
    constructor
    case sponge => exact Or.inl (hi ▸ rfl)
    case dbuf => exact Or.inl ⟨hi ▸ rfl, s.sponge.toList.take s.rate.toNat, by simp, by simp⟩
    all_goals simp
  | encoded a hi =>
    obtain rfl := Host.Outcome.next.inj h
    constructor
    case dbuf => exact Or.inl ⟨hi ▸ rfl, _, by simp [toBytes, coordBytes], rfl⟩
    all_goals simp
  | point d P hP hi =>
    obtain rfl := Host.Outcome.next.inj h
    constructor
    case pr =>
      refine Or.inl ⟨d, P, ?_, hP, rfl⟩
      rcases hi with rfl | rfl | ⟨_, rfl⟩ | ⟨_, _, rfl⟩ | ⟨_, rfl⟩ | ⟨_, rfl⟩ | ⟨_, rfl⟩ | ⟨_, _, rfl⟩ <;> rfl
    all_goals simp
  | scalar n hi =>
    obtain rfl := Host.Outcome.next.inj h
    constructor
    case k => exact Or.inl ⟨n, hi⟩
    all_goals simp

/-! ### What a step can do -/

/-- A turn on the list is the next step. -/
theorem step_cons {s : State} {t : Turn} {ts : List Turn} (h : s.turns = t :: ts) :
    step s = runTurn t { s with turns := ts } := by
  simp [step, h]

/-- The engine's step comes with an engine turn, and when no turn is left (log 1). -/
theorem step_of_engineNext {s : State} {ts : List Turn} (h : engineNext s ts) :
    step s = engineStep { s with turns := ts } := by
  rcases h with ⟨hs, rfl⟩ | hs
  · have hself : { s with turns := [] } = s := by rw [← hs]
    rw [hself]
    simp [step, hs]
  · exact step_cons hs

/-- A step is the engine's, a host access or power-on reset. -/
theorem step_cases (s : State) :
    (∃ ts, engineNext s ts ∧ step s = engineStep { s with turns := ts }) ∨
      (∃ a ts, s.turns = .host a :: ts ∧ step s = hostAccess a { s with turns := ts }) ∨
      ∃ ts, s.turns = .powerOn :: ts ∧ step s = .next (State.resetEngine { s with turns := ts }) := by
  cases hs : s.turns with
  | nil => exact Or.inl ⟨[], Or.inl ⟨hs, rfl⟩, step_of_engineNext (Or.inl ⟨hs, rfl⟩)⟩
  | cons t ts =>
    cases t with
    | engine => exact Or.inl ⟨ts, Or.inr hs, step_cons hs⟩
    | host a => exact Or.inr (Or.inl ⟨a, ts, rfl, step_cons hs⟩)
    | powerOn => exact Or.inr (Or.inr ⟨ts, rfl, step_cons hs⟩)

/-- The engine's step holds an idle engine, executes the latched command, or ends an illegal word. -/
theorem engineStep_cases {s t : State} (h : engineStep s = .next t) :
    t = s ∨ (∃ w i, s.cmdl = some w ∧ decode w = .ok i ∧ exec i s = .next t) ∨ t = s.raise .illegalCommand := by
  unfold engineStep at h
  cases hw : s.cmdl with
  | none => exact Or.inl (by simpa [hw] using h.symm)
  | some w =>
    simp only [hw, runWord] at h
    cases hd : decode w with
    | ok i => exact Or.inr (Or.inl ⟨w, i, rfl, hd, by simpa [hd] using h⟩)
    | error e => exact Or.inr (Or.inr (by simpa [hd] using h.symm))

/-- An access that ends was accepted, and has one of the shapes of `Touches`. -/
theorem touches_of_hostAccess {a : Access} {s t : State} (h : hostAccess a s = .next t) :
    a.accepted = true ∧ Touches a s t := by
  rcases hostAccess_cases a s with ⟨-, hf⟩ | ⟨-, -, -, hf⟩ | ⟨ha, u, hu, ht⟩
  · simp [hf] at h
  · simp [hf] at h
  · obtain rfl : u = t := by simpa [hu] using h
    exact ⟨ha, ht⟩

/-- A CTRL write resets with SRST = 1; otherwise it clears the errors or does nothing (R43). -/
theorem State.control_cases (s : State) (v : Word) :
    (v.getLsbD 1 = true ∧ s.control v = s.resetEngine) ∨ s.control v = s.clearErrors ∨ s.control v = s := by
  unfold State.control
  split_ifs with h1 h0
  · exact Or.inl ⟨h1, rfl⟩
  · exact Or.inr (Or.inl rfl)
  · exact Or.inr (Or.inr rfl)

/-- A CMD write latches its word in an idle engine without an error, or sets OVR (spec/60_exceptions.md R330). -/
theorem State.submit_cases (s : State) (w : Word) :
    (s.err = 0 ∧ s.submit w = { s with cmdl := some w }) ∨ s.submit w = { s with ovr := true } := by
  unfold State.submit
  split_ifs with h
  · exact Or.inl ⟨h.2, rfl⟩
  · exact Or.inr rfl

/-! ### The invariant -/

/-- An error entry with a legal code keeps the invariant. -/
theorem Inv.raise {s : State} (hs : Inv s) {e : ErrCode} (he : legalErr e.code = true) : Inv (s.raise e) :=
  { hs with err_legal := he, busy_no_err := fun h => by simp at h }

/-- CTRL.CLR keeps the invariant. -/
theorem Inv.clearErrors {s : State} (hs : Inv s) : Inv s.clearErrors :=
  { hs with err_legal := rfl, busy_no_err := fun _ => rfl }

/-- A CMD write keeps the invariant: it latches a word only while ERR = 0. -/
theorem Inv.submit {s : State} (hs : Inv s) (w : Word) : Inv (s.submit w) := by
  rcases s.submit_cases w with ⟨he, h⟩ | h
  · rw [h]
    exact { hs with busy_no_err := fun _ => he }
  · rw [h]
    exact hs.congr rfl rfl rfl rfl rfl

/-- A CTRL write keeps the invariant. -/
theorem Inv.control {s : State} (hs : Inv s) (v : Word) : Inv (s.control v) := by
  rcases s.control_cases v with ⟨-, h⟩ | h | h <;> rw [h]
  · exact Inv.resetEngine s
  · exact hs.clearErrors
  · exact hs

/-- A write of bytes inside DBUF keeps the invariant. -/
theorem Inv.setDbuf {s : State} (hs : Inv s) {i : Nat} {bs : List Byte} (h : dbufBase + i + bs.length ≤ dbufEnd) :
    Inv (s.setDbuf i bs) :=
  { hs with dbuf_wf := Memory.wf_write hs.dbuf_wf _ _ (Nat.le_add_right _ _) h }

/-- Every command keeps the invariant. -/
theorem Inv.exec {i : Instr} {s t : State} (hs : Inv s) (h : exec i s = .next t) : Inv t where
  dbuf_wf := by
    rcases (exec_writes h).dbuf with ⟨-, bs, hlen, hd⟩ | hd <;> rw [hd]
    · exact Memory.wf_write hs.dbuf_wf _ _ le_rfl (by unfold dbufBase dbufEnd; omega)
    · exact hs.dbuf_wf
  rate_legal := by
    rcases (exec_writes h).rate with ⟨n, -, -, hn, hr⟩ | hr <;> rw [hr]
    · rw [BitVec.toNat_ofNat]
      omega
    · exact hs.rate_legal
  points_valid := by
    rcases (exec_writes h).pr with ⟨d, P, -, hP, hp⟩ | hp <;> rw [hp]
    · exact PointRegs.valid_set hs.points_valid d (hP hs.points_valid)
    · exact hs.points_valid
  err_legal := by
    rcases (exec_writes h).err with ⟨e, he, hc⟩ | hc <;> rw [hc]
    · exact ErrCode.legal_of_raises he
    · exact hs.err_legal
  busy_no_err hb := by
    obtain ⟨hc, -⟩ := exec_next_interface h
    simp [State.busy, hc] at hb

/-- The engine's step keeps the invariant. -/
theorem Inv.engineStep {s t : State} (hs : Inv s) (h : engineStep s = .next t) : Inv t := by
  rcases engineStep_cases h with rfl | ⟨w, i, -, -, hi⟩ | rfl
  · exact hs
  · exact hs.exec hi
  · exact hs.raise rfl

/-- A host access keeps the invariant. -/
theorem Inv.hostAccess {a : Access} {s t : State} (hs : Inv s) (h : hostAccess a s = .next t) : Inv t := by
  obtain ⟨ha, ht⟩ := touches_of_hostAccess h
  cases ht with
  | registerRead | dbufRead => exact hs.congr rfl rfl rfl rfl rfl
  | command w => exact hs.submit w
  | control v => exact hs.control v
  | ignored => exact hs
  | dbufWrite v _ ho =>
    obtain ⟨-, hin⟩ := Access.accepted_dbuf ha ho
    exact hs.setDbuf (by rw [busBytes_length]; omega)

/-- Settles O22: the reset state is a reset of itself. -/
theorem resetMeetsInvariant : Obligations.ResetMeetsInvariant := Inv.resetEngine State.reset

/-- Settles O23, by the three kinds of turn a step can take. -/
theorem stepKeepsInvariant : Obligations.StepKeepsInvariant := by
  intro s t hs h
  have hts : ∀ ts, Inv { s with turns := ts } := fun ts => hs.congr rfl rfl rfl rfl rfl
  rcases step_cases s with ⟨ts, -, he⟩ | ⟨a, ts, -, he⟩ | ⟨ts, -, he⟩ <;> rw [he] at h
  · exact (hts ts).engineStep h
  · exact (hts ts).hostAccess h
  · obtain rfl := Host.Outcome.next.inj h
    exact Inv.resetEngine _

/-! ### Accesses to the registers -/

/-- A 32-bit access to a register offset has the register's effect (spec/20_memory.md R72). -/
theorem hostAccess_register {off : Fin 0x200} (hlt : off.val < 0x100) (h4 : off.val % 4 = 0) (op : BusOp) (s : State) :
    hostAccess ⟨off, 32, op⟩ s = .next (registerAccess off.val op s) := by
  have ha : Access.accepted ⟨off, 32, op⟩ = true := by simp [Access.accepted, dbufBase, hlt, h4]
  simp [hostAccess, ha, dbufBase, hlt]

/-- An accepted access to a register offset is one of 32 bits (spec/20_memory.md R72). -/
theorem Access.accepted_register {a : Access} (h : a.accepted = true) (ho : a.off.val < dbufBase) :
    a.bits = 32 ∧ a.off.val % 4 = 0 := by
  simpa [Access.accepted, ho] using h

/-- The step of a register read. -/
theorem step_reads {s : State} {off : Fin 0x200} {ts : List Turn} (h : reads s off ts) (hlt : off.val < 0x100)
    (h4 : off.val % 4 = 0) : step s = .next (State.readRegister { s with turns := ts } off.val) :=
  (step_cons h).trans (hostAccess_register hlt h4 _ _)

/-- The step of a register write. -/
theorem step_writes {s : State} {off : Fin 0x200} {v : Word} {ts : List Turn} (h : writes s off v ts)
    (hlt : off.val < 0x100) (h4 : off.val % 4 = 0) :
    step s = .next (State.writeRegister { s with turns := ts } off.val v) :=
  (step_cons h).trans (hostAccess_register hlt h4 _ _)

/-- A register read that draws no free value only replies. -/
theorem State.readRegister_of_not_drawn {s : State} {off : Nat} (h : ¬(off = offRate ∧ s.pendingRate.isSome)) :
    s.readRegister off = s.reply (s.registerWord off) := by
  rw [State.readRegister, State.drawn, if_neg h]

/-- STATUS as a number: ERR from bit 4, OVR in bit 1, BUSY in bit 0 (R41). -/
theorem State.statusWord_toNat (s : State) :
    s.statusWord.toNat = s.err.toNat * 16 + s.ovr.toNat * 2 + s.busy.toNat := by
  have key : ∀ (e : BitVec 4) (o b : Bool), ((0 : BitVec 24) ++ e ++ (0 : BitVec 2) ++ BitVec.ofBool o ++
      BitVec.ofBool b).toNat = e.toNat * 16 + o.toNat * 2 + b.toNat := by decide
  exact key s.err s.ovr s.busy

/-- The fields of STATUS (R41). -/
theorem State.statusWord_fields (s : State) :
    s.statusWord.getLsbD 0 = s.busy ∧ s.statusWord.getLsbD 1 = s.ovr ∧ bits s.statusWord 7 4 = s.err.toNat ∧
      bits s.statusWord 3 2 = 0 ∧ bits s.statusWord 31 8 = 0 := by
  have hb := Bool.toNat_le s.busy
  have ho := Bool.toNat_le s.ovr
  have he := s.err.isLt
  refine ⟨?_, ?_, ?_, ?_, ?_⟩
  · simp only [State.statusWord, BitVec.getLsbD_append]
    simp
  · simp only [State.statusWord, BitVec.getLsbD_append]
    simp
  all_goals
    rw [bits, State.statusWord_toNat]
    omega

/-- No RATE is pending while no SINIT is in flight (spec/70_reset_and_hazards.md R372). -/
theorem State.pendingRate_of_no_sinit {s : State} (h : ∀ w n, s.cmdl = some w → decode w ≠ .ok (.sinit n)) :
    s.pendingRate = none := by
  unfold State.pendingRate
  split
  · rfl
  · split
    · exact absurd ‹_› (h _ _ ‹_›)
    · rfl

/-- With no RATE pending a register read returns RATE, ID, STATUS or 0, by the offset (R37, R41 to R45). -/
theorem State.registerWord_toNat {s : State} {off : Nat} (hs : off ≠ 0x004) (h : off = 0x00C → s.pendingRate = none) :
    (s.registerWord off).toNat = if off = 0x00C then s.rate.toNat else if off = 0x010 then 0x4B353231 else 0 := by
  have h1 : off ≠ offStatus := hs
  rw [State.registerWord, if_neg h1]
  by_cases hr : off = 0x00C
  · have hlt := s.rate.isLt
    simp only [if_pos hr, if_pos (show off = offRate from hr), State.readRate, h hr, BitVec.toNat_setWidth]
    omega
  · rw [if_neg hr, if_neg (show off ≠ offRate from hr)]
    by_cases hi : off = 0x010
    · rw [if_pos hi, if_pos (show off = offId from hi)]
      rfl
    · rw [if_neg hi, if_neg (show off ≠ offId from hi)]
      rfl

/-- The values of R49 after a reset of the engine. -/
theorem engineAtReset_resetEngine (s : State) : engineAtReset s.resetEngine := by
  refine ⟨fun i hi => ?_, rfl, fun _ _ => rfl, fun d => ?_, rfl, rfl, rfl, rfl, rfl⟩
  · simp [State.reset]
  · cases d <;> rfl

/-- Settles O11: both resets are `State.resetEngine`. -/
theorem resetsGiveResetValues : Obligations.ResetsGiveResetValues := by
  refine ⟨engineAtReset_resetEngine State.reset, fun s v ts h hv => ?_, fun s ts h => ?_⟩
  · have hc : State.writeRegister { s with turns := ts } 0x008 v = State.resetEngine { s with turns := ts } := if_pos hv
    exact ⟨_, (step_writes h (by decide) (by decide)).trans (congrArg _ hc), engineAtReset_resetEngine _, rfl, rfl, rfl⟩
  · exact ⟨_, step_cons h, engineAtReset_resetEngine _, rfl, rfl, rfl⟩

/-- Settles O12: the value is the STATUS word. -/
theorem statusReadValue : Obligations.StatusReadValue := by
  intro s ts h
  refine ⟨s.statusWord, ?_, s.statusWord_fields⟩
  rw [step_reads h (by decide) (by decide), State.readRegister_of_not_drawn fun hr => absurd hr.1 (by decide)]
  rfl

/-- Settles O13: the read draws no free value, so it only replies. -/
theorem registerReadValues : Obligations.RegisterReadValues := by
  intro s off ts h hlt h4 hs hsinit
  have hp : off.val = 0x00C → State.pendingRate { s with turns := ts } = none := fun hr =>
    State.pendingRate_of_no_sinit (hsinit hr)
  refine ⟨State.registerWord { s with turns := ts } off.val, ?_, State.registerWord_toNat hs hp⟩
  rw [step_reads h hlt h4, State.readRegister_of_not_drawn]
  · rfl
  · rintro ⟨hr, hsome⟩
    simp [hp hr] at hsome

/-- Settles O16: only the offsets of CMD and CTRL have a write effect. -/
theorem otherRegisterWritesIgnored : Obligations.OtherRegisterWritesIgnored := by
  intro s off v ts h hlt h4 hcmd hctrl
  have hw : State.writeRegister { s with turns := ts } off.val v = { s with turns := ts } :=
    (if_neg hcmd).trans (if_neg hctrl)
  rw [step_writes h hlt h4, hw]

/-! ### Frames of the commands -/

/-- Settles O28: the fields of `Writes`, and the interface fields no command writes. -/
theorem commandsWriteOnlyTheirState : Obligations.CommandsWriteOnlyTheirState := by
  intro i s t h
  obtain ⟨hS, hR, hD, hP, hK, -⟩ := exec_writes h
  obtain ⟨hcmdl, hovr, hturns, hreplies, hfree⟩ := exec_next_interface h
  refine ⟨fun hi => ?_, fun hi => ?_, fun hi a => ?_, fun a ha => ?_, fun d hd => ?_, fun hi => ?_, hovr, ?_, hturns,
    hreplies, hfree⟩
  · exact hS.resolve_left (by simp [hi])
  · exact hR.resolve_left fun ⟨n, hn, _⟩ => hi n hn
  · rw [hD.resolve_left (by simp [hi])]
  · rcases hD with ⟨-, bs, hlen, hD⟩ | hD <;> rw [hD]
    exact Memory.read_write_outside _ _ _ _ (by unfold dbufBase; omega)
  · rcases hP with ⟨e, P, he, -, hP⟩ | hP <;> rw [hP]
    exact PointRegs.get_set_other _ _ fun hde => hd (hde ▸ he)
  · exact hK.resolve_left fun ⟨n, hn⟩ => hi n hn
  · simp [State.busy, hcmdl]

/-! ### RATE over the steps of the machine -/

/-- A host access writes RATE only as a CTRL write with SRST = 1. -/
theorem hostAccess_rate {a : Access} {s t : State} (h : hostAccess a s = .next t) :
    t.rate = s.rate ∨ t.rate = 0 ∧ ∃ v, a = ⟨0x008, 32, .write v⟩ ∧ v.getLsbD 1 = true := by
  obtain ⟨ha, ht⟩ := touches_of_hostAccess h
  cases ht with
  | registerRead | dbufRead | dbufWrite | ignored => exact Or.inl rfl
  | command w =>
    rcases s.submit_cases w with ⟨-, hw⟩ | hw <;> exact Or.inl (by rw [hw])
  | control v hop ho =>
    rcases s.control_cases v with ⟨hv, hc⟩ | hc | hc
    · have hoff : a.off = 0x008 := Fin.ext ho
      have hbits : a.bits = 32 := (Access.accepted_register ha (by rw [ho]; decide)).1
      exact Or.inr ⟨by rw [hc]; rfl, v, by rw [← hoff, ← hbits, ← hop], hv⟩
    · exact Or.inl (by rw [hc]; rfl)
    · exact Or.inl (by rw [hc])

/-- Settles O29, by the three kinds of turn a step can take. -/
theorem onlySinitAndResetWriteRate : Obligations.OnlySinitAndResetWriteRate := by
  intro s t h hne
  rcases step_cases s with ⟨ts, hts, he⟩ | ⟨a, ts, hts, he⟩ | ⟨ts, hts, he⟩ <;> rw [he] at h
  · rcases engineStep_cases h with rfl | ⟨w, i, hw, hd, hi⟩ | rfl
    · exact absurd rfl hne
    · obtain ⟨n, rfl, h1, h2, hr⟩ := (exec_writes hi).rate.resolve_right hne
      refine Or.inl ⟨w, n, ts, hts, hw, hd, h1, h2, ?_⟩
      rw [hr, BitVec.toNat_ofNat]
      omega
    · exact absurd rfl hne
  · obtain ⟨hr, v, rfl, hv⟩ := (hostAccess_rate h).resolve_left hne
    exact Or.inr ⟨hr, Or.inr ⟨v, ts, hts, hv⟩⟩
  · obtain rfl := Host.Outcome.next.inj h
    exact Or.inr ⟨rfl, Or.inl ⟨ts, hts⟩⟩

/-! ### The lane view -/

/-- Settles O32: byte z/8 of a lane is a byte of S, and bit z is its bit z mod 8. -/
theorem laneByteView : Obligations.LaneByteView := by
  refine fun S => ⟨fun x y z hz => ?_, bytesOfLanes_lanesOfBytes S, lanesOfBytes_bytesOfLanes⟩
  have hbit : z % 8 < 8 := Nat.mod_lt z (by decide)
  rw [← lanesOfBytes_byte S x y (z / 8) (by omega), BitVec.getLsbD_extractLsb', Nat.div_add_mod]
  simp [hbit]

/-! ### K -/

/-- The outcome with K of its next state replaced. -/
def withScalar (v : BitVec 528) : Host.Outcome State Fault Refusal → Host.Outcome State Fault Refusal
  | .next t => .next { t with k := v }
  | .fault r => .fault r
  | .refused r => .refused r

theorem finishPoint_scalar (s : State) (d : PReg) (r : Option Point) (v : BitVec 528) :
    State.finishPoint { s with k := v } d r = withScalar v (s.finishPoint d r) := by
  cases r <;> rfl

/-- A command other than PMUL and KLD ends alike whatever K holds, and passes K through. -/
theorem exec_scalar {i : Instr} (hmul : ∀ d a, i ≠ .pmul d a) (hkld : ∀ n, i ≠ .kld n) (s : State) (v : BitVec 528) :
    exec i { s with k := v } = withScalar v (exec i s) := by
  have h : ∀ n, State.dbufBytes { s with k := v } n = s.dbufBytes n := fun _ => rfl
  cases i with
  | pmul d a => exact absurd rfl (hmul d a)
  | kld n => exact absurd rfl (hkld n)
  | padd | pdbl => exact finishPoint_scalar s _ _ v
  | sld | sst | pldo | pldg | pst | pneg => rfl
  | sperm => simp only [exec, execSperm, withScalar, State.setSponge, State.finish]
  | sinit n => simp only [exec, execSinit]; split <;> rfl
  | sabs =>
    simp only [exec, execSabs, h]
    split <;> simp only [withScalar, State.raise, State.setSponge, State.finish]
  | sfin n sx =>
    simp only [exec, execSfin, h]
    split_ifs <;> simp only [withScalar, State.raise, State.setSponge, State.finish]
  | ssqz =>
    simp only [exec, execSsqz]
    split <;> simp only [withScalar, State.raise, State.setSponge, State.setDbuf, State.finish]
  | pld d n =>
    simp only [exec, execPld, h]
    split
    · cases fromBytes (s.dbufBytes pointBytes) <;> rfl
    · rfl
  | pdec d n lsb =>
    simp only [exec, execPdec, h]
    split_ifs
    · cases ySquared (sbe (s.dbufBytes coordBytes)).toNat with
      | none => rfl
      | some u => cases hq : sqrtModP u lsb <;> simp only [hq, withScalar, State.raise, State.setPr, State.finish]
    · rfl
    · rfl

/-- Settles O30: KLD writes the same K whatever K held, and every other command but PMUL passes K through. -/
theorem onlyPmulReadsScalar : Obligations.OnlyPmulReadsScalar := by
  intro i s t v hmul h
  by_cases hkld : ∃ n, i = .kld n
  · obtain ⟨n, rfl⟩ := hkld
    simp only [exec, execKld] at h ⊢
    split_ifs at h ⊢ <;> obtain rfl := Host.Outcome.next.inj h <;> exact ⟨_, rfl, rfl⟩
  · refine ⟨{ t with k := v }, ?_, rfl⟩
    rw [exec_scalar hmul (fun n hn => hkld ⟨n, hn⟩), h]
    rfl

end Sys2Proof.Machine
end

section
/-! PROOFS. The statements about the host's window (spec/20_memory.md): which accesses end in a bus error, what a read may
change, the byte order of DBUF accesses, and the state no access can see. -/

namespace Sys2Proof.Machine

open Sys2Proof.Claims

/-! ### Which accesses are accepted -/

/-- The model accepts exactly the accesses of spec/20_memory.md R72. -/
theorem Access.accepted_iff (a : Access) : a.accepted = true ↔ acceptable a.off.val a.bits := by
  have hlt := a.off.isLt
  unfold Access.accepted acceptable dbufBase
  by_cases ho : a.off.val < 0x100
  · rw [if_pos ho, decide_eq_true_eq]
    omega
  · rw [if_neg ho, decide_eq_true_eq]
    omega

/-- A host access is a bus error exactly when the engine does not accept it. -/
theorem hostAccess_busError_iff (a : Access) (s : State) : hostAccess a s = .fault .busError ↔ a.accepted = false := by
  rcases hostAccess_cases a s with ⟨ha, he⟩ | ⟨ha, -, -, he⟩ | ⟨ha, t, he, -⟩ <;> simp [ha, he]

/-- An accepted access ends, unless it touches DBUF while BUSY = 1. -/
theorem hostAccess_ends {a : Access} {s : State} (ha : acceptable a.off.val a.bits)
    (hb : 0x100 ≤ a.off.val → s.busy = false) : ∃ t, hostAccess a s = .next t ∧ Touches a s t := by
  have hacc := a.accepted_iff.mpr ha
  rcases hostAccess_cases a s with ⟨hrej, -⟩ | ⟨-, ho, hbusy, -⟩ | ⟨-, hend⟩
  · simp [hacc] at hrej
  · simp [hb ho] at hbusy
  · exact hend

/-- The step of a host turn is the access. -/
theorem step_host {s : State} {a : Access} {ts : List Turn} (h : s.turns = .host a :: ts) :
    step s = hostAccess a { s with turns := ts } :=
  step_cons h

/-- Settles O17: the step of a host turn is the access, and the model accepts the accesses of R72. -/
theorem busErrorExactlyWhenUnacceptable : Obligations.BusErrorExactlyWhenUnacceptable := by
  intro s a ts h
  rw [step_host h, hostAccess_busError_iff, ← a.accepted_iff, Bool.not_eq_true]

/-! ### Reads -/

/-- A read appends one reply and changes nothing else but the counter of free values. -/
theorem Touches.of_read {a : Access} {s t : State} (h : Touches a s t) (hop : a.op = .read) :
    ∃ k v, t = State.reply { s with freeIdx := k } v := by
  cases h with
  | registerRead v k => exact ⟨k, v, rfl⟩
  | dbufRead => exact ⟨s.freeIdx, _, rfl⟩
  | command w hw | control w hw | ignored w hw | dbufWrite w hw => simp [hop] at hw

/-- Settles O15: an accepted read ends, and a reply and the free-value counter are no engine state. -/
theorem readsHaveNoSideEffect : Obligations.ReadsHaveNoSideEffect := by
  intro s off n ts h ha hb
  obtain ⟨t, hend, htouch⟩ := hostAccess_ends (a := ⟨off, n, .read⟩) (s := { s with turns := ts }) ha hb
  obtain ⟨k, v, rfl⟩ := htouch.of_read rfl
  exact ⟨_, v, (step_host h).trans hend, ⟨rfl, rfl, rfl, rfl, rfl, rfl, rfl, rfl⟩, rfl, rfl⟩

/-! ### The byte order of DBUF accesses -/

/-- DBUF[off − 0x100] stands at offset off. -/
theorem dbufBase_add_sub {off : Nat} (h : 0x100 ≤ off) : dbufBase + (off - dbufBase) = off := Nat.add_sub_cancel' h

/-- The step of an accepted access to DBUF on an idle engine. -/
theorem step_dbuf {s : State} {off : Fin 0x200} {n : Nat} {op : BusOp} {ts : List Turn}
    (h : s.turns = .host ⟨off, n, op⟩ :: ts) (ha : acceptable off.val n) (ho : 0x100 ≤ off.val) (hb : s.busy = false) :
    step s = .next (dbufAccess (off.val - dbufBase) (n / 8) op { s with turns := ts }) := by
  have hacc : ¬Access.accepted ⟨off, n, op⟩ = false := by simp [(Access.accepted_iff ⟨off, n, op⟩).mpr ha]
  have hbusy : ¬State.busy { s with turns := ts } = true := by simpa [State.busy] using hb
  exact (step_host h).trans ((if_neg hacc).trans ((if_neg (Nat.not_lt.mpr ho)).trans (if_neg hbusy)))

/-- Byte j of a bus value is its field 8j+7:8j. -/
theorem toNat_extractLsb'_byte (v : Word) (j : Nat) : (v.extractLsb' (8 * j) 8).toNat = bits v (8 * j + 7) (8 * j) := by
  rw [BitVec.extractLsb'_toNat, Nat.shiftRight_eq_div_pow, bits, show 8 * j + 7 + 1 - 8 * j = 8 by omega]

@[simp] theorem getElem_busBytes (v : Word) (n j : Nat) (h : j < (busBytes v n).length) :
    (busBytes v n)[j] = v.extractLsb' (8 * j) 8 := by
  simp [busBytes]

@[simp] theorem State.dbufSlice_length (s : State) (i n : Nat) : (s.dbufSlice i n).length = n := by
  simp [State.dbufSlice]

@[simp] theorem State.getElem_dbufSlice (s : State) (i n j : Nat) (h : j < (s.dbufSlice i n).length) :
    (s.dbufSlice i n)[j] = s.dbufByte (i + j) := by
  simp [State.dbufSlice]

/-- The value of a read of at most 4 bytes loses none of them. -/
theorem State.dbufWord_toNat (s : State) (i : Nat) {n : Nat} (hn : n ≤ 4) :
    (s.dbufWord i n).toNat = ule (s.dbufSlice i n) := by
  have hlt := ule_lt (s.dbufSlice i n)
  rw [State.dbufSlice_length] at hlt
  rw [State.dbufWord, BitVec.toNat_ofNat, Nat.mod_eq_of_lt]
  exact hlt.trans_le (Nat.pow_le_pow_right (by decide) (by omega))

/-- Settles O19: DBUF after the write, read inside and outside the bytes stored. -/
theorem dbufWriteLittleEndian : Obligations.DbufWriteLittleEndian := by
  intro s off n v ts h ha ho hb
  refine ⟨_, step_dbuf h ha ho hb, rfl, fun j hj => ?_, fun x hx => ?_⟩
  · have hlen : j < (busBytes v (n / 8)).length := by simpa using hj
    simp only [dbufAccess, State.setDbuf, dbufBase_add_sub ho]
    rw [Memory.read_write_inside _ _ _ j hlen, getElem_busBytes, toNat_extractLsb'_byte]
  · simp only [dbufAccess, State.setDbuf, dbufBase_add_sub ho]
    exact Memory.read_write_outside _ _ _ _ (by simpa using hx)

/-- Settles O20: the value is `ule` of the bytes read, at most 4 of them. -/
theorem dbufReadLittleEndian : Obligations.DbufReadLittleEndian := by
  intro s off n ts h ha ho hb
  obtain ⟨hwidth, -⟩ := Access.accepted_dbuf ((Access.accepted_iff ⟨off, n, .read⟩).mpr ha) ho
  have hn : n / 8 ≤ 4 := by
    rcases hwidth with h | h | h <;> exact h.trans_le (by decide)
  have hvalue := s.dbufWord_toNat (off.val - dbufBase) hn
  refine ⟨s.dbufWord (off.val - dbufBase) (n / 8), step_dbuf h ha ho hb, fun j hj => ?_, ?_⟩
  · have hlen : j < (s.dbufSlice (off.val - dbufBase) (n / 8)).length := by simpa using hj
    rw [bits, hvalue, show 8 * j + 7 + 1 - 8 * j = 8 by omega]
    refine (ule_byte _ j hlen).trans ?_
    rw [State.getElem_dbufSlice, State.dbufByte, ← Nat.add_assoc, dbufBase_add_sub ho]
  · calc (s.dbufWord (off.val - dbufBase) (n / 8)).toNat
      _ = ule (s.dbufSlice (off.val - dbufBase) (n / 8)) := hvalue
      _ < 2 ^ (8 * (n / 8)) := by simpa using ule_lt (s.dbufSlice (off.val - dbufBase) (n / 8))
      _ ≤ 2 ^ n := Nat.pow_le_pow_right (by decide) (Nat.mul_div_le n 8)

/-! ### The state no access can see -/

/-- The state with S, the point registers and K replaced: the pieces in no address space (spec/20_memory.md R70). -/
def State.withHidden (S : SpongeBytes) (P : PointRegs) (K : BitVec 528) (s : State) : State :=
  { s with sponge := S, pr := P, k := K }

section Hidden
variable (S : SpongeBytes) (P : PointRegs) (K : BitVec 528) (s : State)

theorem State.drawn_withHidden (off : Nat) : (s.withHidden S P K).drawn off = (s.drawn off).withHidden S P K := by
  rw [State.drawn, State.drawn, apply_ite (State.withHidden S P K)]
  rfl

theorem State.submit_withHidden (w : Word) : (s.withHidden S P K).submit w = (s.submit w).withHidden S P K := by
  rw [State.submit, State.submit, apply_ite (State.withHidden S P K)]
  rfl

/-- A register read returns the same value. -/
theorem State.readRegister_withHidden (off : Nat) :
    (s.withHidden S P K).readRegister off = (s.readRegister off).withHidden S P K := by
  rw [State.readRegister, State.drawn_withHidden]
  rfl

/-- A CTRL write either resets S, the point registers and K with the rest, or leaves them. -/
theorem State.control_withHidden (v : Word) :
    (s.withHidden S P K).control v = s.control v ∨
      (s.withHidden S P K).control v = (s.control v).withHidden S P K := by
  unfold State.control
  split_ifs
  exacts [Or.inl rfl, Or.inr rfl, Or.inr rfl]

/-- A register write has the same visible effect. -/
theorem State.writeRegister_withHidden (off : Nat) (v : Word) :
    (s.withHidden S P K).writeRegister off v = s.writeRegister off v ∨
      (s.withHidden S P K).writeRegister off v = (s.writeRegister off v).withHidden S P K := by
  unfold State.writeRegister
  split_ifs
  · exact Or.inr (s.submit_withHidden S P K v)
  · exact s.control_withHidden S P K v
  · exact Or.inr rfl

/-- An access to DBUF sees and changes DBUF alone. -/
theorem dbufAccess_withHidden (i n : Nat) (op : BusOp) :
    dbufAccess i n op (s.withHidden S P K) = (dbufAccess i n op s).withHidden S P K := by
  cases op <;> rfl

/-- An access that ends ends alike whatever S, the point registers and K hold: it leaves them, or resets them. -/
theorem hostAccess_withHidden {a : Access} {s t : State} (h : hostAccess a s = .next t) :
    hostAccess a (s.withHidden S P K) = .next t ∨
      hostAccess a (s.withHidden S P K) = .next (t.withHidden S P K) := by
  have hbusy : (s.withHidden S P K).busy = s.busy := rfl
  unfold hostAccess at h ⊢
  rw [hbusy]
  split_ifs at h ⊢ with hacc hreg hb
  · obtain rfl := Host.Outcome.next.inj h
    cases a.op with
    | read => exact Or.inr (congrArg _ (s.readRegister_withHidden S P K _))
    | write v => exact (s.writeRegister_withHidden S P K _ v).imp (congrArg _) (congrArg _)
  · obtain rfl := Host.Outcome.next.inj h
    exact Or.inr (congrArg _ (dbufAccess_withHidden S P K s _ _ _))

end Hidden

/-- Settles O21: the second state is the first with S, the point registers and K replaced. -/
theorem busCannotSeeHiddenState : Obligations.BusCannotSeeHiddenState := by
  intro s s' t a ts h hs' ht
  have hturns : s'.turns = .host a :: ts := by rw [hs']; exact h
  have hhide : { s' with turns := ts } = State.withHidden s'.sponge s'.pr s'.k { s with turns := ts } := by
    rw [hs']
    rfl
  rw [step_host h] at ht
  rw [step_host hturns, hhide]
  rcases hostAccess_withHidden s'.sponge s'.pr s'.k ht with he | he <;> exact ⟨_, he, rfl⟩

end Sys2Proof.Machine
end

section
/-! PROOFS. The statements about the command format (spec/30_encoding.md): a command and its word determine each other, the
legal words, the masks of the opcode table and the words of the commands. -/

namespace Sys2Proof

open Sys2Proof.Claims

/-! ### A command and its fields -/

/-- The word of a well-formed command carries its opcode, and its fields pass the checks of R104. -/
theorem encode_accepted {i : Instr} (h : i.wellFormed = true) :
    (fieldsOf (encode i)).opc = i.opcode.byte ∧ i.opcode.Accepts (fieldsOf (encode i)) := by
  cases i with
  | sperm => exact Laws.LegalFields.sperm h
  | sld => exact Laws.LegalFields.sld h
  | sst => exact Laws.LegalFields.sst h
  | sinit n => exact Laws.LegalFields.sinit n h
  | sabs => exact Laws.LegalFields.sabs h
  | sfin n s => exact Laws.LegalFields.sfin n s h
  | ssqz => exact Laws.LegalFields.ssqz h
  | pldo d => exact Laws.LegalFields.pldo d h
  | pldg d => exact Laws.LegalFields.pldg d h
  | pld d n => exact Laws.LegalFields.pld d n h
  | pst a => exact Laws.LegalFields.pst a h
  | padd d a b => exact Laws.LegalFields.padd d a b h
  | pdbl d a => exact Laws.LegalFields.pdbl d a h
  | pneg d a => exact Laws.LegalFields.pneg d a h
  | pmul d a => exact Laws.LegalFields.pmul d a h
  | kld n => exact Laws.LegalFields.kld n h
  | pdec d n lsb => exact Laws.LegalFields.pdec d n lsb h

/-- A count that fits its field is read back from it. -/
theorem toNat_ofNat_count {n : Nat} (h : n ≤ 255) : (BitVec.ofNat 8 n).toNat = n := by
  rw [BitVec.toNat_ofNat]
  omega

/-- The operands of a well-formed command are read back from its fields. -/
theorem Instr.instr_encodeFields {i : Instr} (h : i.wellFormed = true) : i.opcode.instr (encodeFields i) = i := by
  cases i with
  | sperm | sld | sst | sabs | ssqz => rfl
  | pldo | pldg | pst | padd | pdbl | pneg | pmul =>
    simp only [Instr.opcode, Opcode.instr, encodeFields, PReg.ofBits_bits]
  | sinit n | sfin n s | pld d n | kld n =>
    simp only [Instr.opcode, Opcode.instr, encodeFields, toNat_ofNat_count (of_decide_eq_true h), PReg.ofBits_bits]
  | pdec d n lsb =>
    simp only [Instr.opcode, Opcode.instr, encodeFields, toNat_ofNat_count (of_decide_eq_true h), PReg.ofBits_bits]
    cases lsb <;> rfl

/-- A command read from fields is well formed. -/
theorem Opcode.instr_wellFormed (o : Opcode) (f : Fields) : (o.instr f).wellFormed = true := by
  have hn : f.n.toNat ≤ 255 := Nat.le_of_lt_succ f.n.isLt
  cases o with
  | sinit | sfin | pld | kld | pdec => exact decide_eq_true hn
  | sperm | sld | sst | sabs | ssqz | pldo | pldg | pst | padd | pdbl | pneg | pmul => rfl

/-- A parity byte is the byte of its low bit. -/
theorem parityByte_eq : ∀ sx : Byte, sx.toNat ≤ 1 → (if sx.getLsbD 0 then 1 else 0) = sx := by
  decide

/-- Fields an opcode accepts are those of the command read from them. -/
theorem Opcode.encodeFields_instr {o : Opcode} {f : Fields} (hopc : o.byte = f.opc) (h : o.Accepts f) :
    encodeFields (o.instr f) = f := by
  obtain ⟨opc, n, sx, rd, ra, rb, z⟩ := f
  obtain ⟨hn, hsx, hrd, hra, hrb, hz, hpar⟩ := h
  obtain rfl : o.byte = opc := hopc
  cases o with
  | pdec =>
    have hbyte := parityByte_eq sx (hpar rfl)
    simp_all [encodeFields, Opcode.instr, bareFields, Opcode.uses]
  | _ => simp_all [encodeFields, Opcode.instr, bareFields, Opcode.uses]

/-! ### The accepted words -/

/-- Once for all when a word decodes to a command: its fields carry an opcode that accepts them. -/
theorem decode_ok_iff (w : Word) (i : Instr) :
    decode w = .ok i ↔ ∃ o : Opcode, (fieldsOf w).opc = o.byte ∧ o.Accepts (fieldsOf w) ∧ i = o.instr (fieldsOf w) := by
  refine (decodeFields_ok_iff (fieldsOf w) i).trans (exists_congr fun o => and_congr_left fun _ => ?_)
  constructor
  · exact fun h => (Opcode.byte_of_ofByte _ _ h).symm
  · exact fun h => by rw [h, Opcode.ofByte_byte]

/-- A word decodes to a command of an opcode exactly when it carries the opcode and the opcode accepts its fields. -/
theorem exists_decode_opcode_iff (w : Word) (o : Opcode) :
    (∃ i, decode w = .ok i ∧ i.opcode = o) ↔ (fieldsOf w).opc = o.byte ∧ o.Accepts (fieldsOf w) := by
  constructor
  · rintro ⟨i, hi, rfl⟩
    obtain ⟨o, hopc, hacc, rfl⟩ := (decode_ok_iff w i).mp hi
    rw [Opcode.instr_opcode]
    exact ⟨hopc, hacc⟩
  · rintro ⟨hopc, hacc⟩
    exact ⟨_, (decode_ok_iff w _).mpr ⟨o, hopc, hacc, rfl⟩, Opcode.instr_opcode o _⟩

/-- Settles O1: the word's fields carry the command's opcode, are accepted, and give the operands back. -/
theorem decodeInvertsEncode : Obligations.DecodeInvertsEncode := by
  intro i h
  obtain ⟨hopc, hacc⟩ := encode_accepted h
  refine (decode_ok_iff _ _).mpr ⟨i.opcode, hopc, hacc, ?_⟩
  rw [encode, fieldsOf_wordOf, Instr.instr_encodeFields h]

/-- Settles O2: the fields of the word are those of the command read from them. -/
theorem encodeInvertsDecode : Obligations.EncodeInvertsDecode := by
  intro w i h
  obtain ⟨o, hopc, hacc, rfl⟩ := (decode_ok_iff w i).mp h
  refine ⟨o.instr_wellFormed _, ?_⟩
  rw [encode, Opcode.encodeFields_instr hopc.symm hacc, wordOf_fieldsOf]

/-! ### The opcode map and the opcode table -/

/-- The opcodes in the order of R103. -/
def Opcode.all : List Opcode :=
  [.sperm, .sld, .sst, .sinit, .sabs, .sfin, .ssqz, .pldo, .pldg, .pld, .pst, .padd, .pdbl, .pneg, .pmul, .kld, .pdec]

theorem Opcode.mem_all (o : Opcode) : o ∈ Opcode.all := by
  cases o <;> decide

/-- The row of the opcode map of R103 that the decoder follows for an opcode. -/
def Opcode.mapRow (o : Opcode) : MapRow := ⟨o.byte.toNat, o.uses.n, o.uses.sx, o.uses.rd, o.uses.ra, o.uses.rb⟩

theorem commandMap_eq : commandMap = Opcode.all.map Opcode.mapRow := rfl

/-- The bits of a word that R104 fixes for an opcode: OPC, the fields that must be zero, Z, and bits 15:9 for PDEC. -/
def Opcode.fixedFields (o : Opcode) : Fields where
  opc := .allOnes 8
  n := if o.uses.n then 0 else .allOnes 8
  sx := if o = .pdec then 0xFE else if o.uses.sx then 0 else .allOnes 8
  rd := if o.uses.rd then 0 else .allOnes 2
  ra := if o.uses.ra then 0 else .allOnes 2
  rb := if o.uses.rb then 0 else .allOnes 2
  z := .allOnes 2

/-- The table row of an opcode: its bare word under the mask of the bits R104 fixes. -/
def Opcode.tableRow (o : Opcode) : OpcodeRow := ⟨o, wordOf (bareFields o), wordOf o.fixedFields⟩

theorem opcodeRows_eq : opcodeRows = Opcode.all.map Opcode.tableRow := by decide

/-- The fields of a masked word are the masked fields. -/
theorem fieldsOf_and (w v : Word) : fieldsOf (w &&& v) =
    { opc := (fieldsOf w).opc &&& (fieldsOf v).opc
      n := (fieldsOf w).n &&& (fieldsOf v).n
      sx := (fieldsOf w).sx &&& (fieldsOf v).sx
      rd := (fieldsOf w).rd &&& (fieldsOf v).rd
      ra := (fieldsOf w).ra &&& (fieldsOf v).ra
      rb := (fieldsOf w).rb &&& (fieldsOf v).rb
      z := (fieldsOf w).z &&& (fieldsOf v).z } := by
  simp only [fieldsOf, BitVec.extractLsb'_and]

/-- A masked word is another word exactly when the masked fields are that word's. -/
theorem and_eq_iff_fieldsOf (w m p : Word) : w &&& m = p ↔ fieldsOf (w &&& m) = fieldsOf p :=
  ⟨congrArg fieldsOf, fun h => fieldsOf_injective h⟩

/-- A field under its mask is zero exactly when it is an operand or zero. -/
theorem masked_eq_zero_iff {n : Nat} (v : BitVec n) (u : Bool) :
    v &&& (if u then 0 else .allOnes n) = 0 ↔ (u = false → v = 0) := by
  cases u with
  | false => simp
  | true => simp

theorem parity_masked_eq_zero_iff : ∀ v : Byte, v &&& 0xFE = 0 ↔ v.toNat ≤ 1 := by
  decide

/-- SX under its mask is zero exactly when it passes the checks of R104 on it. -/
theorem Opcode.suffix_masked_eq_zero_iff (o : Opcode) (v : Byte) :
    v &&& o.fixedFields.sx = 0 ↔ (o.uses.sx = false → v = 0) ∧ (o = .pdec → v.toNat ≤ 1) := by
  by_cases ho : o = .pdec
  · subst ho
    simpa [Opcode.fixedFields, Opcode.uses] using parity_masked_eq_zero_iff v
  · simpa [Opcode.fixedFields, ho] using masked_eq_zero_iff v o.uses.sx

/-- A word matches the mask and pattern of an opcode exactly when it carries the opcode and the opcode accepts its fields. -/
theorem Opcode.matches_tableRow_iff (o : Opcode) (w : Word) :
    w &&& o.tableRow.mask = o.tableRow.pattern ↔ (fieldsOf w).opc = o.byte ∧ o.Accepts (fieldsOf w) := by
  rw [and_eq_iff_fieldsOf, fieldsOf_and, Opcode.tableRow, fieldsOf_wordOf, fieldsOf_wordOf, bareFields]
  rw [Fields.mk.injEq, Opcode.suffix_masked_eq_zero_iff]
  simp only [Opcode.fixedFields, BitVec.and_allOnes, masked_eq_zero_iff]
  constructor
  · rintro ⟨hopc, hn, ⟨hsx, hpar⟩, hrd, hra, hrb, hz⟩
    exact ⟨hopc, hn, hsx, hrd, hra, hrb, hz, hpar⟩
  · rintro ⟨hopc, hn, hsx, hrd, hra, hrb, hz, hpar⟩
    exact ⟨hopc, hn, ⟨hsx, hpar⟩, hrd, hra, hrb, hz⟩

/-- Settles O4: both sides are the conditions of R104 on the fields of the word. -/
theorem decodeAgreesWithTableMasks : Obligations.DecodeAgreesWithTableMasks := by
  intro r hr w
  rw [opcodeRows_eq] at hr
  obtain ⟨o, -, rfl⟩ := List.mem_map.mp hr
  exact (o.matches_tableRow_iff w).trans (exists_decode_opcode_iff w o).symm

/-! ### The legal words of R104 -/

/-- A field that starts at bit `lo` is the bits `hi:lo` of the word. -/
theorem toNat_extractLsb'_field (w : Word) (hi lo : Nat) :
    (w.extractLsb' lo (hi + 1 - lo)).toNat = bits w hi lo := by
  rw [BitVec.extractLsb'_toNat, Nat.shiftRight_eq_div_pow, bits]

/-- A field is zero exactly when its bits are 0 as a number. -/
theorem extractLsb'_eq_zero_iff (w : Word) (hi lo : Nat) :
    w.extractLsb' lo (hi + 1 - lo) = 0 ↔ bits w hi lo = 0 := by
  rw [← toNat_extractLsb'_field, ← BitVec.toNat_inj]
  simp

/-- Only PDEC has the opcode 0x29. -/
theorem Opcode.byte_eq_pdec_iff (o : Opcode) : o.byte.toNat = 0x29 ↔ o = .pdec := by
  cases o <;> decide

/-- The conditions of R104 on the bits of a word are those on its fields, for the opcode it carries. -/
theorem legalWord_iff (w : Word) : legalWord w ↔ ∃ o : Opcode, (fieldsOf w).opc = o.byte ∧ o.Accepts (fieldsOf w) := by
  have hopc : (fieldsOf w).opc.toNat = bits w 31 24 := toNat_extractLsb'_field w 31 24
  have hsx : (fieldsOf w).sx.toNat = bits w 15 8 := toNat_extractLsb'_field w 15 8
  have hn0 : (fieldsOf w).n = 0 ↔ bits w 23 16 = 0 := extractLsb'_eq_zero_iff w 23 16
  have hsx0 : (fieldsOf w).sx = 0 ↔ bits w 15 8 = 0 := extractLsb'_eq_zero_iff w 15 8
  have hrd0 : (fieldsOf w).rd = 0 ↔ bits w 7 6 = 0 := extractLsb'_eq_zero_iff w 7 6
  have hra0 : (fieldsOf w).ra = 0 ↔ bits w 5 4 = 0 := extractLsb'_eq_zero_iff w 5 4
  have hrb0 : (fieldsOf w).rb = 0 ↔ bits w 3 2 = 0 := extractLsb'_eq_zero_iff w 3 2
  have hz0 : (fieldsOf w).z = 0 ↔ bits w 1 0 = 0 := extractLsb'_eq_zero_iff w 1 0
  constructor
  · rintro ⟨⟨r, hr, ho, hn, hs, hd, ha, hb⟩, hz, hpar⟩
    rw [commandMap_eq] at hr
    obtain ⟨o, -, rfl⟩ := List.mem_map.mp hr
    refine ⟨o, BitVec.eq_of_toNat_eq (hopc.trans ho), fun h => hn0.mpr (hn h), fun h => hsx0.mpr (hs h),
      fun h => hrd0.mpr (hd h), fun h => hra0.mpr (ha h), fun h => hrb0.mpr (hb h), hz0.mpr hz, fun h => ?_⟩
    rw [hsx]
    exact hpar (ho.trans (o.byte_eq_pdec_iff.mpr h))
  · rintro ⟨o, ho, hn, hs, hd, ha, hb, hz, hpar⟩
    have ho' : bits w 31 24 = o.byte.toNat := by rw [← hopc, ho]
    refine ⟨⟨o.mapRow, ?_, ho', fun h => hn0.mp (hn h), fun h => hsx0.mp (hs h), fun h => hrd0.mp (hd h),
      fun h => hra0.mp (ha h), fun h => hrb0.mp (hb h)⟩, hz0.mp hz, fun h => ?_⟩
    · rw [commandMap_eq]
      exact List.mem_map_of_mem o.mem_all
    · rw [← hsx]
      exact hpar (o.byte_eq_pdec_iff.mp (ho'.symm.trans h))

/-- A word decodes to a command exactly when it is legal. -/
theorem exists_decode_iff_legalWord (w : Word) : (∃ i, decode w = .ok i) ↔ legalWord w := by
  rw [legalWord_iff]
  constructor
  · rintro ⟨i, hi⟩
    exact ⟨i.opcode, (exists_decode_opcode_iff w _).mp ⟨i, hi, rfl⟩⟩
  · rintro ⟨o, ho⟩
    obtain ⟨i, hi, -⟩ := (exists_decode_opcode_iff w o).mpr ho
    exact ⟨i, hi⟩

/-! ### The words of the commands -/

/-- Appending bits on the right adds them below the shifted ones. -/
theorem toNat_append_eq_add {m n : Nat} (v : BitVec m) (u : BitVec n) :
    (v ++ u).toNat = v.toNat * 2 ^ n + u.toNat := by
  rw [BitVec.toNat_append, ← Nat.shiftLeft_add_eq_or_of_lt u.isLt, Nat.shiftLeft_eq]

/-- A word as the sum of its shifted fields (R101). -/
theorem wordOf_toNat (f : Fields) : (wordOf f).toNat =
    f.opc.toNat * 2 ^ 24 + f.n.toNat * 2 ^ 16 + f.sx.toNat * 2 ^ 8 + f.rd.toNat * 2 ^ 6 + f.ra.toNat * 2 ^ 4 +
      f.rb.toNat * 2 ^ 2 + f.z.toNat := by
  simp only [wordOf, toNat_append_eq_add]
  omega

@[simp] theorem PReg.toNat_bits (d : PReg) : d.bits.toNat = regNum d := by
  cases d <;> rfl

/-- PDEC's parity byte is the parity as a number. -/
theorem toNat_parityByte (lsb : Bool) : (if lsb then 1#8 else 0#8).toNat = lsb.toNat := by
  cases lsb <;> rfl

/-- Settles O5: each word is the sum of the shifted fields of its command, of which the unused are zero. -/
theorem commandWordValues : Obligations.CommandWordValues := by
  intro d a b n hn x lsb
  refine ⟨rfl, rfl, rfl, ?_, rfl, ?_, rfl, ?_, ?_, ?_, ?_, ?_, ?_, ?_, ?_, ?_, ?_⟩
  all_goals
    rw [encode, wordOf_toNat]
    simp [encodeFields, bareFields, Opcode.byte, toNat_ofNat_count hn, toNat_parityByte]

end Sys2Proof
end

section
/-! PROOFS. What the engine does with an illegal word, and the pseudo-commands (spec/30_encoding.md R104, R108). -/

namespace Sys2Proof.Machine

open Sys2Proof.Claims

/-! ### Illegal words -/

/-- A word that is not legal ends with IllegalCommand, nothing else (R104). -/
theorem runWord_illegal {w : Word} (h : ¬legalWord w) (s : State) : runWord w s = .next (s.raise .illegalCommand) := by
  cases hd : decode w with
  | ok i => exact absurd ((exists_decode_iff_legalWord w).mp ⟨i, hd⟩) h
  | error e => simp only [runWord, hd]

/-- Settles O3: the legal words are those that decode, and the engine's step runs the latched word. -/
theorem legalWordConditions : Obligations.LegalWordConditions := by
  refine fun w => ⟨exists_decode_iff_legalWord w, fun s ts hw hts hill => ?_⟩
  have hstep : engineStep { s with turns := ts } = runWord w { s with turns := ts } := by
    simp only [engineStep, hw]
  rw [step_of_engineNext hts, hstep, runWord_illegal hill]
  rfl

/-! ### Points as the claims state them -/

/-- The curve equation over the integers is the one in ZMod p (spec/43_e521.md R254). -/
theorem onE521_iff (x y : Nat) : onE521 x y ↔ Edwards.On (curveD : ZMod fieldP) x y := by
  have hp : (2 ^ 521 - 1 : Int) = (fieldP : Int) := by decide +kernel
  rw [onE521, hp, ← ZMod.intCast_eq_intCast_iff', Edwards.On, cast_curveD]
  push_cast
  ring_nf

/-- The points of the claims are the model's valid points (spec/10_state.md R39). -/
theorem isPoint_iff (P : Point) : isPoint P ↔ P.valid = true := by
  rw [isPoint, onE521_iff, ← fieldP_eq]
  constructor
  · rintro ⟨hx, hy, hon⟩
    exact Point.valid_of_on hx hy hon
  · exact fun h => ⟨Point.valid_x_lt h, Point.valid_y_lt h, Point.valid_on h⟩

/-! ### Point results, one after the other -/

/-- A command that ends with a point result writes PR[d] alone. -/
theorem onlyPr_setPr (s : State) (d : PReg) (P : Point) : onlyPr d s (s.setPr d P).finish :=
  ⟨rfl, fun _ he => PointRegs.get_set_other s.pr P he⟩

/-- Two commands that write PR[d] alone write PR[d] alone. -/
theorem onlyPr_trans {d : PReg} {s t u : State} (hst : onlyPr d s t) (htu : onlyPr d t u) : onlyPr d s u := by
  obtain ⟨ht, hst⟩ := hst
  obtain ⟨hu, htu⟩ := htu
  refine ⟨?_, fun e he => (htu e he).trans (hst e he)⟩
  rw [hu, ht]

/-- A sequence goes on from the state in which its first command ends. -/
theorem execAll_cons {i : Instr} {s t : State} (h : exec i s = .next t) (is : List Instr) :
    execAll (i :: is) s = execAll is t := by
  simp only [execAll, h]

/-- PNEG Pd, Pa writes the negated point (spec/43_e521.md R276). -/
theorem exec_pneg (d a : PReg) (s : State) :
    exec (.pneg d a) s = .next (s.setPr d (pointNeg (s.pr.get a))).finish := rfl

/-- PADD Pd, Pa, Pb writes the sum where it exists (spec/43_e521.md R274). -/
theorem exec_padd {d a b : PReg} {s : State} {R : Point} (h : pointAdd (s.pr.get a) (s.pr.get b) = some R) :
    exec (.padd d a b) s = .next (s.setPr d R).finish := by
  simp only [exec, execPadd, h, State.finishPoint]

/-! ### The pseudo-commands of R108 -/

/-- PMOV Pd, Pa copies a point. -/
theorem execAll_pseudoPmov (d : PReg) {a : PReg} {s : State} (h : (s.pr.get a).valid = true) :
    ∃ t, execAll (pseudoPmov d a) s = .next t ∧ onlyPr d s t ∧ t.pr.get d = s.pr.get a := by
  refine ⟨_, execAll_cons (exec_pneg d a s) _, onlyPr_trans (onlyPr_setPr s d _) (onlyPr_setPr _ d _), ?_⟩
  simp [pointNeg_pointNeg h]

/-- PSUB Pd, Pa, Pb with d ≠ a adds the negated point. -/
theorem execAll_pseudoPsub {d a b : PReg} {s : State} (ha : (s.pr.get a).valid = true)
    (hb : (s.pr.get b).valid = true) (hda : d ≠ a) :
    ∃ t, execAll (pseudoPsub d a b) s = .next t ∧ onlyPr d s t ∧
      pointAdd (s.pr.get a) (pointNeg (s.pr.get b)) = some (t.pr.get d) := by
  obtain ⟨R, hR, -, -⟩ := pointAdd_spec ha (pointNeg_valid hb)
  have hneg := exec_pneg d b s
  generalize hu : (s.setPr d (pointNeg (s.pr.get b))).finish = u at hneg
  have hua : u.pr.get a = s.pr.get a := by
    rw [← hu]
    exact PointRegs.get_set_other s.pr _ hda.symm
  have hud : u.pr.get d = pointNeg (s.pr.get b) := by
    simp [← hu]
  have hadd : exec (.padd d a d) u = .next (u.setPr d R).finish := exec_padd (by rw [hua, hud, hR])
  refine ⟨_, (execAll_cons hneg _).trans (execAll_cons hadd []),
    onlyPr_trans (hu ▸ onlyPr_setPr s d _) (onlyPr_setPr u d R), ?_⟩
  rw [hR]
  simp

/-- Settles O58: two negations give the point back, and PADD adds the negated point. -/
theorem pseudoCommandExpansions : Obligations.PseudoCommandExpansions := by
  intro s d a b ha hb
  rw [isPoint_iff] at ha hb
  exact ⟨execAll_pseudoPmov d ha, execAll_pseudoPsub ha hb⟩

end Sys2Proof.Machine
end

section
/-! PROOFS. The statements about the permutation unit (spec/40_keccak_permutation.md): the step mappings of a round, that
each of them is injective and F therefore a bijection, and the commands SPERM, SLD and SST. -/

namespace Sys2Proof.Machine

open Sys2Proof.Claims

/-! ### The step mappings, lane by lane -/

@[simp] theorem thetaC_get (A : Lanes) (x : Fin 5) :
    (thetaC A).get x = lane A x 0 ^^^ lane A x 1 ^^^ lane A x 2 ^^^ lane A x 3 ^^^ lane A x 4 := by
  rw [thetaC, Five.get_build]

/-- θ adds to every lane of a sheet the parities of the two neighbouring sheets (R131). -/
theorem lane_theta (A : Lanes) (x y : Fin 5) : lane (theta A) x y =
    lane A x y ^^^ ((thetaC A).get (x - 1) ^^^ ((thetaC A).get (x + 1)).rotateLeft 1) := by
  rw [theta, lane_lanesOf, thetaD, Five.get_build]

@[simp] theorem lane_rho (A : Lanes) (x y : Fin 5) :
    lane (rho A) x y = (lane A x y).rotateLeft ((rhoTable.get x).get y) := lane_lanesOf _ x y

@[simp] theorem lane_piStep (A : Lanes) (x y : Fin 5) : lane (piStep A) x y = lane A (x + 3 * y) x :=
  lane_lanesOf _ x y

@[simp] theorem lane_chi (A : Lanes) (x y : Fin 5) :
    lane (chi A) x y = lane A x y ^^^ (~~~(lane A (x + 1) y) &&& lane A (x + 2) y) := lane_lanesOf _ x y

@[simp] theorem lane_iota (rc : Lane) (A : Lanes) (x y : Fin 5) :
    lane (iota rc A) x y = if x = 0 ∧ y = 0 then lane A x y ^^^ rc else lane A x y := lane_lanesOf _ x y

/-- Settles O31: the equations of the step mappings, θ's with its column parities written out. -/
theorem keccakStepEquations : Obligations.KeccakStepEquations := by
  intro A x y rc C
  refine ⟨?_, lane_rho A x y, lane_piStep A x y, lane_chi A x y, ?_, rfl⟩
  · rw [lane_theta, thetaC_get, thetaC_get]
  · rw [lane_iota]
    split_ifs with h
    · rw [h.1, h.2]
    · rfl

/-! ### Rotations of a lane -/

/-- Bit z of a lane is bit z + r, modulo 64, of the lane rotated by r. -/
theorem getLsbD_rotateLeft_add (v : Lane) (r z : Nat) :
    (v.rotateLeft r).getLsbD ((z + r) % 64) = v.getLsbD (z % 64) := by
  have hlt : (z + r) % 64 < 64 := Nat.mod_lt _ (by decide)
  rw [BitVec.getLsbD_rotateLeft]
  by_cases h : (z + r) % 64 < r % 64
  · rw [decide_eq_true h, cond_true]
    congr 1
    omega
  · rw [decide_eq_false h, cond_false, decide_eq_true hlt, Bool.true_and]
    congr 1
    omega

/-- Two lanes are equal when their bits are, counted from any bit r on. -/
theorem lane_eq_of_bits_from (r : Nat) {v w : Lane}
    (h : ∀ z, v.getLsbD ((z + r) % 64) = w.getLsbD ((z + r) % 64)) : v = w := by
  refine BitVec.eq_of_getLsbD_eq fun i hi => ?_
  have hz : (i + 63 * r + r) % 64 = i := by omega
  rw [← hz]
  exact h _

/-- A rotation loses nothing (R132). -/
theorem rotateLeft_injective (r : Nat) : Function.Injective fun v : Lane => v.rotateLeft r := by
  intro v w h
  refine lane_eq_of_bits_from 0 fun z => ?_
  rw [Nat.add_zero, ← getLsbD_rotateLeft_add v r, ← getLsbD_rotateLeft_add w r]
  exact congrArg (fun u : Lane => u.getLsbD ((z + r) % 64)) h

theorem rotateLeft_xor (v w : Lane) (r : Nat) : (v ^^^ w).rotateLeft r = v.rotateLeft r ^^^ w.rotateLeft r := by
  refine lane_eq_of_bits_from r fun z => ?_
  simp only [BitVec.getLsbD_xor, getLsbD_rotateLeft_add]

theorem rotateLeft_rotateLeft (v : Lane) (r q : Nat) : (v.rotateLeft r).rotateLeft q = v.rotateLeft (r + q) := by
  refine lane_eq_of_bits_from (r + q) fun z => ?_
  rw [getLsbD_rotateLeft_add v, ← Nat.add_assoc, getLsbD_rotateLeft_add (v.rotateLeft r), getLsbD_rotateLeft_add v]

theorem rotateLeft_width (v : Lane) : v.rotateLeft 64 = v := by
  refine lane_eq_of_bits_from 64 fun z => ?_
  rw [getLsbD_rotateLeft_add, Nat.add_mod_right]

/-! ### θ is injective

θ changes the column parities C by 1 + X + X⁻¹·R, where X shifts x and R rotates by one bit. Over GF(2) a square is taken
term by term, so six squarings give 1 + X⁶⁴ + X⁻⁶⁴·R⁶⁴ = 1 + X⁻¹ + X, which has an inverse. -/

/-- A tuple of lanes plus itself shifted by k, plus itself shifted back by k and rotated by r. -/
def columnMix (k : Fin 5) (r : Nat) (c : Fin 5 → Lane) (x : Fin 5) : Lane :=
  c x ^^^ (c (x - k) ^^^ (c (x + k)).rotateLeft r)

/-- The column parities after θ are those before, mixed. -/
theorem thetaC_theta (A : Lanes) : (thetaC (theta A)).get = columnMix 1 1 (thetaC A).get := by
  funext x
  rw [columnMix, thetaC_get (theta A)]
  simp only [lane_theta]
  generalize (thetaC A).get (x - 1) ^^^ ((thetaC A).get (x + 1)).rotateLeft 1 = d
  rw [thetaC_get]
  calc lane A x 0 ^^^ d ^^^ (lane A x 1 ^^^ d) ^^^ (lane A x 2 ^^^ d) ^^^ (lane A x 3 ^^^ d) ^^^ (lane A x 4 ^^^ d)
    _ = lane A x 0 ^^^ lane A x 1 ^^^ lane A x 2 ^^^ lane A x 3 ^^^ lane A x 4 ^^^ d ^^^ (d ^^^ d) ^^^ (d ^^^ d) := by
      ac_rfl
    _ = lane A x 0 ^^^ lane A x 1 ^^^ lane A x 2 ^^^ lane A x 3 ^^^ lane A x 4 ^^^ d := by simp

/-- The square of a mix is the mix with both distances doubled: the mixed terms cancel. -/
theorem columnMix_columnMix (k : Fin 5) (r : Nat) (c : Fin 5 → Lane) :
    columnMix k r (columnMix k r c) = columnMix (k + k) (r + r) c := by
  funext x
  simp only [columnMix, rotateLeft_xor, rotateLeft_rotateLeft, sub_add_cancel, add_sub_cancel_right, sub_sub, add_assoc]
  generalize c (x - (k + k)) = u, (c (x + (k + k))).rotateLeft (r + r) = v
  calc c x ^^^ (c (x - k) ^^^ (c (x + k)).rotateLeft r) ^^^
        (c (x - k) ^^^ (u ^^^ (c x).rotateLeft r) ^^^ ((c (x + k)).rotateLeft r ^^^ ((c x).rotateLeft r ^^^ v)))
    _ = c x ^^^ (u ^^^ v) ^^^ (c (x - k) ^^^ c (x - k)) ^^^ ((c x).rotateLeft r ^^^ (c x).rotateLeft r) ^^^
        ((c (x + k)).rotateLeft r ^^^ (c (x + k)).rotateLeft r) := by ac_rfl
    _ = c x ^^^ (u ^^^ v) := by simp

/-- A mix is injective when its square is. -/
theorem columnMix_injective_of_double {k : Fin 5} {r : Nat} (h : Function.Injective (columnMix (k + k) (r + r))) :
    Function.Injective (columnMix k r) := by
  intro c c' hc
  apply h
  rw [← columnMix_columnMix, ← columnMix_columnMix, hc]

/-- Rotations by 64 do nothing, and the neighbourhoods of x, x − 2 and x + 2 hold x once and every other index twice: the
mix by 2 undoes the mix by 4. -/
theorem columnMix_leftInverse : Function.LeftInverse (columnMix 2 64) (columnMix 4 64) := by
  intro c
  funext x
  simp only [columnMix, rotateLeft_width, sub_eq_add_neg, show (-4 : Fin 5) = 1 from rfl, show (-2 : Fin 5) = 3 from rfl,
    add_assoc, Fin.reduceAdd]
  calc c x ^^^ (c (x + 1) ^^^ c (x + 4)) ^^^
        (c (x + 3) ^^^ (c (x + 4) ^^^ c (x + 2)) ^^^ (c (x + 2) ^^^ (c (x + 3) ^^^ c (x + 1))))
    _ = c x ^^^ (c (x + 1) ^^^ c (x + 1)) ^^^ (c (x + 2) ^^^ c (x + 2)) ^^^ (c (x + 3) ^^^ c (x + 3)) ^^^
        (c (x + 4) ^^^ c (x + 4)) := by ac_rfl
    _ = c x := by simp

/-- The mix of θ is injective: its 64th power is. -/
theorem columnMix_injective : Function.Injective (columnMix 1 1) := by
  have h64 : Function.Injective (columnMix 4 64) := columnMix_leftInverse.injective
  have h32 : Function.Injective (columnMix 2 32) := columnMix_injective_of_double h64
  have h16 : Function.Injective (columnMix 1 16) := columnMix_injective_of_double h32
  have h8 : Function.Injective (columnMix 3 8) := columnMix_injective_of_double h16
  have h4 : Function.Injective (columnMix 4 4) := columnMix_injective_of_double h8
  have h2 : Function.Injective (columnMix 2 2) := columnMix_injective_of_double h4
  exact columnMix_injective_of_double h2

/-- θ is injective: its result gives the column parities, and these the lanes. -/
theorem theta_injective : Function.Injective theta := by
  intro A B h
  have hC : (thetaC A).get = (thetaC B).get := by
    apply columnMix_injective
    rw [← thetaC_theta, ← thetaC_theta, h]
  refine lanes_ext fun x y => ?_
  have hxy : lane (theta A) x y = lane (theta B) x y := by rw [h]
  rw [lane_theta, lane_theta, hC] at hxy
  exact (BitVec.xor_left_inj _).mp hxy

/-! ### The other step mappings are injective -/

theorem rho_injective : Function.Injective rho := by
  intro A B h
  refine lanes_ext fun x y => rotateLeft_injective ((rhoTable.get x).get y) ?_
  simpa using congrArg (lane · x y) h

/-- π moves every lane to a place of its own: lane (u, v) goes to x = v with 3·y = u − v. -/
theorem piStep_injective : Function.Injective piStep := by
  intro A B h
  refine lanes_ext fun u v => ?_
  have hu : v + 3 * (2 * (u - v)) = u := by
    revert u v
    decide
  have hv : lane (piStep A) v (2 * (u - v)) = lane (piStep B) v (2 * (u - v)) := by rw [h]
  rwa [lane_piStep, lane_piStep, hu] at hv

/-- The inverse of χ on the rows of the grid. -/
def chiInv (A : Lanes) : Lanes :=
  lanesOf fun x y => lane A x y ^^^
    (~~~(lane A (x + 1) y) &&& (lane A (x + 2) y ^^^ (~~~(lane A (x + 3) y) &&& lane A (x + 4) y)))

/-- The inverse of χ on one bit of a row of five. -/
theorem chiInv_bit : ∀ a b c d e : Bool,
    ((a ^^ (!b && c)) ^^ (!(b ^^ (!c && d)) && ((c ^^ (!d && e)) ^^ (!(d ^^ (!e && a)) && (e ^^ (!a && b)))))) = a := by
  decide

theorem chiInv_chi : Function.LeftInverse chiInv chi := by
  intro A
  refine lanes_ext fun x y => BitVec.eq_of_getLsbD_eq fun z hz => ?_
  simp only [chiInv, lane_lanesOf, lane_chi, BitVec.getLsbD_xor, BitVec.getLsbD_and, BitVec.getLsbD_not, hz, add_assoc,
    decide_true, Bool.true_and, Fin.reduceAdd, add_zero]
  exact chiInv_bit _ _ _ _ _

theorem iota_injective (rc : Lane) : Function.Injective (iota rc) := by
  intro A B h
  refine lanes_ext fun x y => ?_
  have hxy : lane (iota rc A) x y = lane (iota rc B) x y := by rw [h]
  rw [lane_iota, lane_iota] at hxy
  split_ifs at hxy
  · exact (BitVec.xor_left_inj _).mp hxy
  · exact hxy

/-! ### F is a bijection -/

theorem keccakRound_injective (rc : Lane) : Function.Injective fun A => keccakRound A rc :=
  (iota_injective rc).comp (chiInv_chi.injective.comp (piStep_injective.comp (rho_injective.comp theta_injective)))

/-- Any list of rounds is injective. -/
theorem foldl_keccakRound_injective (rcs : List Lane) : Function.Injective fun A => rcs.foldl keccakRound A := by
  induction rcs with
  | nil => exact Function.injective_id
  | cons rc rcs ih => exact ih.comp (keccakRound_injective rc)

theorem keccakF_injective : Function.Injective keccakF := by
  intro S T h
  have hlanes : keccakRounds (lanesOfBytes S) = keccakRounds (lanesOfBytes T) := by
    rw [← lanesOfBytes_keccakF, ← lanesOfBytes_keccakF, h]
  rw [← bytesOfLanes_lanesOfBytes S, ← bytesOfLanes_lanesOfBytes T,
    foldl_keccakRound_injective roundConstants hlanes]

/-- There are finitely many values of S. -/
theorem finite_spongeBytes : Finite SpongeBytes := by
  have hinj : Function.Injective fun (S : SpongeBytes) (i : Fin 200) => S[i] := by
    intro S T h
    exact Vector.ext fun i hi => congrFun h ⟨i, hi⟩
  exact Finite.of_injective _ hinj

/-- Settles O34: the lane map, its inverse and every step mapping are injective, and S has finitely many values. -/
theorem permutationIsBijective : Obligations.PermutationIsBijective :=
  haveI := finite_spongeBytes
  Finite.injective_iff_bijective.mp keccakF_injective

/-! ### SPERM, SLD and SST -/

/-- SPERM replaces S by F(S) (R142). -/
theorem exec_sperm (s : State) : exec .sperm s = .next { s with sponge := keccakF s.sponge, cmdl := none } := by
  simp only [exec, execSperm, State.setSponge, State.finish]

/-- SLD replaces S by the bytes of DBUF (R143). -/
theorem exec_sld (s : State) : exec .sld s = .next { s with sponge := spongeOf s.dbufByte, cmdl := none } := by
  simp only [exec, execSld, State.setSponge, State.finish]

/-- SST writes the bytes of S to DBUF (R144). -/
theorem exec_sst (s : State) : exec .sst s = .next (s.setDbuf 0 s.sponge.toList).finish := rfl

/-- Settles O33: the lanes of F(S) are the rounds on the lanes of S, and the model's tables hold the values of R140, R141. -/
theorem spermPermutesState : Obligations.SpermPermutesState := by
  have hconst : roundConstants.map BitVec.toNat = roundTable := by decide
  have hrho : ∀ x y : Fin 5, (rhoTable.get x).get y = (offsetTable.getD y []).getD x 0 := by decide
  exact fun s => ⟨keccakF s.sponge, exec_sperm s, lanesOfBytes_keccakF s.sponge, hconst, rfl, hrho⟩

/-- Settles O35: byte i of the loaded S is DBUF[i]. -/
theorem sldLoadsState : Obligations.SldLoadsState :=
  fun s => ⟨spongeOf s.dbufByte, exec_sld s, fun i hi => spongeOf_getElem s.dbufByte i hi⟩

/-- Settles O36: DBUF after the write of the 200 bytes of S, read inside and outside them. -/
theorem sstStoresState : Obligations.SstStoresState := by
  intro s
  refine ⟨(s.setDbuf 0 s.sponge.toList).finish, exec_sst s, ⟨rfl, fun a ha => ?_⟩, fun i hi => ?_⟩
  · exact Memory.read_write_outside s.dbuf dbufBase s.sponge.toList a (by simpa [dbufBase] using ha)
  · have hlen : i < s.sponge.toList.length := by simpa using hi
    exact (Memory.read_write_inside s.dbuf dbufBase s.sponge.toList i hlen).trans (by simp)

end Sys2Proof.Machine
end

section
/-! PROOFS. The statements about the sponge unit (spec/41_sponge.md): the padding rule and the blocks of a padded message,
and the commands SINIT, SABS, SFIN and SSQZ. -/

namespace Sys2Proof.Machine

open Sys2Proof.Claims

/-! ### The padding rule -/

theorem padding_length_of_pos {q : Nat} (hq : 0 < q) (s : Byte) : (padding q s).length = q := by
  rw [padding_length, Nat.sub_add_cancel hq]

theorem padblock_length {tail : List Byte} {R : Nat} (h : tail.length < R) (s : Byte) :
    (padblock tail R s).length = R := by
  rw [padblock, List.length_append, padding_length_of_pos (by omega)]
  omega

/-- The bytes of padblock: the tail, then the padding, whose last byte is the block's last (R182). -/
theorem padblock_getD {tail : List Byte} {R : Nat} (h : tail.length < R) (s : Byte) {i : Nat} (hi : i < R) :
    (padblock tail R s).getD i 0 = padByte (fun j => tail.getD j 0) tail.length R s i := by
  rw [padblock, padByte]
  by_cases hlt : i < tail.length
  · rw [List.getD_append _ _ _ _ hlt, if_pos hlt, if_neg (by omega)]
    simp
  · have hfirst : i - tail.length = 0 ↔ i = tail.length := by omega
    have hlast : i - tail.length = R - tail.length - 1 ↔ i = R - 1 := by omega
    rw [List.getD_append_right _ _ _ _ (by omega), padding_getD _ _ _ (by omega), if_neg hlt]
    simp only [hfirst, hlast]

/-- Only the first n bytes of the tail matter. -/
theorem padByte_congr {f g : Nat → Byte} {n : Nat} (h : ∀ j < n, f j = g j) (R : Nat) (s : Byte) (i : Nat) :
    padByte f n R s i = padByte g n R s i := by
  unfold padByte
  by_cases hi : i < n
  · rw [if_pos hi, if_pos hi, h i hi]
  · rw [if_neg hi, if_neg hi]

/-- A padded message is its full blocks, then the padblock of what is left (R185). -/
theorem pad10x1_eq_append_padblock (m : List Byte) (R : Nat) (s : Byte) :
    pad10x1 m R s = m.take (m.length / R * R) ++ padblock (m.drop (m.length / R * R)) R s := by
  have hdiv := Nat.div_add_mod' m.length R
  have htail : (m.drop (m.length / R * R)).length = m.length % R := by
    rw [List.length_drop]
    omega
  rw [pad10x1, padblock, htail, ← List.append_assoc, List.take_append_drop]

/-- The padded message is one block longer than the full blocks of the message (R171). -/
theorem pad10x1_length (m : List Byte) {R : Nat} (hR : 0 < R) (s : Byte) :
    (pad10x1 m R s).length = (m.length / R + 1) * R := by
  have hlt := Nat.mod_lt m.length hR
  have hdiv := Nat.div_add_mod' m.length R
  rw [pad10x1, List.length_append, padding_length_of_pos (by omega), Nat.succ_mul]
  omega

/-- Settles O42: the bytes of padblock, and the split of the padded message after its full blocks. -/
theorem padblockIsLastBlock : Obligations.PadblockIsLastBlock := by
  intro tail R s hlt hs
  refine ⟨padblock_length hlt s, fun i hi => padblock_getD hlt s hi, fun m hmod htail => ?_⟩
  have hdiv := Nat.div_add_mod' m.length R
  have hfull : m.length / R * R = m.length - tail.length := by omega
  rw [pad10x1_eq_append_padblock, hfull, htail]
  apply List.drop_left'
  rw [List.length_append, padblock_length hlt, Nat.add_sub_cancel]

/-- Settles O43: the padded length is the next multiple of the rate, (⌊len/R⌋ + 1)·R. -/
theorem paddedLength : Obligations.PaddedLength := by
  intro m R s hR
  have hlt : m.length < (m.length / R + 1) * R := Nat.lt_mul_of_div_lt (Nat.lt_succ_self _) hR
  rw [pad10x1_length m hR s]
  refine ⟨Nat.mul_mod_left _ _, hlt, fun L hL hmL => ?_, fun hm => ?_⟩
  · obtain ⟨c, rfl⟩ := Nat.dvd_of_mod_eq_zero hL
    rw [Nat.mul_comm R c]
    exact Nat.mul_le_mul_right R ((Nat.div_lt_iff_lt_mul hR).mpr (Nat.mul_comm R c ▸ hmL))
  · rw [Nat.succ_mul, Nat.div_mul_cancel (Nat.dvd_of_mod_eq_zero hm)]

/-! ### The blocks of a padded message -/

theorem blocksOf_succ (R k : Nat) (m : List Byte) :
    blocksOf R (k + 1) m = blocksOf R k m ++ [(m.drop (k * R)).take R] := by
  simp [blocksOf, List.range_succ]

/-- The first k blocks are read from the first k·R bytes alone. -/
theorem blocksOf_append_left {R k : Nat} {A : List Byte} (h : k * R ≤ A.length) (B : List Byte) :
    blocksOf R k (A ++ B) = blocksOf R k A := by
  refine List.map_congr_left fun j hj => ?_
  have hjk : (j + 1) * R ≤ k * R := Nat.mul_le_mul_right R (List.mem_range.mp hj)
  rw [Nat.succ_mul] at hjk
  rw [List.drop_append_of_le_length (by omega), List.take_append_of_le_length]
  rw [List.length_drop]
  omega

/-- The blocks that lie in the string are full. -/
theorem length_of_mem_blocksOf {R k : Nat} {m B : List Byte} (h : k * R ≤ m.length) (hB : B ∈ blocksOf R k m) :
    B.length = R := by
  obtain ⟨j, hj, rfl⟩ := List.mem_map.mp hB
  have hjk : (j + 1) * R ≤ k * R := Nat.mul_le_mul_right R (List.mem_range.mp hj)
  rw [Nat.succ_mul] at hjk
  rw [List.length_take, List.length_drop]
  omega

/-- The blocks of the padded message are the full blocks of the message, then its padblock (R185). -/
theorem blocksOf_pad10x1 (m : List Byte) {R : Nat} (hR : 0 < R) (s : Byte) :
    blocksOf R (m.length / R + 1) (pad10x1 m R s) =
      blocksOf R (m.length / R) m ++ [padblock (m.drop (m.length / R * R)) R s] := by
  have hle : m.length / R * R ≤ m.length := Nat.div_mul_le_self _ _
  have hmod := Nat.mod_lt m.length hR
  have hdiv := Nat.div_add_mod' m.length R
  have hpad : (padblock (m.drop (m.length / R * R)) R s).length = R :=
    padblock_length (by rw [List.length_drop]; omega) s
  have hlast : (pad10x1 m R s).drop (m.length / R * R) = padblock (m.drop (m.length / R * R)) R s := by
    rw [pad10x1_eq_append_padblock, List.drop_left' (List.length_take_of_le hle)]
  rw [blocksOf_succ, hlast, List.take_of_length_le hpad.le, pad10x1, blocksOf_append_left hle]

/-- absorb_all absorbs the full blocks, then the padblock (R175, R185). -/
theorem absorbAll_eq (S : SpongeBytes) {R : Nat} (hR : 0 < R) (m : List Byte) {s : Byte} (hs : s ≠ 0) :
    absorbAll S R m s = .ok (absorbBlock (absorbBlocks S (blocksOf R (m.length / R) m))
      (padblock (m.drop (m.length / R * R)) R s)) := by
  rw [absorbAll, pad10x1Checked, if_neg hs, Except.map, pad10x1_length m hR, Nat.mul_div_cancel _ hR,
    blocksOf_pad10x1 m hR, absorbBlocks, List.foldl_append]
  rfl

/-! ### SINIT, SABS, SFIN and SSQZ -/

/-- SINIT with a legal rate (R180). -/
theorem exec_sinit {n : Nat} (h1 : 1 ≤ n) (h2 : n ≤ 199) (s : State) :
    exec (.sinit n) s = .next { s with sponge := freshSponge, rate := BitVec.ofNat 8 n, cmdl := none } := by
  have hn : ¬(n < 1 ∨ 199 < n) := by omega
  simp only [exec, execSinit, if_neg hn, freshSponge, State.setSponge, State.setRate, State.finish]

/-- SABS on a configured sponge (R181). -/
theorem exec_sabs {s : State} (h : s.rate ≠ 0) : exec .sabs s =
    .next { s with sponge := absorbBlock s.sponge (s.dbufBytes s.rate.toNat), cmdl := none } := by
  simp only [exec, execSabs, if_neg h, State.setSponge, State.finish]

/-- SFIN with a tail shorter than a block and a suffix (R183). -/
theorem exec_sfin {s : State} {n : Nat} {sx : Byte} (hn : n < s.rate.toNat) (hsx : sx ≠ 0) : exec (.sfin n sx) s =
    .next { s with sponge := absorbBlock s.sponge (padblock (s.dbufBytes n) s.rate.toNat sx), cmdl := none } := by
  have hrate : s.rate ≠ 0 := by
    intro h
    simp [h] at hn
  simp only [exec, execSfin, if_neg hrate, if_neg (Nat.not_le.mpr hn), if_neg hsx, State.setSponge, State.finish]

/-- SSQZ on a configured sponge (R184). -/
theorem exec_ssqz {s : State} (h : s.rate ≠ 0) : exec .ssqz s = .next { s with
    sponge := keccakF s.sponge
    dbuf := s.dbuf.write dbufBase (ratePart s.sponge s.rate.toNat)
    cmdl := none } := by
  simp only [exec, execSsqz, if_neg h, ratePart, State.setSponge, State.setDbuf, State.finish, Nat.add_zero]

/-- Settles O37: the rates SINIT accepts, and BadRate for the others. -/
theorem sinitStartsInstance : Obligations.SinitStartsInstance := by
  refine fun s n => ⟨fun ⟨h1, h2⟩ => ?_, fun h => if_pos (by omega)⟩
  exact ⟨freshSponge, BitVec.ofNat 8 n, exec_sinit h1 h2 s, fun i hi => spongeOf_getElem _ i hi,
    toNat_ofNat_count (by omega)⟩

/-- A sponge state whose first R bytes are XORed with the R bytes of a block is the one the block is XORed into. -/
theorem eq_xorBlock {S X : SpongeBytes} {B : List Byte} {R : Nat} {f : Nat → Byte} (hlen : B.length = R)
    (hB : ∀ i < R, B.getD i 0 = f i)
    (hX : ∀ i (h : i < 200), X[i] = if i < R then S[i] ^^^ f i else S[i]) : X = xorBlock S B := by
  refine Vector.ext fun i hi => ?_
  rw [hX, xorBlock_getElem]
  split_ifs with hR
  · rw [hB i hR]
  · rw [List.getD_eq_default _ _ (by omega)]
    simp

theorem State.getD_dbufBytes (s : State) {n i : Nat} (h : i < n) : (s.dbufBytes n).getD i 0 = s.dbufByte i := by
  rw [← List.getElem_eq_getD (h := by simpa using h), State.getElem_dbufBytes]

/-- Settles O38: the block is DBUF[0..RATE−1]. -/
theorem sabsAbsorbsBlock : Obligations.SabsAbsorbsBlock := by
  refine fun s => ⟨fun h => if_pos h, fun h X hX => ?_⟩
  have hblock : X = xorBlock s.sponge (s.dbufBytes s.rate.toNat) :=
    eq_xorBlock (s.dbufBytes_length _) (fun i hi => s.getD_dbufBytes hi) hX
  rw [exec_sabs h, hblock, absorbBlock]

/-- Settles O39: the block is the padblock of DBUF[0..n−1], and the errors stand in the order of the checks. -/
theorem sfinAbsorbsPaddedTail : Obligations.SfinAbsorbsPaddedTail := by
  refine fun s n sx => ⟨fun h => if_pos h, fun h hn => (if_neg h).trans (if_pos hn), fun h hn hsx => ?_,
    fun hn hsx X hX => ?_⟩
  · exact (if_neg h).trans ((if_neg (Nat.not_le.mpr hn)).trans (if_pos hsx))
  · have hlen : (s.dbufBytes n).length < s.rate.toNat := by simpa using hn
    have hbyte : ∀ i < s.rate.toNat,
        (padblock (s.dbufBytes n) s.rate.toNat sx).getD i 0 = padByte (buf s) n s.rate.toNat sx i := by
      intro i hi
      rw [padblock_getD hlen sx hi, State.dbufBytes_length]
      exact padByte_congr (fun j hj => s.getD_dbufBytes hj) _ _ _
    rw [exec_sfin hn hsx, eq_xorBlock (padblock_length hlen sx) hbyte hX, absorbBlock]

theorem ratePart_length (S : SpongeBytes) {R : Nat} (h : R ≤ 199) : (ratePart S R).length = R := by
  rw [ratePart, List.length_take, Vector.length_toList]
  omega

/-- SSQZ puts the rate part in DBUF[0..RATE−1] and leaves the memory outside as it was (R184). -/
theorem read_write_ratePart (m : Memory) (S : SpongeBytes) {R : Nat} (hR : R ≤ 199) :
    (∀ a, a < 0x100 ∨ 0x100 + R ≤ a → (m.write dbufBase (ratePart S R)).read a = m.read a) ∧
      ∀ i (h : i < 200), i < R → (m.write dbufBase (ratePart S R)).read (0x100 + i) = S[i] := by
  have hlen := ratePart_length S hR
  refine ⟨fun a ha => Memory.read_write_outside _ _ _ a (by rwa [hlen]), fun i hi hiR => ?_⟩
  exact (Memory.read_write_inside m dbufBase (ratePart S R) i (by rwa [hlen])).trans (by simp [ratePart])

/-- Settles O40: DBUF after the write of the rate part, read inside and outside it. -/
theorem ssqzSqueezesBlock : Obligations.SsqzSqueezesBlock := by
  intro s
  refine ⟨fun h => if_pos h, fun h hR => ?_⟩
  obtain ⟨hframe, hblock⟩ := read_write_ratePart s.dbuf s.sponge hR
  exact ⟨_, exec_ssqz h, rfl, hframe, hblock⟩

theorem iterF_zero (S : SpongeBytes) : iterF 0 S = S := by
  rw [iterF]

theorem iterF_succ (k : Nat) (S : SpongeBytes) : iterF (k + 1) S = iterF k (keccakF S) := by
  rw [iterF]

/-- Settles O41, by induction on the number of squeezes: the first one leaves F(S), RATE and the bytes past it. -/
theorem repeatedSqueezes : Obligations.RepeatedSqueezes := by
  intro k
  induction k with
  | zero =>
    intro s h hR
    obtain ⟨t, ht, hstate, hframe, hblock⟩ := (ssqzSqueezesBlock s).2 h hR
    rw [iterF_succ, iterF_zero, iterF_zero]
    exact ⟨t, execAll_cons ht [], hstate, hframe, hblock⟩
  | succ k ih =>
    intro s h hR
    obtain ⟨t, ht, hstate, hframe, -⟩ := (ssqzSqueezesBlock s).2 h hR
    have hrate : t.rate = s.rate := by rw [hstate]
    have hiter : ∀ j, iterF (j + 1) s.sponge = iterF j t.sponge := fun j => by rw [iterF_succ, hstate]
    obtain ⟨u, hu, hustate, huframe, hblock⟩ := ih t (hrate ▸ h) (hrate ▸ hR)
    rw [hrate] at huframe hblock
    rw [hiter (k + 1), hiter k]
    refine ⟨u, (execAll_cons ht _).trans hu, hustate.trans ?_, fun a ha => (huframe a ha).trans (hframe a ha), hblock⟩
    rw [hstate]

end Sys2Proof.Machine
end

section
/-! PROOFS. The host sequences ABSORB and SHA3-d (spec/41_sponge.md R185, R188): what each of their parts does to an idle
engine without an error. -/

namespace Sys2Proof.Machine

/-! ### One command of the host -/

/-- `cmd i` on an idle engine without an error writes what i writes, where i writes S, RATE and DBUF alone and alike whatever
the latch and the replies hold. -/
theorem cmd_of_exec (polls : Nat) {i : Instr} (hi : i.wellFormed = true) {s : State} (hb : s.busy = false) (he : s.err = 0)
    {S : SpongeBytes} {R : Byte} {m : Memory}
    (hexec : ∀ c r, exec i { s with cmdl := c, replies := r } =
      .next { s with sponge := S, rate := R, dbuf := m, cmdl := none, replies := r }) :
    ∃ r, runTurns (cmd polls i) s = .next { s with sponge := S, rate := R, dbuf := m, replies := r } := by
  have hlatch : s.cmdl = none := by simpa [State.busy] using hb
  obtain ⟨r, hr⟩ := cmd_spec polls (decodeInvertsEncode i hi) hlatch he
  have hrun := hr _ (hexec _ _)
  rw [State.reply] at hrun
  rw [hlatch]
  exact ⟨_, hrun⟩

/-- `cmd SINIT n` with a legal rate: a zero S and the rate n. -/
theorem cmd_sinit (polls : Nat) {n : Nat} (h1 : 1 ≤ n) (h2 : n ≤ 199) {s : State} (hb : s.busy = false) (he : s.err = 0) :
    ∃ r, runTurns (cmd polls (.sinit n)) s =
      .next { s with sponge := freshSponge, rate := BitVec.ofNat 8 n, replies := r } :=
  have hwf : (Instr.sinit n).wellFormed = true := decide_eq_true (by omega)
  cmd_of_exec polls hwf hb he fun _ _ => exec_sinit h1 h2 _

/-- `cmd SABS` on a configured sponge absorbs DBUF[0..RATE−1]. -/
theorem cmd_sabs (polls : Nat) {s : State} (hb : s.busy = false) (he : s.err = 0) (hR : s.rate ≠ 0) :
    ∃ r, runTurns (cmd polls .sabs) s =
      .next { s with sponge := absorbBlock s.sponge (s.dbufBytes s.rate.toNat), replies := r } :=
  cmd_of_exec polls rfl hb he fun _ _ => exec_sabs hR

/-- `cmd SFIN n, s` on a configured sponge absorbs the padblock of DBUF[0..n−1]. -/
theorem cmd_sfin (polls : Nat) {s : State} {n : Nat} {sx : Byte} (hb : s.busy = false) (he : s.err = 0)
    (hn : n < s.rate.toNat) (hsx : sx ≠ 0) : ∃ r, runTurns (cmd polls (.sfin n sx)) s =
      .next { s with sponge := absorbBlock s.sponge (padblock (s.dbufBytes n) s.rate.toNat sx), replies := r } :=
  have hlt := s.rate.isLt
  have hwf : (Instr.sfin n sx).wellFormed = true := decide_eq_true (by omega)
  cmd_of_exec polls hwf hb he fun _ _ => exec_sfin hn hsx

/-- `cmd SSQZ` on a configured sponge stores the rate part in DBUF and applies F. -/
theorem cmd_ssqz (polls : Nat) {s : State} (hb : s.busy = false) (he : s.err = 0) (hR : s.rate ≠ 0) :
    ∃ r, runTurns (cmd polls .ssqz) s = .next { s with
      sponge := keccakF s.sponge
      dbuf := s.dbuf.write dbufBase (ratePart s.sponge s.rate.toNat)
      replies := r } :=
  cmd_of_exec polls rfl hb he fun _ _ => exec_ssqz hR

/-! ### ABSORB -/

/-- Writing a string to DBUF[0..] puts exactly its bytes there. -/
theorem wbuf_zero {s : State} (hb : s.busy = false) {B : List Byte} (hB : B.length ≤ 256) :
    ∃ m, runTurns (wbuf 0 B) s = .next { s with dbuf := m } ∧ State.dbufBytes { s with dbuf := m } B.length = B := by
  obtain ⟨m, hm, hread⟩ := wbuf_spec B 0 s hb (by omega)
  refine ⟨m, hm, List.ext_getElem (State.dbufBytes_length _ _) fun i _ hi => ?_⟩
  rw [State.getElem_dbufBytes, State.dbufByte, hread, if_pos (by omega), Nat.sub_zero, ← List.getElem_eq_getD (h := hi)]

/-- A block written to DBUF and `cmd SABS` absorb that block (R185). -/
theorem wbuf_sabs (polls : Nat) {s : State} (hb : s.busy = false) (he : s.err = 0) (hR : s.rate ≠ 0) {B : List Byte}
    (hB : B.length = s.rate.toNat) : ∃ m r, runTurns (wbuf 0 B ++ cmd polls .sabs) s =
      .next { s with sponge := absorbBlock s.sponge B, dbuf := m, replies := r } := by
  have hlt := s.rate.isLt
  obtain ⟨m, hm, hbytes⟩ := wbuf_zero hb (B := B) (by omega)
  obtain ⟨r, hr⟩ := cmd_sabs polls (s := { s with dbuf := m }) hb he hR
  rw [hB] at hbytes
  rw [hbytes] at hr
  exact ⟨m, r, (runTurns_append hm).trans hr⟩

/-- A tail written to DBUF and `cmd SFIN` absorb its padblock (R185). -/
theorem wbuf_sfin (polls : Nat) {s : State} (hb : s.busy = false) (he : s.err = 0) {B : List Byte} {sx : Byte}
    (hB : B.length < s.rate.toNat) (hsx : sx ≠ 0) : ∃ m r, runTurns (wbuf 0 B ++ cmd polls (.sfin B.length sx)) s =
      .next { s with sponge := absorbBlock s.sponge (padblock B s.rate.toNat sx), dbuf := m, replies := r } := by
  have hlt := s.rate.isLt
  obtain ⟨m, hm, hbytes⟩ := wbuf_zero hb (B := B) (by omega)
  obtain ⟨r, hr⟩ := cmd_sfin polls (s := { s with dbuf := m }) hb he hB hsx
  rw [hbytes] at hr
  exact ⟨m, r, (runTurns_append hm).trans hr⟩

theorem absorbBlocks_cons (S : SpongeBytes) (B : List Byte) (Bs : List (List Byte)) :
    absorbBlocks S (B :: Bs) = absorbBlocks (absorbBlock S B) Bs := by
  rw [absorbBlocks, List.foldl_cons, absorbBlocks]

/-- Full blocks, each written to DBUF and absorbed by SABS. -/
theorem absorbBlockTurns_spec (polls : Nat) (Bs : List (List Byte)) {s : State} (hb : s.busy = false) (he : s.err = 0)
    (hR : s.rate ≠ 0) (hBs : ∀ B ∈ Bs, B.length = s.rate.toNat) : ∃ m r, runTurns (absorbBlockTurns polls Bs) s =
      .next { s with sponge := absorbBlocks s.sponge Bs, dbuf := m, replies := r } := by
  induction Bs generalizing s with
  | nil => exact ⟨s.dbuf, s.replies, by simp only [absorbBlockTurns, runTurns, absorbBlocks, List.foldl_nil]⟩
  | cons B Bs ih =>
    obtain ⟨hB, hBs⟩ := List.forall_mem_cons.mp hBs
    obtain ⟨m, r, hm⟩ := wbuf_sabs polls hb he hR hB
    rw [absorbBlocks_cons]
    generalize absorbBlock s.sponge B = S at hm ⊢
    obtain ⟨m', r', hm'⟩ := ih (s := { s with sponge := S, dbuf := m, replies := r }) hb he hR hBs
    exact ⟨m', r', (runTurns_append hm).trans hm'⟩

/-- ABSORB(m, s) on an idle engine without an error changes S as absorb_all does, and DBUF and the replies (R185). -/
theorem absorbTurns_spec (polls : Nat) (msg : List Byte) {sx : Byte} (hsx : sx ≠ 0) {s : State} (hb : s.busy = false)
    (he : s.err = 0) (hR : s.rate ≠ 0) : ∃ S m r, absorbAll s.sponge s.rate.toNat msg sx = .ok S ∧
      runTurns (absorbTurns polls s.rate.toNat msg sx) s = .next { s with sponge := S, dbuf := m, replies := r } := by
  have hpos : 0 < s.rate.toNat := Nat.pos_of_ne_zero fun h => hR (BitVec.eq_of_toNat_eq h)
  have hmod := Nat.mod_lt msg.length hpos
  have hdiv := Nat.div_add_mod' msg.length s.rate.toNat
  have htail : (msg.drop (msg.length / s.rate.toNat * s.rate.toNat)).length = msg.length % s.rate.toNat := by
    rw [List.length_drop]
    omega
  obtain ⟨m, r, hblocks⟩ := absorbBlockTurns_spec polls (blocksOf s.rate.toNat (msg.length / s.rate.toNat) msg) hb he hR
    fun B => length_of_mem_blocksOf (Nat.div_mul_le_self _ _)
  rw [absorbAll_eq s.sponge hpos msg hsx, absorbTurns, List.append_assoc]
  generalize absorbBlocks s.sponge (blocksOf s.rate.toNat (msg.length / s.rate.toNat) msg) = S at hblocks ⊢
  obtain ⟨m', r', hfin⟩ := wbuf_sfin polls (s := { s with sponge := S, dbuf := m, replies := r }) hb he
    (htail.trans_lt hmod) hsx
  rw [htail] at hfin
  exact ⟨_, m', r', rfl, (runTurns_append hblocks).trans hfin⟩

/-- Settles O44: ABSORB changes nothing but S, DBUF and the replies. -/
theorem absorbSequenceAbsorbsAll : Obligations.AbsorbSequenceAbsorbsAll := by
  intro s polls msg sx hb he hR _ hsx
  obtain ⟨S, m, r, hS, hrun⟩ := absorbTurns_spec polls msg hsx hb he hR
  exact ⟨_, hrun, hS, rfl, rfl, rfl, he, rfl, hb, rfl⟩

/-! ### SHA3-d -/

/-- One squeeze covers an output of at most a block (R186). -/
theorem squeezeBytes_of_le (S : SpongeBytes) {R L : Nat} (h0 : 0 < L) (hL : L ≤ R) :
    squeezeBytes S R L = S.toList.take L := by
  have hcount : blockCount L R = 1 := by
    rw [blockCount, show L + R - 1 = L - 1 + R by omega, Nat.add_div_right _ (by omega), Nat.div_eq_of_lt (by omega)]
  rw [squeezeBytes, hcount]
  simp only [squeezeBlocks, ratePart, List.append_nil, List.take_take, Nat.min_eq_left hL]

/-- The digest of SHA3-d fits a block of its rate, and the rate is one SINIT accepts (R190). -/
theorem sha3_rate : ∀ d ∈ [224, 256, 384, 512],
    0 < d / 8 ∧ d / 8 ≤ rateOfCapacity (2 * d) ∧ rateOfCapacity (2 * d) ≤ 199 := by
  decide

/-- Once DBUF holds the rate part of S, its first n bytes are those of S, for n up to the rate. -/
theorem dbufBytes_of_write_ratePart {t : State} {m : Memory} {S : SpongeBytes} {R n : Nat} (hR : R ≤ 199) (hn : n ≤ R)
    (ht : t.dbuf = m.write dbufBase (ratePart S R)) : t.dbufBytes n = S.toList.take n := by
  obtain ⟨-, hread⟩ := read_write_ratePart m S hR
  rw [← ht] at hread
  refine List.ext_getElem (by simp; omega) fun i hi _ => ?_
  rw [State.dbufBytes_length] at hi
  rw [State.getElem_dbufBytes, List.getElem_take, Vector.getElem_toList]
  exact hread i (by omega) (by omega)

/-- `rbuf 0, n` returns the bytes DBUF[0..n−1], zero-extended (log 7). -/
theorem rbuf_zero {s : State} (hb : s.busy = false) {n : Nat} (hn : n ≤ 256) : runTurns (rbuf 0 n) s =
    .next { s with replies := s.replies ++ (s.dbufBytes n).map fun b => b.setWidth 32 } := by
  rw [rbuf_spec n 0 s hb (by omega), State.dbufBytes, List.map_map]
  simp only [Nat.zero_add, Function.comp_def]

/-- SINIT, ABSORB, one SSQZ and a read of at most a block leave the first bytes of S after absorb_all in DBUF and in the
last replies (R188). -/
theorem oneBlockHash_spec (polls : Nat) {n L : Nat} (h1 : 1 ≤ n) (h2 : n ≤ 199) (hL : L ≤ n) (msg : List Byte) {sx : Byte}
    (hsx : sx ≠ 0) {s : State} (hb : s.busy = false) (he : s.err = 0) : ∃ S r t,
      absorbAll freshSponge n msg sx = .ok S ∧
      runTurns (cmd polls (.sinit n) ++ absorbTurns polls n msg sx ++ cmd polls .ssqz ++ rbuf 0 L) s = .next t ∧
      t.dbufBytes L = S.toList.take L ∧ t.replies = r ++ (S.toList.take L).map (fun b => b.setWidth 32) ∧
      t.err = 0 ∧ t.ovr = s.ovr ∧ t.busy = false := by
  have hn : (BitVec.ofNat 8 n).toNat = n := toNat_ofNat_count (by omega)
  obtain ⟨r, hinit⟩ := cmd_sinit polls h1 h2 hb he
  -- The values written are opaque from here on: a comparison of states must not compute F.
  generalize freshSponge = Z at hinit ⊢
  generalize BitVec.ofNat 8 n = R at hinit hn
  subst hn
  have hR : R ≠ 0 := by
    rintro rfl
    simp at h1
  obtain ⟨S, m, r, hS, habsorb⟩ :=
    absorbTurns_spec polls msg hsx (s := { s with sponge := Z, rate := R, replies := r }) hb he hR
  obtain ⟨r, hsqueeze⟩ := cmd_ssqz polls (s := { s with sponge := S, rate := R, dbuf := m, replies := r }) hb he hR
  generalize keccakF S = S' at hsqueeze
  generalize hm : m.write dbufBase (ratePart S R.toNat) = m' at hsqueeze
  have hread := rbuf_zero (s := { s with sponge := S', rate := R, dbuf := m', replies := r }) hb (n := L) (by omega)
  have hbytes : State.dbufBytes { s with sponge := S', rate := R, dbuf := m', replies := r } L = S.toList.take L :=
    dbufBytes_of_write_ratePart h2 hL hm.symm
  rw [hbytes] at hread
  have hrun := (runTurns_append hinit).trans
    ((runTurns_append habsorb).trans ((runTurns_append hsqueeze).trans hread))
  rw [List.append_assoc, List.append_assoc]
  exact ⟨S, r, _, hS, hrun, hbytes, rfl, he, rfl, hb⟩

/-- Settles O45: the digest is the first d/8 bytes of S after absorb_all, which one squeeze covers. -/
theorem sha3SequenceComputesDigest : Obligations.Sha3SequenceComputesDigest := by
  intro d s polls msg hd hb he
  obtain ⟨hpos, hfit, hrate⟩ := sha3_rate d hd
  obtain ⟨S, r, t, hS, hrun, hbytes, hreplies, hterr, htovr, htbusy⟩ :=
    oneBlockHash_spec polls (hpos.trans_le hfit) hrate hfit msg (sx := 0x06) (by decide) hb he
  rw [← hbytes] at hreplies
  refine ⟨t, t.dbufBytes (d / 8), hrun, ?_, t.dbufBytes_length _, fun i hi => (t.getD_dbufBytes hi).symm, ?_, hterr, htovr,
    htbusy⟩
  · rw [sha3, spongeHash, hS, Except.map, squeezeBytes_of_le S hpos hfit, hbytes]
  · rw [hreplies]
    apply List.drop_left'
    simp

end Sys2Proof.Machine
end

section
/-! PROOFS. The statements about the host's hash procedures (spec/42_host_hash_procedures.md): left_encode is the shortest
encoding, and bytepad fills it and its input up to a multiple of w. -/

namespace Sys2Proof.Machine

/-! ### The minimal big-endian encoding -/

@[simp] theorem minbe_length (v : Nat) : (minbe v).length = v.log2 / 8 + 1 := ubeBytes_length _ _

/-- ube inverts minbe (R12). -/
@[simp] theorem ube_minbe (v : Nat) : ube (minbe v) = v :=
  ube_ubeBytes _ v (Nat.lt_log2_self.trans_le (Nat.pow_le_pow_right (by decide) (by omega)))

/-- A string whose value does not fit in one byte less has a first byte other than 0: without it the value would be that of
the other bytes. -/
theorem headD_ne_zero_of_le_ube {bs : List Byte} (h : 2 ^ (8 * (bs.length - 1)) ≤ ube bs) : bs.headD 0 ≠ 0 := by
  cases bs with
  | nil => simp [ube] at h
  | cons b cs =>
    rintro (rfl : b = 0)
    have hdrop : ube (0 :: cs) = ube cs := by simp [ube]
    rw [hdrop] at h
    exact (ube_lt cs).not_ge h

/-- minbe has no leading 0x00 (R12). -/
theorem minbe_headD_ne_zero {v : Nat} (hv : v ≠ 0) : (minbe v).headD 0 ≠ 0 := by
  apply headD_ne_zero_of_le_ube
  rw [ube_minbe, minbe_length]
  exact (Nat.pow_le_pow_right (by decide) (by omega)).trans (Nat.log2_self_le hv)

/-- A value of m bits has at most k bytes when m ≤ 8k. -/
theorem minbe_length_le {v m k : Nat} (hv : v ≠ 0) (h : v < 2 ^ m) (hm : m ≤ 8 * k) : (minbe v).length ≤ k := by
  have hlog := (Nat.log2_lt hv).mpr h
  rw [minbe_length]
  omega

/-! ### left_encode -/

theorem leftEncode_zero : leftEncode 0 = .ok [0x01, 0x00] := by
  rw [leftEncode, if_neg fun h => pow_ne_zero _ two_ne_zero (Nat.le_zero.mp h), if_pos rfl]

theorem leftEncode_of_le {n : Nat} (h : 2 ^ 2040 ≤ n) : leftEncode n = .error .encodingTooLarge := by
  rw [leftEncode, if_pos h]

theorem leftEncode_of_pos {n : Nat} (h0 : 0 < n) (h : n < 2 ^ 2040) :
    leftEncode n = .ok (BitVec.ofNat 8 (minbe n).length :: minbe n) := by
  rw [leftEncode, if_neg (Nat.not_le.mpr h), if_neg h0.ne']

/-- Settles O46: a value below 2^2040 has at most 255 bytes, so the length byte holds their number. -/
theorem leftEncodeShape : Obligations.LeftEncodeShape := by
  refine ⟨leftEncode_zero, fun n => leftEncode_of_le, fun n h0 h => ?_⟩
  have hlen : (minbe n).length ≤ 255 := minbe_length_le h0.ne' h (by decide)
  exact ⟨_, _, leftEncode_of_pos h0 h, toNat_ofNat_count hlen, ube_minbe n, minbe_headD_ne_zero h0.ne'⟩

/-! ### bytepad -/

theorem bytepad_of_leftEncode {w : Nat} (hw : 0 < w) {l : List Byte} (hl : leftEncode w = .ok l) (x : List Byte) :
    bytepad x w = .ok (zeroFill w (l ++ x)) := by
  rw [bytepad, if_neg hw.ne', hl, Except.map]

/-- The filled string's length is a multiple of w. -/
theorem dvd_zeroFill_length {w : Nat} (hw : 0 < w) (z : List Byte) : w ∣ (zeroFill w z).length := by
  have hfill : z.length + (w - z.length % w) = w * (z.length / w + 1) := by
    have := Nat.mod_lt z.length hw
    have := Nat.div_add_mod z.length w
    rw [Nat.mul_add_one]
    omega
  rw [zeroFill, List.length_append, List.length_replicate, Nat.dvd_iff_mod_eq_zero, Nat.add_mod_mod, hfill,
    Nat.mul_mod_right]

/-- Settles O47: the fill is a remainder mod w, and the length byte of left_encode(w) makes the string nonempty. -/
theorem bytepadShape : Obligations.BytepadShape := by
  intro x w h0 h
  have hl := leftEncode_of_pos h0 h
  exact ⟨_, _, _, hl, bytepad_of_leftEncode h0 hl x, rfl, Nat.mod_lt _ h0,
    Nat.mod_eq_zero_of_dvd (dvd_zeroFill_length h0 _), by simp [zeroFill]⟩

end Sys2Proof.Machine
end

section
/-! PROOFS. The statements about the point registers' commands of the E-521 unit (spec/43_e521.md): that every command ends
on states that meet the invariant, the loads, stores and single operations of points and of K, and decompression. -/

namespace Sys2Proof.Machine

open Sys2Proof.Claims

/-! ### Every command ends -/

/-- A command ends where the point registers hold points: InternalFault is its only other outcome (R265). -/
theorem exec_ends {s : State} (hv : s.pr.valid) (i : Instr) : ∃ t, exec i s = .next t := by
  have hc := exec_cases i s
  generalize exec i s = o at hc
  cases hc with
  | internal h => exact absurd hv h
  | _ => exact ⟨_, rfl⟩

/-- The engine's step ends where the point registers hold points (spec/70_reset_and_hazards.md R375). -/
theorem engineStep_ends {s : State} (hv : s.pr.valid) : ∃ t, engineStep s = .next t := by
  unfold engineStep
  cases s.cmdl with
  | none => exact ⟨s, rfl⟩
  | some w =>
    simp only [runWord]
    cases decode w with
    | ok i => exact exec_ends hv i
    | error e => exact ⟨_, rfl⟩

/-- Settles O24: a command and the engine's step end, and a host access ends or is one of the host's two faults. -/
theorem commandsAlwaysEnd : Obligations.CommandsAlwaysEnd := by
  intro s hs
  refine ⟨fun i => ?_, ?_⟩
  · obtain ⟨t, ht⟩ := exec_ends hs.points_valid i
    obtain ⟨hcmdl, -⟩ := exec_next_interface ht
    exact ⟨t, ht, by simp [State.busy, hcmdl]⟩
  · rcases step_cases s with ⟨ts, -, he⟩ | ⟨a, ts, -, he⟩ | ⟨ts, -, he⟩ <;> rw [he]
    · exact Or.inl (engineStep_ends (s := { s with turns := ts }) hs.points_valid)
    · rcases hostAccess_cases a { s with turns := ts } with ⟨-, hf⟩ | ⟨-, -, -, hf⟩ | ⟨-, t, ht, -⟩
      · exact Or.inr (Or.inl hf)
      · exact Or.inr (Or.inr hf)
      · exact Or.inl ⟨t, ht⟩
    · exact Or.inl ⟨_, rfl⟩

/-! ### O and G -/

/-- A command that ends with a point result has it in PR[d]. -/
@[simp] theorem State.get_setPr_finish (s : State) (d : PReg) (P : Point) : (s.setPr d P).finish.pr.get d = P :=
  PointRegs.get_set_same s.pr d P

/-- Settles O48: G is a valid point by computation (R253). -/
theorem constantPointLoads : Obligations.ConstantPointLoads := by
  intro s d
  refine ⟨⟨_, rfl, onlyPr_setPr s d .identity, State.get_setPr_finish _ _ _⟩,
    _, rfl, onlyPr_setPr s d .generator, ?_⟩
  rw [State.get_setPr_finish]
  exact ⟨(isPoint_iff _).mpr Point.generator_valid, rfl, by decide⟩

/-! ### Coordinates and scalars in DBUF -/

/-- DBUF[0..n−1] is the slice that starts at 0. -/
theorem State.dbufSlice_zero (s : State) (n : Nat) : s.dbufSlice 0 n = s.dbufBytes n := by
  simp [State.dbufSlice, State.dbufBytes]

/-- The value of the claims is ube of the slice (spec/00_scope.md R12). -/
theorem State.ube_dbufSlice (s : State) (i n : Nat) : ube (s.dbufSlice i n) = bufValue s i n := by
  rw [ube_eq_sum, State.dbufSlice_length, bufValue]
  refine Finset.sum_congr rfl fun j hj => ?_
  rw [← List.getElem_eq_getD (h := by simpa using hj), State.getElem_dbufSlice]
  rfl

theorem State.ube_dbufBytes (s : State) (n : Nat) : ube (s.dbufBytes n) = bufValue s 0 n := by
  rw [← s.dbufSlice_zero, s.ube_dbufSlice]

/-- A coordinate read as a signed value is in range exactly when its unsigned value is, and then the two agree: a negative
one has an unsigned value of at least 2^527 (R256). -/
theorem sbe_eq_natCast_iff {bs : List Byte} (hlen : bs.length = coordBytes) {v : Nat} (hv : v < fieldP) :
    sbe bs = v ↔ ube bs = v := by
  by_cases htop : (bs.headD 0).toNat < 0x80
  · rw [sbe_of_nonneg htop, Nat.cast_inj]
  · have hneg := sbe_of_neg (not_lt.mp htop)
    have hge := ube_ge_of_top (by rintro rfl; simp [coordBytes] at hlen) (not_lt.mp htop)
    have hpow : fieldP < 2 ^ (8 * coordBytes - 1) := by decide +kernel
    rw [hlen] at hge
    exact iff_of_false (by omega) (by omega)

/-- ube inverts sbe_66 on field elements (R258). -/
theorem ube_sbeBytes_coord {v : Nat} (hv : v < fieldP) : ube (sbeBytes coordBytes v) = v :=
  (sbe_eq_natCast_iff (sbeBytes_length _ _) hv).mp
    (sbe_sbeBytes _ _ (by decide) (hv.trans (by decide +kernel)))

/-! ### PLD and PST -/

/-- The two halves of DBUF[0..131] (R259). -/
theorem State.dbufBytes_halves (s : State) :
    (s.dbufBytes pointBytes).take coordBytes = s.dbufSlice 0 coordBytes ∧
      (s.dbufBytes pointBytes).drop coordBytes = s.dbufSlice coordBytes coordBytes := by
  constructor <;> refine List.ext_getElem (by simp [pointBytes, coordBytes]) fun i hi hi' => ?_ <;> simp

/-- The point constructor on the halves of DBUF[0..131] gives exactly the valid pair of their values (R256, R259). -/
theorem fromBytes_dbufBytes_iff (s : State) (P : Point) : fromBytes (s.dbufBytes pointBytes) = .ok P ↔
    P.valid = true ∧ bufValue s 0 66 = P.x ∧ bufValue s 66 66 = P.y := by
  obtain ⟨htake, hdrop⟩ := s.dbufBytes_halves
  have hpoint : fromBytes (s.dbufBytes pointBytes) = .ok P ↔
      pointOf (sbe (s.dbufSlice 0 coordBytes)) (sbe (s.dbufSlice coordBytes coordBytes)) = some P := by
    rw [fromBytes, if_pos (s.dbufBytes_length _), htake, hdrop]
    cases pointOf (sbe (s.dbufSlice 0 coordBytes)) (sbe (s.dbufSlice coordBytes coordBytes)) <;> simp
  rw [hpoint, pointOf_eq_some_iff]
  refine and_congr_right fun hv => ?_
  rw [sbe_eq_natCast_iff (s.dbufSlice_length _ _) (Point.valid_x_lt hv),
    sbe_eq_natCast_iff (s.dbufSlice_length _ _) (Point.valid_y_lt hv), s.ube_dbufSlice, s.ube_dbufSlice]
  rfl

/-- PLD Pd, 132 loads the pair of values in DBUF[0..131] where it is a point (R272). -/
theorem exec_pld_of_valid {s : State} (d : PReg) {P : Point} (hP : P.valid = true) (hx : bufValue s 0 66 = P.x)
    (hy : bufValue s 66 66 = P.y) : exec (.pld d 132) s = .next (s.setPr d P).finish := by
  simp only [exec, execPld, (fromBytes_dbufBytes_iff s P).mpr ⟨hP, hx, hy⟩]
  rfl

/-- PLD Pd, 132 ends with NotOnCurve where the pair is no point (R272). -/
theorem exec_pld_of_not_valid {s : State} (d : PReg)
    (h : Point.valid ⟨bufValue s 0 66, bufValue s 66 66⟩ ≠ true) :
    exec (.pld d 132) s = .next (s.raise .notOnCurve) := by
  rcases fromBytes_cases (s.dbufBytes pointBytes) (s.dbufBytes_length _) with ⟨P, hP, hv, -⟩ | ⟨he, -⟩
  · obtain ⟨-, hx, hy⟩ := (fromBytes_dbufBytes_iff s P).mp hP
    rw [hx, hy] at h
    exact absurd hv h
  · simp only [exec, execPld, he]
    rfl

/-- Settles O49: the pair is loaded exactly when the claim's curve predicate holds of it. -/
theorem pldValidatesPoint : Obligations.PldValidatesPoint := by
  refine fun s d n => ⟨fun hn => if_neg hn, ?_, ?_⟩ <;> rintro rfl h <;> rw [isPoint_iff] at h
  · exact ⟨_, exec_pld_of_valid d h rfl rfl, onlyPr_setPr s d _, State.get_setPr_finish _ _ _⟩
  · exact exec_pld_of_not_valid d h

/-- PST Pa writes the encoding of PR[a] (R273). -/
theorem exec_pst (a : PReg) (s : State) : exec (.pst a) s = .next (s.setDbuf 0 (toBytes (s.pr.get a))).finish := rfl

theorem toBytes_length (P : Point) : (toBytes P).length = 132 := by
  simp [toBytes, coordBytes]

/-- A slice of the bytes just written at DBUF[0..] (spec/10_state.md R38). -/
theorem State.dbufSlice_setDbuf_zero (s : State) {bs : List Byte} {i n : Nat} (h : i + n ≤ bs.length) :
    (s.setDbuf 0 bs).dbufSlice i n = (bs.drop i).take n := by
  refine List.ext_getElem (by simp; omega) fun j hj _ => ?_
  rw [State.dbufSlice_length] at hj
  have hread := s.setDbuf_dbufByte_inside 0 (i + j) bs (by omega)
  rw [Nat.zero_add] at hread
  rw [State.getElem_dbufSlice, hread, List.getElem_take, List.getElem_drop]

/-- After the encoding of a point is written at DBUF[0..131], the values there are its coordinates (R258). -/
theorem bufValue_setDbuf_toBytes (s : State) {P : Point} (hP : P.valid = true) :
    bufValue (s.setDbuf 0 (toBytes P)).finish 0 66 = P.x ∧ bufValue (s.setDbuf 0 (toBytes P)).finish 66 66 = P.y := by
  have hx : (s.setDbuf 0 (toBytes P)).dbufSlice 0 coordBytes = sbeBytes coordBytes P.x := by
    rw [s.dbufSlice_setDbuf_zero (by rw [toBytes_length]; decide), List.drop_zero, toBytes,
      List.take_left' (sbeBytes_length _ _)]
  have hy : (s.setDbuf 0 (toBytes P)).dbufSlice coordBytes coordBytes = sbeBytes coordBytes P.y := by
    rw [s.dbufSlice_setDbuf_zero (by rw [toBytes_length]; decide), toBytes, List.drop_left' (sbeBytes_length _ _),
      List.take_of_length_le (sbeBytes_length _ _).le]
  rw [← State.ube_dbufSlice, ← State.ube_dbufSlice]
  exact ⟨(congrArg ube hx).trans (ube_sbeBytes_coord (Point.valid_x_lt hP)),
    (congrArg ube hy).trans (ube_sbeBytes_coord (Point.valid_y_lt hP))⟩

/-- Settles O50: DBUF after the write of the 132 bytes, read inside and outside them. -/
theorem pstEncodesPoint : Obligations.PstEncodesPoint := by
  refine fun s a => ⟨_, exec_pst a s, ⟨rfl, fun x hx => ?_⟩, fun h => ?_⟩
  · exact Memory.read_write_outside s.dbuf dbufBase _ x (by rwa [toBytes_length])
  · exact bufValue_setDbuf_toBytes s ((isPoint_iff _).mp h)

/-- Settles O51: PLD finds the coordinates PST wrote, and they are a point. -/
theorem storeThenLoadCopiesPoint : Obligations.StoreThenLoadCopiesPoint := by
  intro s d a h
  have hP := (isPoint_iff _).mp h
  obtain ⟨hx, hy⟩ := bufValue_setDbuf_toBytes s hP
  exact ⟨_, (execAll_cons (exec_pst a s) _).trans (execAll_cons (exec_pld_of_valid d hP hx hy) []),
    State.get_setPr_finish _ _ _, rfl, fun e he => PointRegs.get_set_other _ _ he⟩

/-! ### KLD -/

/-- Settles O59: at most 66 bytes have a value below 2^528, so K holds it whole. -/
theorem kldLoadsScalar : Obligations.KldLoadsScalar := by
  refine fun s n => ⟨fun ⟨h1, h2⟩ => ⟨BitVec.ofNat 528 (ube (s.dbufBytes n)), if_neg (by omega), ?_⟩,
    fun h => if_pos (by omega)⟩
  have hbits : 8 * (s.dbufBytes n).length ≤ 528 := by
    rw [State.dbufBytes_length]
    omega
  have hlt := (ube_lt (s.dbufBytes n)).trans_le (Nat.pow_le_pow_right Nat.two_pos hbits)
  rw [BitVec.toNat_ofNat, Nat.mod_eq_of_lt hlt, s.ube_dbufBytes]

/-! ### PDEC -/

/-- y² of decompress is the square of y for every point of the curve with that x (R260). -/
theorem ySquared_eq_of_valid {x y v : Nat} (hP : Point.valid ⟨x, y⟩ = true) (hv : ySquared x = some v) :
    (y : ZMod fieldP) * y = v := by
  have : Fact (Nat.Prime fieldP) := ⟨fieldP_prime⟩
  have hon := Point.valid_on hP
  rcases fdiv_spec (fsub 1 (fmul x x)) (fsub 1 (fmul curveD (fmul x x))) with ⟨-, hn⟩ | ⟨hne, c, hc, -, he⟩
  · rw [ySquared, hn] at hv
    cases hv
  · obtain rfl : c = v := Option.some.inj (hc.symm.trans hv)
    rw [he, eq_mul_inv_iff_mul_eq₀ hne]
    simp only [cast_fsub, cast_fmul, Nat.cast_one]
    unfold Edwards.On at hon
    linear_combination hon

/-- PDEC Pd, 66 ends with NotOnCurve where the value in DBUF[0..65] is p or more (R279). -/
theorem exec_pdec_of_ge {s : State} (d : PReg) (lsb : Bool) (h : fieldP ≤ bufValue s 0 66) :
    exec (.pdec d 66 lsb) s = .next (s.raise .notOnCurve) := by
  have hrange : ¬(0 ≤ sbe (s.dbufBytes coordBytes) ∧ sbe (s.dbufBytes coordBytes) < fieldP) := by
    rintro ⟨h0, hlt⟩
    obtain ⟨x, hx⟩ := Int.eq_ofNat_of_zero_le h0
    rw [hx, Int.ofNat_lt] at hlt
    have hval := (sbe_eq_natCast_iff (s.dbufBytes_length _) hlt).mp hx
    rw [s.ube_dbufBytes] at hval
    exact h.not_gt (hval.trans_lt hlt)
  simp only [exec, execPdec]
  rw [if_pos (show 66 = coordBytes from rfl), if_neg hrange]

/-- Everything the last steps of decompress can do: a point with that x and parity, or no root because the curve has no
point with that x (R257, R260). -/
theorem decompress_cases {x v : Nat} (hx : x < fieldP) (hv : ySquared x = some v) (hlt : v < fieldP) (lsb : Bool) :
    (∃ y, sqrtModP v lsb = some y ∧ Point.valid ⟨x, y⟩ = true ∧ (y % 2 = lsb.toNat ∨ y = 0)) ∨
      (sqrtModP v lsb = none ∧ ∀ y, Point.valid ⟨x, y⟩ ≠ true) := by
  by_cases h : ∃ y, Point.valid ⟨x, y⟩ = true
  · obtain ⟨y, hy⟩ := h
    obtain ⟨t, ht, hpar⟩ := sqrtModP_complete hlt lsb (ySquared_eq_of_valid hy hv)
    exact Or.inl ⟨t, ht, decompress_valid hx hv ht, hpar⟩
  · have hnone := fun y hy => h ⟨y, decompress_valid (lsb := lsb) hx hv hy⟩
    exact Or.inr ⟨Option.eq_none_iff_forall_ne_some.mpr hnone, not_exists.mp h⟩

/-- Everything PDEC Pd, 66 can do where the value in DBUF[0..65] is below p: it writes a point with that x and parity, or
ends with NoSuchPoint because the curve has none (R279). -/
theorem exec_pdec_of_lt {s : State} (d : PReg) (lsb : Bool) (h : bufValue s 0 66 < fieldP) :
    (∃ y, exec (.pdec d 66 lsb) s = .next (s.setPr d ⟨bufValue s 0 66, y⟩).finish ∧
        Point.valid ⟨bufValue s 0 66, y⟩ = true ∧ (y % 2 = lsb.toNat ∨ y = 0)) ∨
      (exec (.pdec d 66 lsb) s = .next (s.raise .noSuchPoint) ∧ ∀ y, Point.valid ⟨bufValue s 0 66, y⟩ ≠ true) := by
  have hsbe : sbe (s.dbufBytes coordBytes) = bufValue s 0 66 :=
    (sbe_eq_natCast_iff (s.dbufBytes_length _) h).mpr (s.ube_dbufBytes _)
  obtain ⟨v, hv, hlt, -⟩ := ySquared_spec (bufValue s 0 66)
  simp only [exec, execPdec, hsbe]
  rw [if_pos (show 66 = coordBytes from rfl), if_pos ⟨Int.natCast_nonneg _, Int.ofNat_lt.mpr h⟩, Int.toNat_natCast, hv]
  rcases decompress_cases h hv hlt lsb with ⟨y, hy, hpoint⟩ | ⟨hn, hno⟩
  · exact Or.inl ⟨y, by simp only [hy], hpoint⟩
  · exact Or.inr ⟨by simp only [hn], hno⟩

/-- Settles O60: the square root of y² exists exactly when the curve has a point with that x. -/
theorem pdecFindsEveryPoint : Obligations.PdecFindsEveryPoint := by
  intro s d n lsb
  simp only [isPoint_iff, ← fieldP_eq]
  refine ⟨fun hn => if_neg hn, ?_, ?_, ?_⟩ <;> rintro rfl hx
  · exact exec_pdec_of_ge d lsb hx
  · intro hno
    rcases exec_pdec_of_lt d lsb hx with ⟨y, -, hy, -⟩ | ⟨he, -⟩
    · exact absurd hy (hno y)
    · exact he
  · rintro ⟨y, hy⟩
    rcases exec_pdec_of_lt d lsb hx with ⟨t, he, ht, hpar⟩ | ⟨-, hno⟩
    · refine ⟨_, he, onlyPr_setPr s d _, ?_⟩
      rw [State.get_setPr_finish]
      exact ⟨ht, rfl, hpar⟩
    · exact absurd hy (hno y)

end Sys2Proof.Machine
end

section
/-! PROOFS. The statements about the group of E-521 (spec/43_e521.md R261 to R267): the addition law of the claims, and
scalar multiplication as repeated addition. -/

namespace Sys2Proof.Machine

open Sys2Proof.Claims

/-! ### PADD, PDBL and PNEG -/

/-- The modulus of the claims is p (R251). -/
theorem two_pow_sub_one_eq_fieldP : (2 ^ 521 - 1 : Int) = (fieldP : Int) := by decide +kernel

/-- An equation over the integers mod 2^521 − 1 is one in ZMod p. -/
theorem emod_eq_iff_cast_eq (a b : Int) :
    a % (2 ^ 521 - 1) = b % (2 ^ 521 - 1) ↔ (a : ZMod fieldP) = (b : ZMod fieldP) := by
  rw [two_pow_sub_one_eq_fieldP, ZMod.intCast_eq_intCast_iff']

/-- The sum in ZMod p of two points of the curve is their sum in the claims' terms (R261, R265). -/
theorem isSum_of_edwards {P Q R : Point} (hP : P.valid = true) (hQ : Q.valid = true)
    (h : Edwards.IsSum (curveD : ZMod fieldP) P.x P.y Q.x Q.y R.x R.y) : isSum P Q R := by
  have : Fact (Nat.Prime fieldP) := ⟨fieldP_prime⟩
  obtain ⟨hplus, hminus⟩ :=
    Edwards.complete curveD_not_square two_ne_zero_zmod (Point.valid_on hP) (Point.valid_on hQ)
  obtain ⟨hx, hy⟩ := h
  have hterm : (((-376014) * (P.x * Q.x) * (P.y * Q.y) : Int) : ZMod fieldP) =
      Edwards.term (curveD : ZMod fieldP) P.x P.y Q.x Q.y := by
    rw [Edwards.term, cast_curveD]
    push_cast
    ring
  generalize Edwards.term (curveD : ZMod fieldP) P.x P.y Q.x Q.y = e at hplus hminus hx hy hterm
  simp only [isSum]
  generalize ((-376014) * (P.x * Q.x) * (P.y * Q.y) : Int) = t at hterm
  rw [← Int.zero_emod (2 ^ 521 - 1), Ne, Ne, emod_eq_iff_cast_eq, emod_eq_iff_cast_eq, emod_eq_iff_cast_eq,
    emod_eq_iff_cast_eq]
  push_cast
  rw [hterm]
  exact ⟨hplus, hminus, hx, hy⟩

/-- Settles O52: addition has a result on the curve, the sum of the addition law. -/
theorem paddAddsPoints : Obligations.PaddAddsPoints := by
  intro s d a b ha hb
  rw [isPoint_iff] at ha hb
  obtain ⟨R, hR, hRv, hsum⟩ := pointAdd_spec ha hb
  refine ⟨_, exec_padd hR, onlyPr_setPr s d R, ?_⟩
  rw [State.get_setPr_finish, isPoint_iff]
  exact ⟨hRv, isSum_of_edwards ha hb hsum⟩

/-- PDBL is PADD of a register with itself (R262). -/
theorem exec_pdbl (d a : PReg) (s : State) : exec (.pdbl d a) s = exec (.padd d a a) s := rfl

/-- Settles O53, by O52 for a register with itself. -/
theorem pdblDoublesPoint : Obligations.PdblDoublesPoint := by
  intro s d a h
  obtain ⟨t, ht, hframe, hpoint, hsum⟩ := paddAddsPoints s d a a h h
  exact ⟨t, (exec_pdbl d a s).trans ht, ht, hframe, hpoint, hsum⟩

/-- fneg is (−a) mod p, also for a outside [0, p−1] (spec/00_scope.md R14). -/
theorem intCast_fneg (a : Nat) : (fneg a : Int) = (-(a : Int)) % (2 ^ 521 - 1) := by
  have hlt : (fneg a : Int) < 2 ^ 521 - 1 := by
    rw [two_pow_sub_one_eq_fieldP]
    exact Int.ofNat_lt.mpr (fneg_lt a)
  rw [← Int.emod_eq_of_lt (Int.natCast_nonneg _) hlt, emod_eq_iff_cast_eq]
  simp

/-- Settles O54: negation keeps a point on the curve. -/
theorem pnegNegatesPoint : Obligations.PnegNegatesPoint := by
  intro s d a
  refine ⟨_, exec_pneg d a s, onlyPr_setPr s d _, ?_⟩
  rw [State.get_setPr_finish, isPoint_iff, isPoint_iff]
  exact ⟨rfl, intCast_fneg _, pointNeg_valid⟩

/-- Settles O57: O is neutral, and a point and its negation cancel. -/
theorem paddIdentityAndInverse : Obligations.PaddIdentityAndInverse := by
  intro s d a b h
  rw [isPoint_iff] at h
  refine ⟨fun hb => ⟨_, exec_padd ?_, State.get_setPr_finish _ _ _⟩,
    fun hb => ⟨_, exec_padd ?_, State.get_setPr_finish _ _ _⟩⟩ <;> rw [hb]
  · exact pointAdd_identity h
  · exact pointAdd_neg h

/-! ### Repeated addition -/

theorem times_zero (P : Point) : times P 0 = some .identity := rfl

theorem times_succ {P Q : Point} {k : Nat} (h : times P k = some Q) : times P (k + 1) = pointAdd Q P := by
  rw [times, h, Option.bind_some]

/-- k·P exists and is on the curve (R265, R266). -/
theorem times_valid {P : Point} (hP : P.valid = true) (k : Nat) : ∃ Q, times P k = some Q ∧ Q.valid = true := by
  induction k with
  | zero => exact ⟨.identity, times_zero P, Point.identity_valid⟩
  | succ k ih =>
    obtain ⟨Q, hQ, hQv⟩ := ih
    obtain ⟨R, hR, hRv, -⟩ := pointAdd_spec hQv hP
    exact ⟨R, (times_succ hQ).trans hR, hRv⟩

theorem valid_of_times {P Q : Point} (hP : P.valid = true) {k : Nat} (h : times P k = some Q) : Q.valid = true := by
  obtain ⟨R, hR, hRv⟩ := times_valid hP k
  obtain rfl : R = Q := Option.some.inj (hR.symm.trans h)
  exact hRv

/-- j·P + k·P = (j+k)·P, by induction on k and associativity (R267). -/
theorem pointAdd_times {P A : Point} (hP : P.valid = true) {j : Nat} (hA : times P j = some A) :
    ∀ {k : Nat} {B : Point}, times P k = some B → pointAdd A B = times P (j + k) := by
  have hAv := valid_of_times hP hA
  intro k
  induction k with
  | zero =>
    rintro B hB
    obtain rfl : Point.identity = B := Option.some.inj ((times_zero P).symm.trans hB)
    rw [pointAdd_identity hAv, Nat.add_zero, hA]
  | succ k ih =>
    intro B hB
    obtain ⟨C, hC, hCv⟩ := times_valid hP k
    obtain ⟨S, hS, -⟩ := times_valid hP (j + k)
    have hCP : pointAdd C P = some B := (times_succ hC).symm.trans hB
    have hAC : pointAdd A C = some S := (ih hC).trans hS
    rw [← pointAdd_assoc hAv hCv hP hAC hCP, ← Nat.add_assoc, times_succ hS]

theorem times_one {P : Point} (hP : P.valid = true) : times P 1 = some P := by
  rw [times_succ (times_zero P), pointAdd_comm Point.identity_valid hP, pointAdd_identity hP]

/-! ### Double-and-add is repeated addition -/

/-- A pass of the loop takes m·P to (2m + bit)·P (R264). -/
theorem mulStep_times {P V : Point} (hP : P.valid = true) {m : Nat} (hV : times P m = some V) (bit : Bool) :
    mulStep P V bit = times P (2 * m + bit.toNat) := by
  obtain ⟨D, hD, -⟩ := times_valid hP (m + m)
  have hdouble : pointDouble V = some D := (pointAdd_times hP hV hV).trans hD
  rw [two_mul]
  cases bit with
  | false => simp [mulStep, hdouble, hD]
  | true => simp [mulStep, hdouble, times_succ hD]

/-- The loop on the low i bits of k takes m·P to (m·2^i + k mod 2^i)·P (R264). -/
theorem mulLoop_times {P : Point} (hP : P.valid = true) (k i : Nat) :
    ∀ {m : Nat} {V : Point}, times P m = some V → mulLoop P k i V = times P (m * 2 ^ i + k % 2 ^ i) := by
  induction i with
  | zero =>
    intro m V hV
    rw [mulLoop, pow_zero, mul_one, Nat.mod_one, Nat.add_zero, hV]
  | succ i ih =>
    intro m V hV
    obtain ⟨W, hW, -⟩ := times_valid hP (2 * m + (k.testBit i).toNat)
    have hstep := (mulStep_times hP hV (k.testBit i)).trans hW
    simp only [mulLoop, hstep]
    rw [ih hW, Nat.mod_pow_succ, ← Nat.toNat_testBit, pow_succ]
    congr 1
    ring

/-- bitlen(k) bits hold k (spec/00_scope.md R11). -/
theorem lt_two_pow_bitlen (k : Nat) : k < 2 ^ bitlen k := by
  unfold bitlen
  split_ifs with h
  · simp [h]
  · exact Nat.lt_log2_self

/-- scalar_mul gives the point that adding P k times gives (R264). -/
theorem scalarMul_eq_times {P : Point} (hP : P.valid = true) (k : Nat) : scalarMul P k = times P k := by
  rw [scalarMul, mulLoop_times hP k _ (times_zero P), zero_mul, Nat.zero_add, Nat.mod_eq_of_lt (lt_two_pow_bitlen k)]

/-- Settles O55: PMUL writes K·PR[a] as scalar_mul gives it, which is repeated addition. -/
theorem pmulMultipliesByScalar : Obligations.PmulMultipliesByScalar := by
  intro s d a h
  have hP := (isPoint_iff _).mp h
  obtain ⟨Q, hQ, hQv⟩ := times_valid hP s.k.toNat
  have hexec : exec (.pmul d a) s = .next (s.setPr d Q).finish := by
    simp only [exec, execPmul, scalarMul_eq_times hP, hQ, State.finishPoint]
  refine ⟨_, hexec, onlyPr_setPr s d Q, ?_⟩
  rw [State.get_setPr_finish, isPoint_iff]
  exact ⟨hQv, hQ⟩

/-! ### The group laws of G -/

/-- r·G = O, evaluated in projective coordinates (R267). -/
theorem scalarMul_generator_order : scalarMul .generator subgroupOrder = some .identity := by
  rw [scalarMul_eq_proj Point.generator_valid]
  decide +kernel

/-- k·P + t·P = (k+t)·P, as scalar_mul computes the three (R267). -/
theorem scalarMul_add {P : Point} (hP : P.valid = true) (k t : Nat) : ∃ A B C, scalarMul P k = some A ∧
    scalarMul P t = some B ∧ scalarMul P (k + t) = some C ∧ pointAdd A B = some C := by
  simp only [scalarMul_eq_times hP]
  obtain ⟨A, hA, -⟩ := times_valid hP k
  obtain ⟨B, hB, -⟩ := times_valid hP t
  obtain ⟨C, hC, -⟩ := times_valid hP (k + t)
  exact ⟨A, B, C, hA, hB, hC, (pointAdd_times hP hA hB).trans hC⟩

/-- Settles O56: the laws of repeated addition for the valid point G, and r·G by evaluation. -/
theorem groupLawsOfGenerator : Obligations.GroupLawsOfGenerator := by
  have hG := Point.generator_valid
  have hone : scalarMul .generator 1 = some .generator := (scalarMul_eq_times hG 1).trans (times_one hG)
  have horder := scalarMul_generator_order
  rw [subgroupOrder, orderOffset] at horder
  refine ⟨fun k => ?_, scalarMul_add hG, rfl, hone, ?_, horder, pointAdd_neg hG⟩
  · obtain ⟨A, B, C, hA, hB, hC, hsum⟩ := scalarMul_add hG k 1
    obtain rfl : Point.generator = B := Option.some.inj (hone.symm.trans hB)
    exact ⟨A, C, hA, hC, hsum⟩
  · rw [scalarMul_eq_times hG, times_succ (times_one hG)]
    rfl

end Sys2Proof.Machine
end

section
/-! PROOFS. The statements about errors, command acceptance and the engine's step (spec/60_exceptions.md). -/

namespace Sys2Proof.Machine

open Sys2Proof.Claims

/-! ### Errors of commands -/

/-- A command that changes ERR raised one of its errors, and did nothing else (R326, R328). -/
theorem exec_raises {i : Instr} {s t : State} (h : exec i s = .next t) (hne : t.err ≠ s.err) :
    ∃ e, Raises i e ∧ t = s.raise e := by
  have hc := exec_cases i s
  generalize exec i s = o at hc h
  cases hc with
  | internal => simp at h
  | error e he =>
    obtain rfl := Host.Outcome.next.inj h
    exact ⟨e, he, rfl⟩
  | _ =>
    obtain rfl := Host.Outcome.next.inj h
    simp at hne

/-- An engine's step that changes ERR raised an error, and did nothing else (R331). -/
theorem engineStep_raises {s t : State} (h : engineStep s = .next t) (hne : t.err ≠ s.err) : ∃ e, t = s.raise e := by
  rcases engineStep_cases h with rfl | ⟨w, i, -, -, hi⟩ | rfl
  · exact absurd rfl hne
  · obtain ⟨e, -, ht⟩ := exec_raises hi hne
    exact ⟨e, ht⟩
  · exact ⟨.illegalCommand, rfl⟩

/-- Error entry is the failed state of the claims (R326). -/
theorem State.raise_eq_failedWith (s : State) (e : ErrCode) : s.raise e = failedWith (s.raise e).err s := rfl

/-- The kinds a command raises have the codes listed for it (R321, R322). -/
theorem code_mem_errorCodes {i : Instr} {e : ErrCode} (h : Raises i e) : e.code ∈ errorCodes i := by
  cases i with
  | sinit | sabs | ssqz | kld =>
    obtain rfl := h
    exact List.mem_singleton_self _
  | pld => rcases h with rfl | rfl <;> simp [errorCodes, ErrCode.code]
  | sfin | pdec => rcases h with rfl | rfl | rfl <;> simp [errorCodes, ErrCode.code]
  | _ => exact h.elim

/-- Settles O26: a changed ERR means error entry, in a command and in the engine's step. -/
theorem failedCommandChangesNothing : Obligations.FailedCommandChangesNothing := by
  refine ⟨fun i s t he h hne => ?_, fun s t ts _ he hts h hne => ?_⟩
  · obtain ⟨e, -, rfl⟩ := exec_raises h (he ▸ hne)
    exact ⟨s.raise_eq_failedWith e, s.raise_busy e⟩
  · rw [step_of_engineNext hts] at h
    obtain ⟨e, rfl⟩ := engineStep_raises h (he ▸ hne)
    exact ⟨State.raise_eq_failedWith _ e, State.raise_busy _ e⟩

/-- Settles O27: a changed ERR holds the code of a kind the command raises. -/
theorem errorCodesOfCommands : Obligations.ErrorCodesOfCommands := by
  intro i s t he h hne
  obtain ⟨e, hr, rfl⟩ := exec_raises h (he ▸ hne)
  exact code_mem_errorCodes hr

/-! ### The engine's step -/

/-- With no turn left the step is the engine's (log 1). -/
theorem step_nil {s : State} (h : s.turns = []) : step s = engineStep s := by
  simp [step, h]

/-- The engine's step executes the latched command (R331). -/
theorem engineStep_latched {s : State} {w : Word} {i : Instr} (hw : s.cmdl = some w) (hd : decode w = .ok i) :
    engineStep s = exec i s := by
  simp only [engineStep, hw, runWord, hd]

/-- An idle engine holds its state (R342). -/
theorem engineStep_idle {s : State} (h : s.busy = false) : engineStep s = .next s := by
  have hc : s.cmdl = none := by simpa [State.busy] using h
  simp only [engineStep, hc]

/-- Settles O7: the latched command runs at an engine turn, and when no turn is left. -/
theorem stepRunsLatchedCommand : Obligations.StepRunsLatchedCommand := fun _ _ _ hw hd =>
  ⟨fun hs => (step_nil hs).trans (engineStep_latched hw hd),
    fun _ hs => (step_cons hs).trans (engineStep_latched hw hd)⟩

/-- Settles O8: the idle engine holds its state at an engine turn, and when no turn is left. -/
theorem idleEngineHoldsState : Obligations.IdleEngineHoldsState := fun _ hb =>
  ⟨fun hs => (step_nil hs).trans (engineStep_idle hb), fun _ hs => (step_cons hs).trans (engineStep_idle hb)⟩

/-! ### Writes of CMD and CTRL -/

/-- The step of a CMD write. -/
theorem step_cmd {s : State} {w : Word} {ts : List Turn} (h : writes s 0x000 w ts) :
    step s = .next (State.submit { s with turns := ts } w) :=
  step_writes h (by decide) (by decide)

/-- The step of a CTRL write. -/
theorem step_ctrl {s : State} {v : Word} {ts : List Turn} (h : writes s 0x008 v ts) :
    step s = .next (State.control { s with turns := ts } v) :=
  step_writes h (by decide) (by decide)

/-- A CMD write to an idle engine without an error is accepted (R330). -/
theorem State.submit_accepted {s : State} (hb : s.busy = false) (he : s.err = 0) (w : Word) :
    s.submit w = { s with cmdl := some w } :=
  if_pos ⟨hb, he⟩

/-- A CMD write while BUSY = 1 or ERR ≠ 0 is dropped (R330). -/
theorem State.submit_dropped {s : State} (h : s.busy = true ∨ s.err ≠ 0) (w : Word) :
    s.submit w = { s with ovr := true } := by
  refine if_neg fun ⟨hb, he⟩ => ?_
  rcases h with h | h
  · simp [hb] at h
  · exact h he

/-- A CTRL write with SRST = 0 clears the errors with CLR = 1 and does nothing with CLR = 0 (R333, R43). -/
theorem State.control_of_no_srst {v : Word} (h : v.getLsbD 1 = false) (s : State) :
    s.control v = if v.getLsbD 0 then s.clearErrors else s :=
  if_neg (Bool.eq_false_iff.mp h)

/-- Settles O9, by the two branches of the acceptance rule. -/
theorem cmdWriteAcceptance : Obligations.CmdWriteAcceptance := by
  intro s w ts h
  rw [step_cmd h]
  exact ⟨fun hb he => ⟨_, congrArg _ (State.submit_accepted (s := { s with turns := ts }) hb he w), rfl, rfl⟩,
    fun hdrop => congrArg _ (State.submit_dropped (s := { s with turns := ts }) hdrop w)⟩

/-- Settles O10, by the value of CLR. -/
theorem clearErrorsWrite : Obligations.ClearErrorsWrite := by
  intro s v ts h hsrst
  rw [step_ctrl h, State.control_of_no_srst hsrst]
  exact ⟨fun hclr => congrArg _ (if_pos hclr), fun hclr => congrArg _ (if_neg (Bool.eq_false_iff.mp hclr))⟩

/-! ### ERR over the steps of the machine -/

/-- A CTRL write that changes ERR has CLR = 1 or SRST = 1 (R43). -/
theorem State.control_err (s : State) (v : Word) :
    (s.control v).err = s.err ∨ v.getLsbD 0 = true ∨ v.getLsbD 1 = true := by
  unfold State.control
  split_ifs with hsrst hclr
  · exact Or.inr (Or.inr hsrst)
  · exact Or.inr (Or.inl hclr)
  · exact Or.inl rfl

/-- A host access that changes ERR is a CTRL write with CLR = 1 or SRST = 1 (R329). -/
theorem hostAccess_err {a : Access} {s t : State} (h : hostAccess a s = .next t) :
    t.err = s.err ∨ ∃ v, a = ⟨0x008, 32, .write v⟩ ∧ (v.getLsbD 0 = true ∨ v.getLsbD 1 = true) := by
  obtain ⟨ha, ht⟩ := touches_of_hostAccess h
  cases ht with
  | registerRead | dbufRead | dbufWrite | ignored => exact Or.inl rfl
  | command w => rcases s.submit_cases w with ⟨-, hw⟩ | hw <;> exact Or.inl (by rw [hw])
  | control v hop ho =>
    refine (s.control_err v).imp_right fun hv => ⟨v, ?_, hv⟩
    have hoff : a.off = 0x008 := Fin.ext ho
    have hbits : a.bits = 32 := (Access.accepted_register ha (by rw [ho]; decide)).1
    rw [← hoff, ← hbits, ← hop]

/-- Settles O25, by the three kinds of turn a step can take: with ERR ≠ 0 the engine is idle (R334). -/
theorem errorsAreSticky : Obligations.ErrorsAreSticky := by
  intro s t hs herr h
  rcases step_cases s with ⟨ts, -, he⟩ | ⟨a, ts, hts, he⟩ | ⟨ts, hts, -⟩
  · have hidle : s.busy = false := Bool.eq_false_iff.mpr fun hb => herr (hs.busy_no_err hb)
    rw [he, engineStep_idle (s := { s with turns := ts }) hidle] at h
    obtain rfl := Host.Outcome.next.inj h
    exact Or.inl rfl
  · rw [he] at h
    refine (hostAccess_err h).imp_right fun ⟨v, ha, hv⟩ => Or.inr ⟨v, ts, ?_, hv⟩
    rw [writes, hts, ha]
  · exact Or.inr (Or.inl ⟨ts, hts⟩)

end Sys2Proof.Machine
end

section
/-! PROOFS. The statements about hazards (spec/70_reset_and_hazards.md): a RATE read with an SINIT in flight, and DBUF
accesses while BUSY = 1. -/

namespace Sys2Proof.Machine

open Sys2Proof.Claims

/-! ### RATE with an SINIT in flight -/

/-- The RATE pending while SINIT n is in flight: n, unless the SINIT will end with BadRate (R372). -/
theorem State.pendingRate_of_sinit {s : State} {w : Word} {n : Nat} (hw : s.cmdl = some w)
    (hd : decode w = .ok (.sinit n)) :
    s.pendingRate = if n < 1 ∨ 199 < n then none else some (BitVec.ofNat 8 n) := by
  simp only [State.pendingRate, hw, hd]

/-- With a RATE pending a read of RATE gives the old or the new one, whatever the free value is (R372). -/
theorem State.readRate_of_pending {s : State} {r : Byte} (h : s.pendingRate = some r) :
    s.readRate = s.rate ∨ s.readRate = r := by
  simp only [State.readRate, h]
  split
  · exact Or.inr rfl
  · exact Or.inl rfl

/-- With no RATE pending a read of RATE gives RATE. -/
theorem State.readRate_of_not_pending {s : State} (h : s.pendingRate = none) : s.readRate = s.rate := by
  simp only [State.readRate, h]

/-- While SINIT n is in flight a read of RATE gives the old RATE, or n where the SINIT writes it (R372). -/
theorem State.readRate_of_sinit {s : State} {w : Word} {n : Nat} (hw : s.cmdl = some w)
    (hd : decode w = .ok (.sinit n)) :
    s.readRate = s.rate ∨ 1 ≤ n ∧ n ≤ 199 ∧ s.readRate = BitVec.ofNat 8 n := by
  have hp := State.pendingRate_of_sinit hw hd
  split_ifs at hp with hbad
  · exact Or.inl (State.readRate_of_not_pending hp)
  · exact (State.readRate_of_pending hp).imp_right fun hnew => ⟨by omega, by omega, hnew⟩

/-- A RATE read replies with what RATE reads as, and changes nothing else but the counter of free values. -/
theorem State.readRegister_rate (s : State) :
    ∃ k, s.readRegister 0x00C = State.reply { s with freeIdx := k } (s.readRate.setWidth 32) := by
  have hv : s.registerWord 0x00C = s.readRate.setWidth 32 := rfl
  rw [State.readRegister, hv]
  rcases s.drawn_cases 0x00C with h | h <;> rw [h]
  · exact ⟨s.freeIdx, rfl⟩
  · exact ⟨_, rfl⟩

/-- Settles O14: the read replies with the old or the new RATE, and a reply and the free-value counter are no engine
state. -/
theorem rateReadDuringSinit : Obligations.RateReadDuringSinit := by
  intro s w n ts h hw hd
  obtain ⟨k, hread⟩ := State.readRegister_rate { s with turns := ts }
  have hstep := (step_reads h (by decide) (by decide)).trans (congrArg _ hread)
  refine ⟨_, _, hstep, ⟨rfl, rfl, rfl, rfl, rfl, rfl, rfl, rfl⟩, rfl, rfl, ?_⟩
  rw [BitVec.toNat_setWidth_of_le (by decide)]
  refine (State.readRate_of_sinit (s := { s with turns := ts }) hw hd).imp (congrArg BitVec.toNat) ?_
  rintro ⟨h1, h199, hnew⟩
  refine ⟨h1, h199, ?_⟩
  rw [hnew, BitVec.toNat_ofNat]
  omega

/-! ### DBUF while BUSY = 1 -/

/-- An accepted access is a hazard exactly when it touches DBUF while BUSY = 1 (R370). -/
theorem hostAccess_hostHazard_iff {a : Access} (s : State) (ha : acceptable a.off.val a.bits) :
    hostAccess a s = .fault .hostHazard ↔ 0x100 ≤ a.off.val ∧ s.busy = true := by
  constructor
  · intro h
    rcases hostAccess_cases a s with ⟨-, he⟩ | ⟨-, ho, hb, -⟩ | ⟨-, t, he, -⟩
    · simp [he] at h
    · exact ⟨ho, hb⟩
    · simp [he] at h
  · rintro ⟨ho, hb⟩
    have hacc : ¬a.accepted = false := by simp [a.accepted_iff.mpr ha]
    exact (if_neg hacc).trans ((if_neg (Nat.not_lt.mpr ho)).trans (if_pos hb))

/-- Settles O18: the step of a host turn is the access, and taking the turn off the list leaves BUSY as it was. -/
theorem dbufAccessWhileBusyFaults : Obligations.DbufAccessWhileBusyFaults := by
  intro s a ts h ha
  rw [step_host h]
  exact hostAccess_hostHazard_iff { s with turns := ts } ha

end Sys2Proof.Machine
end

section
/-! PROOFS. The sample words of spec/95_test_vectors.md V20 and V22. -/

namespace Sys2Proof

open Sys2Proof.Claims

/-- Settles O6: the decoder runs on the six words, one `rfl` each; the last fails the SX check of PDEC (R104 (3)). -/
theorem sampleWordsDecode : Obligations.SampleWordsDecode :=
  ⟨rfl, rfl, rfl, rfl, rfl, rfl⟩

end Sys2Proof
end
